-- ==== Sys2Proof/Word.lean ====
section
/-! DEFINITION. The words of HTC: bytes of the streams, 32-bit register and bus words, 10-bit node indices and
9-bit symbol values (00_scope.md rules R6, R7 and R9). Nothing here is signed. -/

namespace Sys2Proof

/-- A byte of a stream, or of a byte leaf. -/
abbrev Byte := BitVec 8

/-- A register word or a host bus word: `REG_W = 32` (R6). -/
abbrev Word := BitVec 32

/-- A node store index: `IDX_W = 10` (R6), so every value is in range (R40). -/
abbrev Idx := BitVec 10

/-- A symbol value: `SYM_W = 9` (R9); 0..255 is the byte, 256 is end of message, 257..511 is no symbol. -/
abbrev Sym := BitVec 9

end Sys2Proof
end

