-- ==== Sys2Proof/Config.lean ====
section
/-! DEFINITION. The fixed parameters of HTC (00_scope.md rule R6) and the values the spec leaves open, as constants
without a body. -/

namespace Sys2Proof.Config

/-- Entries of the node store (R6). -/
def nodeCap : Nat := 1024

/-- Greatest node depth and greatest codeword length (R6). -/
def maxDepth : Nat := 256

/-- Code table entries: 256 bytes and end of message (R6). -/
def nsym : Nat := 257

/-- Size of the register window in bytes (R6, R60). -/
def win : Nat := 0x100

/-- The constant the ID register reads (R23). -/
def idWord : Word := 0x48544331#32

/-- The symbol value of end of message (R9). -/
def eom : Sym := 256#9

/-- `HTC_BASE`, the bus address of the register window: OPEN in the spec, set by the platform (R60, D3). Log 9. -/
opaque htcBase : Nat

/-- What a host read returns while BUSY = 1, where the spec says "any value" (R250): the n-th such read of the run.
Log 6. -/
opaque busyRead : Nat → Word

/-- What host variable `rN` holds before the host program sets it (R105 names no start value). Log 12. -/
opaque hostVar : Nat → Word

end Sys2Proof.Config
end

