-- ==== Sys2Proof/Syntax.lean ====
section
/-! DEFINITION. The instructions of HTC, one constructor per row of spec/opcode_table.json, and the trees whose
descriptions the stream carries (30_encoding.md rules R92 and R96, 00_scope.md rule R10). -/

namespace Sys2Proof

/-- The twelve commands of R92, then the three productions of the tree description (R96), which TDES reads from IN
one by one while DES_TREE or DEC_STREAM runs. -/
inductive Instr where
  /-- NOP, OP 0x0 (R180). -/
  | nop
  /-- CLR_ERR, OP 0x1 (R181). -/
  | clrErr
  /-- SOFT_RESET, OP 0x2 (R182). -/
  | softReset
  /-- SER_TREE, OP 0x3 (R120). -/
  | serTree
  /-- DES_TREE, OP 0x4 (R121). -/
  | desTree
  /-- BUILD_TABLE, OP 0x5 (R140). -/
  | buildTable
  /-- ENC_SYM, OP 0x6, with the byte ARG (R141, R93). -/
  | encSym (arg : Byte)
  /-- ENC_EOM, OP 0x7 (R142). -/
  | encEom
  /-- ENC_PAD, OP 0x8 (R143). -/
  | encPad
  /-- DEC_SYM, OP 0x9 (R160). -/
  | decSym
  /-- ENC_STREAM, OP 0xA (R144). -/
  | encStream
  /-- DEC_STREAM, OP 0xB (R161). -/
  | decStream
  /-- The BRANCH production: bit 1 (R96, R122). -/
  | branch
  /-- The LEAF_BYTE production: bits 0, 1 and the byte (R96, R123). -/
  | leafByte (v : Byte)
  /-- The LEAF_EOM production: bits 0, 0 (R96, R124). -/
  | leafEom
  deriving DecidableEq, Repr

/-- A tree as the source has it: a leaf holds one symbol, a branch has exactly two children (R10). -/
inductive Tree where
  /-- The end-of-message leaf. -/
  | eom
  /-- A leaf that holds a byte. -/
  | byte (v : Byte)
  /-- A branch: the 0 edge goes left, the 1 edge goes right (R11). -/
  | branch (left right : Tree)
  deriving DecidableEq, Repr

namespace Tree

/-- Number of nodes. -/
def size : Tree → Nat
  | eom => 1
  | byte _ => 1
  | branch l r => l.size + r.size + 1

/-- Greatest depth of a node; the root has depth 0 (R12). -/
def depth : Tree → Nat
  | eom => 0
  | byte _ => 0
  | branch l r => max l.depth r.depth + 1

/-- Number of branches. -/
def branches : Tree → Nat
  | eom => 0
  | byte _ => 0
  | branch l r => l.branches + r.branches + 1

/-- Number of byte leaves. -/
def byteLeaves : Tree → Nat
  | eom => 0
  | byte _ => 1
  | branch l r => l.byteLeaves + r.byteLeaves

/-- Number of end-of-message leaves. -/
def eomLeaves : Tree → Nat
  | eom => 1
  | byte _ => 0
  | branch l r => l.eomLeaves + r.eomLeaves

/-- The symbol of every leaf, left to right, with its path from the root: 0 (false) is left, 1 (true) is right. The
path is the leaf's codeword, and its length is the leaf's depth (R11, R12). -/
def codewords : Tree → List (Sym × List Bool)
  | eom => [(Config.eom, [])]
  | byte v => [(v.setWidth 9, [])]
  | branch l r => l.codewords.map (fun e => (e.1, false :: e.2)) ++ r.codewords.map (fun e => (e.1, true :: e.2))

/-- The codeword of a symbol: the path of its first leaf in pre-order, none where no leaf holds it. -/
def codeword (t : Tree) (s : Sym) : Option (List Bool) :=
  (t.codewords.find? (fun e => e.1 == s)).map (·.2)

end Tree

end Sys2Proof
end

