-- ==== Sys2Proof/WellFormed.lean ====
section
/-! DEFINITION. What is well formed: a command word (30_encoding.md rule R91), a host bus access (20_memory.md rule R61)
and a tree (00_scope.md rule R10). Every term of `Instr` is well formed: its only operands are bytes, which the type
bounds (R93). -/

namespace Sys2Proof

/-- `wellformed(w)` of R91: the reserved bits are 0, OP is at most 0xB, and ARG is 0 unless OP is ENC_SYM's 0x6. -/
def cmdWellFormed (w : Word) : Bool :=
  w.extractLsb' 4 4 == 0#4 && w.extractLsb' 16 16 == 0#16 && decide ((w.extractLsb' 0 4).toNat ≤ 0xB) &&
    (w.extractLsb' 0 4 == 0x6#4 || w.extractLsb' 8 8 == 0#8)

/-- An access of `width` bytes at offset `off` that R61 admits: 32 bits wide, aligned, inside the window. -/
def accessAdmitted (off width : Nat) : Bool :=
  decide (width = 4) && decide (off % 4 = 0) && decide (off < Config.win)

/-- A valid tree (R10): exactly one end-of-message leaf, and no two leaves that hold the same symbol. Fullness holds by
the type. -/
def Tree.valid (t : Tree) : Bool :=
  decide (t.eomLeaves = 1) && decide (t.codewords.map (·.1)).Nodup

end Sys2Proof
end

