-- ==== Sys2Proof/Decode.lean ====
section
/-! DEFINITION. Decoding and encoding: the command word (30_encoding.md rules R90 to R94), the productions of the tree
description (R96, R97) and whole descriptions, and the bit order of a byte in a stream (20_memory.md rule R64). -/

namespace Sys2Proof

/-- The bits of a byte in stream order, most significant first (R7, R64). -/
def byteBits (v : Byte) : List Bool :=
  [v.getLsbD 7, v.getLsbD 6, v.getLsbD 5, v.getLsbD 4, v.getLsbD 3, v.getLsbD 2, v.getLsbD 1, v.getLsbD 0]

/-- The number a bit sequence spells, first bit most significant, after the bits that gave `acc` (R66). -/
def bitsNat : Nat → List Bool → Nat
  | acc, [] => acc
  | acc, b :: r => bitsNat (2 * acc + b.toNat) r

/-- The byte that eight bits spell, first bit most significant (R64, R67). -/
def bitsByte (bs : List Bool) : Byte := BitVec.ofNat 8 (bitsNat 0 bs)

/-- The bits of a sequence of bytes, in stream order. -/
def bytesBits (vs : List Byte) : List Bool := vs.flatMap byteBits

/-- Why a decoder rejects what it is given. -/
inductive DecodeError where
  /-- RSVD0, bits [7:4], is not 0 (R94). -/
  | rsvd0
  /-- RSVD1, bits [31:16], is not 0 (R94). -/
  | rsvd1
  /-- OP is one of the reserved values 0xC..0xF (R94). -/
  | reservedOp
  /-- ARG, bits [15:8], is not 0 for a command other than ENC_SYM (R94). -/
  | argNotZero
  /-- The bits end before a production is complete: the only failure of the grammar (R99). -/
  | exhausted
  deriving DecidableEq, Repr

/-- The command a command word spells (R91, R92), or why it spells none. -/
def decodeWord (w : Word) : Except DecodeError Instr :=
  if w.extractLsb' 4 4 ≠ 0#4 then .error .rsvd0
  else if w.extractLsb' 16 16 ≠ 0#16 then .error .rsvd1
  else if 0xB < (w.extractLsb' 0 4).toNat then .error .reservedOp
  else if w.extractLsb' 0 4 = 0x6#4 then .ok (.encSym (w.extractLsb' 8 8))
  else if w.extractLsb' 8 8 ≠ 0#8 then .error .argNotZero
  else match (w.extractLsb' 0 4).toNat with
    | 0x0 => .ok .nop
    | 0x1 => .ok .clrErr
    | 0x2 => .ok .softReset
    | 0x3 => .ok .serTree
    | 0x4 => .ok .desTree
    | 0x5 => .ok .buildTable
    | 0x7 => .ok .encEom
    | 0x8 => .ok .encPad
    | 0x9 => .ok .decSym
    | 0xA => .ok .encStream
    | 0xB => .ok .decStream
    | _ => .error .reservedOp

/-- The production at the head of a bit sequence, with the bits after it: its leading bits alone tell its length (R97). -/
def decodeProduction : List Bool → Except DecodeError (Instr × List Bool)
  | true :: rest => .ok (.branch, rest)
  | false :: false :: rest => .ok (.leafEom, rest)
  | false :: true :: rest =>
    if 8 ≤ rest.length then .ok (.leafByte (bitsByte (rest.take 8)), rest.drop 8) else .error .exhausted
  | _ => .error .exhausted

/-- The OP field of a command, none for a production of the tree description (R92). -/
def opcode : Instr → Option (BitVec 4)
  | .nop => some 0x0#4
  | .clrErr => some 0x1#4
  | .softReset => some 0x2#4
  | .serTree => some 0x3#4
  | .desTree => some 0x4#4
  | .buildTable => some 0x5#4
  | .encSym _ => some 0x6#4
  | .encEom => some 0x7#4
  | .encPad => some 0x8#4
  | .decSym => some 0x9#4
  | .encStream => some 0xA#4
  | .decStream => some 0xB#4
  | .branch => none
  | .leafByte _ => none
  | .leafEom => none

/-- How an instruction is encoded: a command as the word written to CMD, a production as bits of a stream. -/
inductive Encoding where
  /-- A 32-bit command word (R90). -/
  | word (w : Word)
  /-- The bits of one production, in stream order (R96). -/
  | bits (bs : List Bool)
  deriving DecidableEq, Repr

/-- The encoding of an instruction: the word column of R92, with ARG in bits [15:8], and the bits column of R96. -/
def encode : Instr → Encoding
  | .nop => .word 0x00000000#32
  | .clrErr => .word 0x00000001#32
  | .softReset => .word 0x00000002#32
  | .serTree => .word 0x00000003#32
  | .desTree => .word 0x00000004#32
  | .buildTable => .word 0x00000005#32
  | .encSym arg => .word (0#16 ++ arg ++ 0x06#8)
  | .encEom => .word 0x00000007#32
  | .encPad => .word 0x00000008#32
  | .decSym => .word 0x00000009#32
  | .encStream => .word 0x0000000A#32
  | .decStream => .word 0x0000000B#32
  | .branch => .bits [true]
  | .leafByte v => .bits (false :: true :: byteBits v)
  | .leafEom => .bits [false, false]

/-- Decoding, total on every word and every bit sequence; a bit sequence must be one whole production and no more. -/
def decode : Encoding → Except DecodeError Instr
  | .word w => decodeWord w
  | .bits bs =>
    match decodeProduction bs with
    | .ok (i, []) => .ok i
    | .ok (_, _ :: _) => .error .exhausted
    | .error e => .error e

/-- The tree description `desc(T)` (R96), by pre-order recursion. -/
def desc : Tree → List Bool
  | .branch l r => true :: (desc l ++ desc r)
  | .byte v => false :: true :: byteBits v
  | .eom => [false, false]

/-- The tree described at the head of a bit sequence, with the bits after it (R97), looking at most `fuel` levels
deep; none where the bits end first or the description nests deeper. -/
def decodeTree : Nat → List Bool → Option (Tree × List Bool)
  | 0, _ => none
  | fuel + 1, bs =>
    match decodeProduction bs with
    | .ok (.branch, rest) =>
      match decodeTree fuel rest with
      | some (l, rest') =>
        match decodeTree fuel rest' with
        | some (r, rest'') => some (.branch l r, rest'')
        | none => none
      | none => none
    | .ok (.leafByte v, rest) => some (.byte v, rest)
    | .ok (.leafEom, rest) => some (.eom, rest)
    | _ => none

/-- The host's view of decoding, by the rows of spec/opcode_table.json. A command row has 32 bits. A row of format
TREE_DESC is a bit pattern of 1, 2 or 10 bits read as one number, last bit least significant, given in 1 or 2 whole
bytes: BRANCH is the number 1, LEAF_EOM the number 0, LEAF_BYTE the number 0x100 plus its byte. Log 16. -/
def decodeTableWord (nbits w : Nat) : Option Instr :=
  if nbits = 8 ∨ nbits = 1 ∨ nbits = 2 then
    if w = 1 ∧ nbits ≠ 2 then some .branch
    else if w = 0 ∧ nbits ≠ 1 then some .leafEom
    else none
  else if nbits = 16 ∨ nbits = 10 then
    if w / 256 = 1 then some (.leafByte (BitVec.ofNat 8 (w % 256))) else none
  else if nbits = 32 ∧ w < 2 ^ 32 then
    match decodeWord (BitVec.ofNat 32 w) with
    | .ok i => some i
    | .error _ => none
  else none

end Sys2Proof
end

