-- ==== Sys2Proof/Machine/State.lean ====
section
/-! DEFINITION. The state of HTC and of the two agents around it (10_state.md, 20_memory.md rule R62, 00_scope.md rule
R4), as plain data, and the state after reset (70_reset_and_hazards.md rule R240). -/

namespace Sys2Proof.Machine

/-- Storage by key, as a list in one canonical form: keys strictly rising. The node store and the code table list
exactly the entries whose V bit is 1 (logs 3 and 4). -/
abbrev Memory (α : Type) := List (Nat × α)

/-- The canonical form: keys strictly rising and below `cap`. -/
def Memory.wf {α : Type} (cap : Nat) : Memory α → Bool
  | [] => true
  | [(k, _)] => decide (k < cap)
  | (k, _) :: (k', v') :: rest => decide (k < k') && Memory.wf cap ((k', v') :: rest)

/-- The codes of R200. -/
inductive ErrCode where
  /-- 0x00: no error is recorded. -/
  | none
  /-- 0x01: allocated, never raised (R208). -/
  | format
  /-- 0x02: IN ended inside a tree description. -/
  | eosTree
  /-- 0x03: IN ended with a decode walk at a branch. -/
  | eosPayload
  /-- 0x04: a symbol to encode has no table entry. -/
  | lookup
  /-- 0x05: the tree breaks the invariant of R10 in a way the command cannot work with. -/
  | treeInvalid
  /-- 0x06: a description has more than `NODE_CAP` nodes. -/
  | capacity
  /-- 0x07: a traversal would go below depth `MAX_DEPTH`. -/
  | depth
  /-- 0x08: a traversal reached an entry with V = 0. -/
  | nodeUninit
  /-- 0x09: a traversal reached an entry with KIND = 0b11. -/
  | nodeKind
  /-- 0x0A: a word written to CMD is not well formed. -/
  | illegalCmd
  /-- 0x0B: ENC_SYM or ENC_EOM with TABLE_VALID = 0. -/
  | noTable
  /-- 0x0C: a stream command on an unaligned cursor, or DEC_SYM after end of message. -/
  | state
  deriving DecidableEq, Repr

/-- What a `raise` carries: the code and VALUE (R200, R203). -/
structure Err where
  code : ErrCode
  value : BitVec 28
  deriving DecidableEq, Repr

/-- The error record: STATUS.ERR (R27), ERRCODE (R33) and ERRINFO's two fields (R34). -/
structure ErrRecord where
  set : Bool
  code : ErrCode
  op : BitVec 4
  value : BitVec 28
  deriving DecidableEq, Repr

/-- The RESULT register's fields (R35). -/
structure Result where
  valid : Bool
  len : BitVec 9
  sym : Sym
  deriving DecidableEq, Repr

/-- The KIND codes of a node entry (R40). -/
inductive Kind where
  /-- 0b00, end-of-message leaf. -/
  | eom
  /-- 0b01, byte leaf. -/
  | byte
  /-- 0b10, branch. -/
  | branch
  /-- 0b11, reserved: stored as written, and a traversal that reaches it raises NODE_KIND. -/
  | reserved
  deriving DecidableEq, Repr

/-- A valid node store entry (R40); its V bit is that it is listed. -/
structure Node where
  kind : Kind
  byte : Byte
  left : Idx
  right : Idx
  deriving DecidableEq, Repr

/-- TBL_SEL's fields (R43). -/
structure TblSel where
  sym : Sym
  word : BitVec 3
  deriving DecidableEq, Repr

/-- One frame of TDES's traversal stack (R54): a subtree of the description still to be read, at this depth, below this
parent, as its left or its right child. -/
structure DesFrame where
  depth : Nat
  parent : Idx
  right : Bool
  deriving DecidableEq, Repr

/-- An event the OUT port received (R55, R62). -/
inductive OutEvent where
  /-- `Byte(v)`. -/
  | byte (v : Byte)
  /-- `Flush`. -/
  | flush
  deriving DecidableEq, Repr

/-- A port event a command made, in the order of its pseudocode (R75, R241). -/
inductive PortEvent where
  /-- `PortRead()` took this byte from `inQ`. -/
  | took (v : Byte)
  /-- `PortWrite(v)`. -/
  | sent (v : Byte)
  /-- `PortFlush()`. -/
  | flushed
  deriving DecidableEq, Repr

/-- Where the IN port stands (R63): `fresh` from reset until the first `PortRead`, when the environment may present a new
sequence; `eos` once `EOS` was returned, which is final until reset. Log 5. -/
inductive InPhase where
  | fresh
  | flowing
  | eos
  deriving DecidableEq, Repr

/-- A host bus access (R61), at an offset of the window; `width` in bytes. -/
inductive Access where
  /-- `MemRead(off, width)`. -/
  | read (off width : Nat)
  /-- `MemWrite(off, width, v)`. -/
  | write (off width : Nat) (v : Word)
  deriving DecidableEq, Repr

/-- A statement of a host program (R105); a label is the index of the statement it names. -/
inductive HostStmt where
  /-- `wr REG, imm32`. -/
  | wr (off : Nat) (v : Word)
  /-- `rd rN, REG`. -/
  | rd (var off : Nat)
  /-- `bf rN, mask, val, label`. -/
  | bf (var : Nat) (mask val : Word) (target : Nat)
  /-- `bnf rN, mask, val, label`. -/
  | bnf (var : Nat) (mask val : Word) (target : Nat)
  /-- `jmp label`. -/
  | jmp (target : Nat)
  /-- `halt`. -/
  | halt
  deriving DecidableEq, Repr

/-- The host agent (R4): its program, the next statement, its variables, and the word its last bus read returned. None
of it is HTC state (R105). Log 12. -/
structure HostAgent where
  prog : List HostStmt
  next : Nat
  vars : Memory Word
  data : Option Word
  deriving DecidableEq, Repr

/-- What an agent, or the reset line, does in one step (R4, R241). Log 11. -/
inductive Event where
  /-- The core runs the command it accepted. -/
  | core
  /-- The host executes its next statement. -/
  | host
  /-- The host makes one access at an offset of the window. -/
  | access (a : Access)
  /-- The host reads `width` bytes at a bus address (R60). -/
  | busRead (addr width : Nat)
  /-- The host writes `width` bytes at a bus address (R60). -/
  | busWrite (addr width : Nat) (v : Word)
  /-- Hardware reset; a command it aborts has made its first `k` port events (R241). -/
  | reset (k : Nat)
  /-- The environment presents a new sequence as `inQ` (R63). -/
  | present (bytes : List Byte)
  /-- The environment delivers more bytes behind those of `inQ` (R80). -/
  | deliver (bytes : List Byte)
  deriving DecidableEq, Repr

/-- Every piece of state: the core's, then the environment's (R55), then the host's and the model's own. -/
structure State where
  /-- `cur` (R50): idle, or the accepted command word. STATUS.BUSY is 1 exactly when it is not idle. -/
  cur : Option Word
  /-- STATUS.ERR, ERRCODE, ERRINFO (R27, R33, R34). -/
  err : ErrRecord
  /-- STATUS.DROPPED (R32). -/
  dropped : Bool
  /-- STATUS.EOM_SEEN (R28). -/
  eomSeen : Bool
  /-- STATUS.TABLE_VALID (R29). -/
  tableValid : Bool
  /-- RESULT (R35). -/
  result : Result
  /-- ROOT.INDEX (R36). -/
  root : Idx
  /-- NODE_ADDR.INDEX (R37). -/
  nodeAddr : Idx
  /-- NODE_COUNT.COUNT (R39). -/
  nodeCount : BitVec 11
  /-- The node store's valid entries (R40, R42). -/
  node : Memory Node
  /-- TBL_SEL (R43). -/
  tblSel : TblSel
  /-- The code table's valid entries (R45): CW as a bit sequence, LEN its length. -/
  tbl : Memory (List Bool)
  /-- DEC_NODE (R48). -/
  decNode : Idx
  /-- `inBuf` (R51), next bit first. -/
  inBuf : List Bool
  /-- IN_BITPOS (R46). -/
  inBitpos : Word
  /-- `outAcc` (R52), first written first. -/
  outAcc : List Bool
  /-- OUT_BITPOS (R47). -/
  outBitpos : Word
  /-- TDES's traversal stack (R54), innermost subtree first; empty outside a tree description. Log 8. -/
  desStack : List DesFrame
  /-- `inQ` (R55), next byte first. -/
  inQ : List Byte
  /-- Where the IN port stands (R63). -/
  inPhase : InPhase
  /-- `outEv` (R55), oldest first. -/
  outEv : List OutEvent
  /-- The port events of the last accepted command, oldest first (R75, R241); the model's own record. Log 14. -/
  portLog : List PortEvent
  /-- The host agent. -/
  host : HostAgent
  /-- Which agent moves next, soonest first; when it is empty the core runs, else the host. Log 11. -/
  agenda : List Event
  /-- Number of "any value" reads so far; the model's own counter. Log 6. -/
  freeCtr : Nat
  deriving DecidableEq, Repr

/-- Why the machine stops with a fault. -/
inductive Fault where
  /-- Raised by the core's step when the sequencer holds a word that is no accepted command (`cur` ill formed, or a tree
  description being read under a command that reads none). R50 excludes such a state and no step from reset enters it.
  Safe. Log 17. -/
  | sequencerWord
  deriving DecidableEq, Repr

/-- Why the model has no step. -/
inductive Refusal where
  /-- An instruction without a meaning, raised by `exec` only. Safe. -/
  | notModelled (mnemonic : String)
  /-- A host access that is not 32 bits wide, raised by the host's step: R61 refuses it. Safe. Log 10. -/
  | accessWidth
  /-- A host access at an offset that is no multiple of 4, raised by the host's step: R61 refuses it. Safe. Log 10. -/
  | accessMisaligned
  /-- A host access outside the window, raised by the host's step: R61 refuses it. Safe. Log 10. -/
  | accessOutsideWindow
  /-- The environment presents a new `inQ` before a reset, or delivers bytes after `EOS`: R80 puts such an environment
  outside the spec. Raised by the environment's step. Safe. Log 5. -/
  | environmentDuty
  deriving DecidableEq, Repr

/-- The error record with no error (R240). -/
def ErrRecord.clear : ErrRecord := { set := false, code := .none, op := 0#4, value := 0#28 }

/-- RESULT after reset, and at the start of a decode walk (R35, R160). -/
def Result.zero : Result := { valid := false, len := 0#9, sym := 0#9 }

/-- The machine right after power-on reset: R240's value in every piece of core state, an environment that has presented
no byte and received no event, a host with no program, and no event on the agenda (log 13). -/
def State.reset : State where
  cur := none
  err := ErrRecord.clear
  dropped := false
  eomSeen := false
  tableValid := false
  result := Result.zero
  root := 0#10
  nodeAddr := 0#10
  nodeCount := 0#11
  node := []
  tblSel := { sym := 0#9, word := 0#3 }
  tbl := []
  decNode := 0#10
  inBuf := []
  inBitpos := 0#32
  outAcc := []
  outBitpos := 0#32
  desStack := []
  inQ := []
  inPhase := .fresh
  outEv := []
  portLog := []
  host := { prog := [], next := 0, vars := [], data := none }
  agenda := []
  freeCtr := 0

end Sys2Proof.Machine
end

