-- ==== Sys2Proof/Machine/Ops.lean ====
section
/-! DEFINITION. The shared operations: storage by key, the two ports and the bit cursors over them (20_memory.md rules
R62 to R69), the node store and the code table (10_state.md rules R29, R40 to R45), raising an error and leaving it
(60_exceptions.md rules R203 and R206, 43_control.md rule R181), and reset (70_reset_and_hazards.md rule R240). -/

namespace Sys2Proof.Machine

/-! ### Storage by key -/

/-- The value listed under a key. -/
def Memory.get {α : Type} : Memory α → Nat → Option α
  | [], _ => none
  | (k', v) :: rest, k => if k' = k then some v else Memory.get rest k

/-- Lists a value under a key, in its place in the rising order. -/
def Memory.put {α : Type} : Memory α → Nat → α → Memory α
  | [], k, v => [(k, v)]
  | (k', v') :: rest, k, v =>
    if k < k' then (k, v) :: (k', v') :: rest
    else if k = k' then (k, v) :: rest
    else (k', v') :: Memory.put rest k v

/-! ### Commands as actions

A command's pseudocode is an action: it threads the state and may raise, and the state keeps every effect made before
the raise (R207). -/

/-- An action of the core (R8): a step of pseudocode that gives a value, or raises. -/
abbrev Act (α : Type) := EStateM Err State α

/-- `raise Err(code, value)` (R203). -/
def raise {α : Type} (code : ErrCode) (value : BitVec 28) : Act α :=
  fun s => .error { code := code, value := value } s

/-- An action that changes the state and cannot raise. -/
def update (f : State → State) : Act Unit := fun s => .ok () (f s)

/-- An action chosen by the state it starts in. -/
def withState {α : Type} (f : State → Act α) : Act α := fun s => f s s

/-- Runs a body that lists a cleanup: on a raise from inside it, the cleanup runs and the raise goes on (R203). -/
def withCleanup (cleanup : State → State) (body : Act Unit) : Act Unit := fun s =>
  match body s with
  | .ok u t => .ok u t
  | .error e t => .error e (cleanup t)

/-! ### Taking an error, and the way out of one -/

/-- The record a raise leaves: ERR, ERRCODE, and ERRINFO = {OP, VALUE} (R203, R207). -/
def recordError (op : BitVec 4) (e : Err) (s : State) : State :=
  { s with err := { set := true, code := e.code, op := op, value := e.value } }

/-- Clears the error record and DROPPED: what CLR_ERR does (R181, R206). -/
def clearError (s : State) : State := { s with err := ErrRecord.clear, dropped := false }

/-- Completion: `cur <- idle; STATUS.BUSY <- 0` (R201). -/
def complete (s : State) : State := { s with cur := none }

/-- Ends a command: completion, and before it the error record if its body raised (R201, R203). OP is the OP field of the
command's word (R200). Log 2. -/
def settle (op : BitVec 4) : EStateM.Result Err State Unit → State
  | .ok _ t => complete t
  | .error e t => complete (recordError op e t)

/-- Runs a command's body and ends the command. Every command ends in a next state: a raise is a recorded error, and the
core is idle again (R203, R207). -/
def runCommand (op : BitVec 4) (body : Act Unit) (s : State) : Host.Outcome State Fault Refusal :=
  .next (settle op (body s))

/-! ### The ports -/

/-- `PortRead()` (R62): the next byte of `inQ`, or none for `EOS`, which is final (R63). -/
def portRead (s : State) : Option Byte × State :=
  match s.inPhase, s.inQ with
  | .eos, _ => (none, s)
  | _, [] => (none, { s with inPhase := .eos })
  | _, v :: rest => (some v, { s with inQ := rest, inPhase := .flowing, portLog := s.portLog ++ [.took v] })

/-- `PortWrite(v)` (R62). -/
def portWrite (v : Byte) (s : State) : State :=
  { s with outEv := s.outEv ++ [.byte v], portLog := s.portLog ++ [.sent v] }

/-- `Flush()` (R69), which is `PortFlush()` (R62). -/
def flush (s : State) : State :=
  { s with outEv := s.outEv ++ [.flush], portLog := s.portLog ++ [.flushed] }

/-! ### The bit cursors -/

/-- Takes the first of the bits in hand, keeping the others in `inBuf`, and counts it in IN_BITPOS (R65). -/
def takeBit (b : Bool) (rest : List Bool) (s : State) : EStateM.Result Err State (Option Bool) :=
  .ok (some b) { s with inBuf := rest, inBitpos := s.inBitpos + 1#32 }

/-- `ReadBit()` (R65); none is `EOS`. -/
def readBit : Act (Option Bool) := fun s =>
  match s.inBuf with
  | b :: rest => takeBit b rest s
  | [] =>
    match portRead s with
    | (none, t) => .ok none t
    | (some v, t) =>
      match byteBits v with
      | b :: rest => takeBit b rest t
      | [] => .ok none t

/-- `ReadBits(n)` after the bits that gave `acc` (R66), first bit most significant; none is `EOS`, and the bits read
before it stay consumed. -/
def readBitsFrom : Nat → Nat → Act (Option Nat)
  | 0, acc => pure (some acc)
  | n + 1, acc => do
    match ← readBit with
    | none => pure none
    | some b => readBitsFrom n (2 * acc + b.toNat)

/-- `ReadBits(n)` (R66). -/
def readBits (n : Nat) : Act (Option Nat) := readBitsFrom n 0

/-- `WriteBit(b)` (R67): the eighth bit sends the byte. -/
def writeBit (b : Bool) (s : State) : State :=
  if (s.outAcc ++ [b]).length = 8 then
    portWrite (bitsByte (s.outAcc ++ [b])) { s with outAcc := [], outBitpos := s.outBitpos + 1#32 }
  else { s with outAcc := s.outAcc ++ [b], outBitpos := s.outBitpos + 1#32 }

/-- `WriteBit` of each bit of a sequence, in order. -/
def writeSeq : List Bool → State → State
  | [], s => s
  | b :: rest, s => writeSeq rest (writeBit b s)

/-- `WriteBits(v, 8)` (R68). -/
def writeByte (v : Byte) (s : State) : State := writeSeq (byteBits v) s

/-- `while |outAcc| != 0: WriteBit(0)` (R143), at most `fuel` times; seven are enough for at most seven bits held
(R52). -/
def padOut : Nat → State → State
  | 0, s => s
  | fuel + 1, s => if s.outAcc = [] then s else padOut fuel (writeBit false s)

/-- The bits IN still holds: those in `inBuf`, then those of the bytes not yet delivered; after `EOS` no byte follows
(R63). -/
def pendingBits (s : State) : List Bool :=
  match s.inPhase with
  | .eos => s.inBuf
  | _ => s.inBuf ++ bytesBits s.inQ

/-! ### The node store and the code table -/

/-- `InvalidateTable()` (R29). -/
def invalidateTable (s : State) : State := { s with tbl := [], tableValid := false }

/-- `node[i].V <- 0` for every `i` (R42). -/
def invalidateNodes (s : State) : State := { s with node := [] }

/-- `node[i] <- {V:1, ...}` (R38, R121). -/
def setNode (i : Idx) (n : Node) (s : State) : State := { s with node := s.node.put i.toNat n }

/-- `tbl[sym] <- {V:1, LEN:|path|, CW:path}` (R140). -/
def setCodeword (sym : Sym) (path : List Bool) (s : State) : State := { s with tbl := s.tbl.put sym.toNat path }

/-- A node that passed the node check: one of the source's two variants, and which leaf it is (R119). -/
inductive Visited where
  | eom
  | byte (v : Byte)
  | branch (left right : Idx)
  deriving DecidableEq, Repr

/-- `CheckNode(n)` (R119), and the fields of the node it admits. -/
def visit (n : Idx) : Act Visited := fun s =>
  match s.node.get n.toNat with
  | none => raise .nodeUninit (n.setWidth 28) s
  | some e =>
    match e.kind with
    | .reserved => raise .nodeKind (n.setWidth 28) s
    | .branch => .ok (.branch e.left e.right) s
    | .byte => .ok (.byte e.byte) s
    | .eom => .ok .eom s

/-! ### Reset -/

/-- `ResetState()` (R240): every piece of core state takes its reset value and the EOS latch of R63 ends. The
environment keeps `inQ` and `outEv`, no port event is made, and the host is not touched. -/
def resetState (s : State) : State :=
  { s with
    cur := none
    err := ErrRecord.clear
    dropped := false
    eomSeen := false
    tableValid := false
    result := Result.zero
    root := 0#10
    nodeAddr := 0#10
    nodeCount := 0#11
    node := []
    tblSel := { sym := 0#9, word := 0#3 }
    tbl := []
    decNode := 0#10
    inBuf := []
    inBitpos := 0#32
    outAcc := []
    outBitpos := 0#32
    desStack := []
    inPhase := .fresh }

end Sys2Proof.Machine
end

