-- ==== Sys2Proof/Machine/Operands.lean ====
section
/-! DEFINITION. The operand forms: the symbol of a byte (30_encoding.md rule R93), the node word (10_state.md rules R38
and R41) and the code table's readback (R43, R44). -/

namespace Sys2Proof.Machine

/-- `s = zext_9(b)`: the symbol value of a byte (R93). -/
def symOfByte (b : Byte) : Sym := b.setWidth 9

/-- KIND of its two bits (R40). -/
def kindOfBits (b : BitVec 2) : Kind :=
  match b.toNat with
  | 0 => .eom
  | 1 => .byte
  | 2 => .branch
  | _ => .reserved

/-- The two bits of a KIND (R40). -/
def kindBits : Kind → BitVec 2
  | .eom => 0b00#2
  | .byte => 0b01#2
  | .branch => 0b10#2
  | .reserved => 0b11#2

/-- The entry a host write of `w` to NODE_DATA stores (R38, R41); bits 10 and 11 are ignored. -/
def nodeOfWord (w : Word) : Node where
  kind := kindOfBits (w.extractLsb' 0 2)
  byte := w.extractLsb' 2 8
  left := w.extractLsb' 12 10
  right := w.extractLsb' 22 10

/-- The node word of a valid entry: `{RIGHT, LEFT, 0, 1, BYTE, KIND}` (R38, R41). -/
def nodeWord (n : Node) : Word := n.right ++ n.left ++ 0#1 ++ 1#1 ++ n.byte ++ kindBits n.kind

/-- NODE_DATA read: the node word of the selected entry, 0 when it is not valid (R38). -/
def nodeData (s : State) : Word :=
  match s.node.get s.nodeAddr.toNat with
  | some n => nodeWord n
  | none => 0#32

/-- The entry TBL_SEL selects: none for a symbol above 256 or an entry with V = 0 (R44). -/
def selected (s : State) : Option (List Bool) :=
  if s.tblSel.sym.toNat ≤ 256 then s.tbl.get s.tblSel.sym.toNat else none

/-- TBL_LEN read: V at bit 31, LEN at bits [8:0] (R44). -/
def tblLen (s : State) : Word :=
  match selected s with
  | some cw => 1#1 ++ 0#22 ++ BitVec.ofNat 9 cw.length
  | none => 0#32

/-- The 32 bits of slice `w` of a codeword: bit `31 - j` is bit `32*w + j` of the codeword, 0 at its length and above
(R44). -/
def slice (cw : List Bool) (w : Nat) : Word :=
  BitVec.ofNat 32 (bitsNat 0 ((List.range 32).map (fun j => cw.getD (32 * w + j) false)))

/-- TBL_BITS read (R44). -/
def tblBits (s : State) : Word :=
  match selected s with
  | some cw => slice cw s.tblSel.word.toNat
  | none => 0#32

end Sys2Proof.Machine
end

