-- ==== Sys2Proof/Machine/Flags.lean ====
section
/-! DEFINITION. STATUS and its flags (10_state.md rules R25 to R32), and the words the other read-only registers read
(R33 to R35). HTC's flags are no condition codes (R56). -/

namespace Sys2Proof.Machine

/-- STATUS.BUSY: 1 exactly when `cur` is not idle (R26, R50). -/
def busy (s : State) : Bool := s.cur.isSome

/-- STATUS.IN_ALIGNED: 1 exactly when IN_BUFBITS = 0 (R30). -/
def inAligned (s : State) : Bool := decide (s.inBuf.length = 0)

/-- STATUS.OUT_ALIGNED: 1 exactly when OUT_NBITS = 0 (R31). -/
def outAligned (s : State) : Bool := decide (s.outAcc.length = 0)

/-- The STATUS word (R25). -/
def statusWord (s : State) : Word :=
  0#16 ++ BitVec.ofNat 4 s.inBuf.length ++ 0#1 ++ BitVec.ofNat 3 s.outAcc.length ++ 0#1 ++
    BitVec.ofBool s.dropped ++ BitVec.ofBool (outAligned s) ++ BitVec.ofBool (inAligned s) ++
    BitVec.ofBool s.tableValid ++ BitVec.ofBool s.eomSeen ++ BitVec.ofBool s.err.set ++ BitVec.ofBool (busy s)

/-- The number of an error code (R200). -/
def errCodeByte : ErrCode → BitVec 8
  | .none => 0x00#8
  | .format => 0x01#8
  | .eosTree => 0x02#8
  | .eosPayload => 0x03#8
  | .lookup => 0x04#8
  | .treeInvalid => 0x05#8
  | .capacity => 0x06#8
  | .depth => 0x07#8
  | .nodeUninit => 0x08#8
  | .nodeKind => 0x09#8
  | .illegalCmd => 0x0A#8
  | .noTable => 0x0B#8
  | .state => 0x0C#8

/-- The ERRCODE word (R33). -/
def errCodeWord (s : State) : Word := (errCodeByte s.err.code).setWidth 32

/-- The ERRINFO word: `{OP, VALUE}` (R34). -/
def errInfoWord (s : State) : Word := s.err.op ++ s.err.value

/-- The RESULT word (R35). -/
def resultWord (s : State) : Word :=
  BitVec.ofBool s.result.valid ++ 0#6 ++ s.result.len ++ 0#7 ++ s.result.sym

end Sys2Proof.Machine
end

