-- ==== Sys2Proof/Machine/TreeCodec.lean ====
section
/-! DEFINITION. The tree codec: SER_TREE and DES_TREE (40_tree_codec.md rules R119 to R129), and the three productions of
the tree description as single steps of TDES (30_encoding.md rule R96, 40_tree_codec.md rules R122 to R124).

The recursions run on the levels left below `MAX_DEPTH`: `levels = MAX_DEPTH + 1 - d` at depth `d`, so no level left is
the check `d > MAX_DEPTH`. -/

namespace Sys2Proof.Machine

/-! ### SER_TREE -/

/-- `SerNode(n, d, p)` (R120). -/
def serNode : Nat → Idx → Idx → Act Unit
  | 0, _, p => raise .depth (p.setWidth 28)
  | levels + 1, n, _ => do
    match ← visit n with
    | .branch left right =>
      update (writeBit true)
      serNode levels left n
      serNode levels right n
    | .byte v =>
      update (writeBit false)
      update (writeBit true)
      update (writeByte v)
    | .eom =>
      update (writeBit false)
      update (writeBit false)

/-- The SER_TREE body (R120). -/
def serTreeBody : Act Unit := withState fun s => serNode (Config.maxDepth + 1) s.root 0#10

/-- SER_TREE (R120). -/
def execSerTree (s : State) : Host.Outcome State Fault Refusal := runCommand 0x3#4 serTreeBody s

/-! ### DES_TREE -/

/-- One production as it is read (R96). -/
inductive Production where
  | branch
  | leafByte (v : Byte)
  | leafEom
  deriving DecidableEq, Repr

/-- A child index of the entry being read: an 11-bit count as a 10-bit index, modulo `NODE_CAP` (R121, R186). -/
def idxOfCount (c : BitVec 11) : Idx := c.setWidth 10

/-- Allocates the next entry: CAPACITY when the store is full, else `i <- NODE_COUNT; NODE_COUNT <- NODE_COUNT + 1`
(R121). -/
def allocNode : Act Idx := fun s =>
  if s.nodeCount = 1024#11 then raise .capacity 0#28 s
  else .ok (idxOfCount s.nodeCount) { s with nodeCount := s.nodeCount + 1#11 }

/-- `ReadBit()`, with EOS_TREE(i) at the end of IN (R121). -/
def treeBit (i : Idx) : Act Bool := do
  match ← readBit with
  | none => raise .eosTree (i.setWidth 28)
  | some b => pure b

/-- Reads the bits of entry `i`'s production (R121 to R124). -/
def readProduction (i : Idx) : Act Production := do
  let t ← treeBit i
  if t then pure .branch
  else do
    let t2 ← treeBit i
    if t2 then do
      match ← readBits 8 with
      | none => raise .eosTree (i.setWidth 28)
      | some v => pure (.leafByte (BitVec.ofNat 8 v))
    else pure .leafEom

/-- The entry that a production at entry `i` writes (R121 to R124); a branch's RIGHT is set later. -/
def entryOf (i : Idx) : Production → Node
  | .branch => { kind := .branch, byte := 0#8, left := i + 1#10, right := 0#10 }
  | .leafByte v => { kind := .byte, byte := v, left := 0#10, right := 0#10 }
  | .leafEom => { kind := .eom, byte := 0#8, left := 0#10, right := 0#10 }

/-- `node[i].RIGHT <- NODE_COUNT mod NODE_CAP` (R121). -/
def setRight (i : Idx) (s : State) : State :=
  match s.node.get i.toNat with
  | some n => setNode i { n with right := idxOfCount s.nodeCount } s
  | none => s

/-- `DesNode(d, p)` (R121). -/
def desNode : Nat → Idx → Act Unit
  | 0, p => raise .depth (p.setWidth 28)
  | levels + 1, _ => do
    let i ← allocNode
    let prod ← readProduction i
    update (setNode i (entryOf i prod))
    match prod with
    | .branch =>
      desNode levels i
      update (setRight i)
      desNode levels i
    | .leafByte _ => pure ()
    | .leafEom => pure ()

/-- What DES_TREE does before it reads (R121). -/
def desStart (s : State) : State :=
  invalidateTable { invalidateNodes s with nodeCount := 0#11, root := 0#10, eomSeen := false }

/-- DES_TREE's cleanup: every entry invalid, NODE_COUNT 0 (R121, R203). -/
def desCleanup (s : State) : State := { invalidateNodes s with nodeCount := 0#11 }

/-- The DES_TREE body (R121). -/
def desTreeBody : Act Unit := do
  update desStart
  withCleanup desCleanup (desNode (Config.maxDepth + 1) 0#10)

/-- DES_TREE (R121). -/
def execDesTree (s : State) : Host.Outcome State Fault Refusal := runCommand 0x4#4 desTreeBody s

/-! ### The productions, one at a time

A production is one node of `DesNode`, read with the subtrees still to come on the traversal stack (R54) instead of in
the recursion. With an empty stack it is the root of a description. Log 8. -/

/-- The subtree a description starts with: the root, at depth 0 (R121). -/
def rootFrame : DesFrame := { depth := 0, parent := 0#10, right := false }

/-- The checks and the allocation of `DesNode` for one subtree (R121): DEPTH, then CAPACITY. Gives the depth and the
entry. -/
def desAlloc (frame : DesFrame) : Act (Nat × Idx) := do
  if Config.maxDepth < frame.depth then raise .depth (frame.parent.setWidth 28)
  else do
    let i ← allocNode
    pure (frame.depth, i)

/-- Enters one subtree: a right child first sets its parent's RIGHT (R121). -/
def desFrame (frame : DesFrame) : Act (Nat × Idx) := fun s =>
  match frame.right with
  | true => desAlloc frame (setRight frame.parent s)
  | false => desAlloc frame s

/-- Enters the next subtree on the stack, all before any bit is read (R121, R207); with an empty stack it is the root of a
description. -/
def desEnter : Act (Nat × Idx) := fun s =>
  match s.desStack with
  | [] => desFrame rootFrame s
  | frame :: rest => desFrame frame { s with desStack := rest }

/-- Moves the IN cursor past the `n` bits of entry `i`'s production. -/
def skipBits (i : Idx) : Nat → Act Unit
  | 0 => pure ()
  | n + 1 => do
    let _ ← treeBit i
    skipBits i n

/-- Ends a production: the command that reads the description goes on, or ends as DES_TREE's raise ends it, with OP of
the running command (R200, R203). With no command running OP is DES_TREE's. -/
def settleProduction : EStateM.Result Err State Unit → State
  | .ok _ t => t
  | .error e t =>
    let op := match t.cur with
      | some w => w.extractLsb' 0 4
      | none => 0x4#4
    complete (recordError op e { desCleanup t with desStack := [] })

/-- BRANCH: entry `i` becomes a branch, and its left and right subtrees are read next (R122). -/
def branchBody : Act Unit := do
  let (d, i) ← desEnter
  skipBits i 1
  update (setNode i (entryOf i .branch))
  update fun s => { s with
    desStack := { depth := d + 1, parent := i, right := false } :: { depth := d + 1, parent := i, right := true } :: s.desStack }

/-- LEAF_BYTE: entry `i` becomes a byte leaf (R123). -/
def leafByteBody (v : Byte) : Act Unit := do
  let (_, i) ← desEnter
  skipBits i 10
  update (setNode i (entryOf i (.leafByte v)))

/-- LEAF_EOM: entry `i` becomes an end-of-message leaf (R124). -/
def leafEomBody : Act Unit := do
  let (_, i) ← desEnter
  skipBits i 2
  update (setNode i (entryOf i .leafEom))

/-- The BRANCH production (R122). -/
def execBranch (s : State) : Host.Outcome State Fault Refusal := .next (settleProduction (branchBody s))

/-- The LEAF_BYTE production (R123). -/
def execLeafByte (v : Byte) (s : State) : Host.Outcome State Fault Refusal := .next (settleProduction (leafByteBody v s))

/-- The LEAF_EOM production (R124). -/
def execLeafEom (s : State) : Host.Outcome State Fault Refusal := .next (settleProduction (leafEomBody s))

/-- The next node when IN ends before its production is complete: the checks of `desEnter`, then EOS_TREE(i) with the
bits read consumed (R121). -/
def exhaustedBody : Act Unit := do
  let (_, i) ← desEnter
  let _ ← readProduction i
  pure ()

end Sys2Proof.Machine
end

