-- ==== Sys2Proof/Machine/Encoder.lean ====
section
/-! DEFINITION. The table builder and the encoder: BUILD_TABLE, ENC_SYM, ENC_EOM, ENC_PAD, ENC_STREAM (41_encoder.md rules
R140 to R148). -/

namespace Sys2Proof.Machine

/-! ### BUILD_TABLE -/

/-- A leaf of the tree at `path`: TREE_INVALID(s) for a second leaf of its symbol, else its entry (R140). -/
def tblLeaf (sym : Sym) (path : List Bool) : Act Unit := fun s =>
  match s.tbl.get sym.toNat with
  | some _ => raise .treeInvalid (sym.setWidth 28) s
  | none => .ok () (setCodeword sym path s)

/-- `TblNode(n, d, p, path)` (R140), with `levels = MAX_DEPTH + 1 - d`. -/
def tblNode : Nat → Idx → Idx → List Bool → Act Unit
  | 0, _, p, _ => raise .depth (p.setWidth 28)
  | levels + 1, n, _, path => do
    match ← visit n with
    | .branch left right =>
      tblNode levels left n (path ++ [false])
      tblNode levels right n (path ++ [true])
    | .byte v => tblLeaf (symOfByte v) path
    | .eom => tblLeaf Config.eom path

/-- The missing end-of-message check after the walk (R140). -/
def tblCheckEom : Act Unit := fun s =>
  match s.tbl.get Config.eom.toNat with
  | some _ => .ok () s
  | none => raise .treeInvalid 0x1FF#28 s

/-- The BUILD_TABLE body (R140). -/
def buildTableBody : Act Unit := do
  update invalidateTable
  withCleanup invalidateTable do
    withState fun s => tblNode (Config.maxDepth + 1) s.root 0#10 []
    tblCheckEom
  update fun s => { s with tableValid := true }

/-- BUILD_TABLE (R140). -/
def execBuildTable (s : State) : Host.Outcome State Fault Refusal := runCommand 0x5#4 buildTableBody s

/-! ### ENC_SYM, ENC_EOM, ENC_PAD -/

/-- `EncSym(s)` (R141). -/
def encSymBody (sym : Sym) : Act Unit := fun s =>
  if s.tableValid = false then raise .noTable 0#28 s
  else
    match s.tbl.get sym.toNat with
    | none => raise .lookup (sym.setWidth 28) s
    | some cw => .ok () (writeSeq cw s)

/-- ENC_SYM (R141). -/
def execEncSym (arg : Byte) (s : State) : Host.Outcome State Fault Refusal :=
  runCommand 0x6#4 (encSymBody (symOfByte arg)) s

/-- ENC_EOM (R142). -/
def execEncEom (s : State) : Host.Outcome State Fault Refusal := runCommand 0x7#4 (encSymBody Config.eom) s

/-- The ENC_PAD body (R143). Log 15. -/
def encPadBody : Act Unit := update fun s => flush (padOut 8 s)

/-- ENC_PAD (R143). -/
def execEncPad (s : State) : Host.Outcome State Fault Refusal := runCommand 0x8#4 encPadBody s

/-! ### ENC_STREAM -/

/-- STATE unless both cursors are aligned (R144, R161). -/
def requireAligned : Act Unit := withState fun s =>
  if inAligned s = false ∨ outAligned s = false then raise .state 0#28 else pure ()

/-- The input loop of R144: one byte of IN, then its codeword, until `EOS`; `fuel` bounds the bytes (log 15). -/
def encLoop : Nat → Act Unit
  | 0 => pure ()
  | fuel + 1 => do
    match ← readBit with
    | none => pure ()
    | some b0 =>
      match ← readBits 7 with
      | none => pure ()
      | some r =>
        encSymBody (symOfByte (BitVec.ofNat 8 (128 * b0.toNat + r)))
        encLoop fuel

/-- The ENC_STREAM body (R144). -/
def encStreamBody : Act Unit := do
  requireAligned
  buildTableBody
  serTreeBody
  withState fun s => encLoop (s.inQ.length + 1)
  encSymBody Config.eom
  encPadBody

/-- ENC_STREAM (R144). -/
def execEncStream (s : State) : Host.Outcome State Fault Refusal := runCommand 0xA#4 encStreamBody s

end Sys2Proof.Machine
end

