-- ==== Sys2Proof/Machine/Decoder.lean ====
section
/-! DEFINITION. The decoder: DEC_SYM and DEC_STREAM (42_decoder.md rules R160 to R167). -/

namespace Sys2Proof.Machine

/-- DEC_NODE <- n (R48). -/
def setDecNode (n : Idx) (s : State) : State := { s with decNode := n }

/-- The walk from a visited node (R160): at a branch one bit of IN picks the child, until a leaf. `levels` is
`MAX_DEPTH - d` at depth `d`, so no level left at a branch is the check `d = MAX_DEPTH`. Gives the leaf's node, its depth
and the leaf. -/
def walk : Nat → Nat → Idx → Visited → Act (Idx × Nat × Visited)
  | 0, d, n, v =>
    match v with
    | .branch _ _ => do
      update (setDecNode n)
      raise .depth (n.setWidth 28)
    | _ => pure (n, d, v)
  | levels + 1, d, n, v =>
    match v with
    | .branch left right => do
      match ← readBit with
      | none =>
        update (setDecNode n)
        raise .eosPayload (n.setWidth 28)
      | some b =>
        let child := if b then right else left
        let v' ← visit child
        walk levels (d + 1) child v'
    | _ => pure (n, d, v)

/-- The EOM discard: the rest of the current input byte is dropped and counted (R160). -/
def discardInput (s : State) : State :=
  { s with inBuf := [], inBitpos := s.inBitpos + BitVec.ofNat 32 s.inBuf.length }

/-- What reaching a leaf writes (R160): DEC_NODE and RESULT, and at the end-of-message leaf EOM_SEEN and the discard. -/
def arrive (n : Idx) (d : Nat) (sym : Sym) (s : State) : State :=
  let t : State := { setDecNode n s with result := { valid := true, len := BitVec.ofNat 9 d, sym := sym } }
  if sym = Config.eom then { discardInput t with eomSeen := true } else t

/-- `DecWalk()` (R160): the symbol decoded. -/
def decWalk : Act Sym := do
  withState fun s => if s.eomSeen then raise .state 0#28 else pure ()
  update fun s => { s with result := Result.zero }
  let root ← withState fun s => pure s.root
  let v ← visit root
  match v with
  | .byte _ => raise .treeInvalid (0x400#28 ||| root.setWidth 28)
  | _ => do
    let (n, d, leaf) ← walk Config.maxDepth 0 root v
    match leaf with
    | .byte b => do
      update (arrive n d (symOfByte b))
      pure (symOfByte b)
    | _ => do
      update (arrive n d Config.eom)
      pure Config.eom

/-- The DEC_SYM body (R160). -/
def decSymBody : Act Unit := do
  let _ ← decWalk
  pure ()

/-- DEC_SYM (R160). -/
def execDecSym (s : State) : Host.Outcome State Fault Refusal := runCommand 0x9#4 decSymBody s

/-- The loop of R161, at most `fuel` walks; gives whether it ended at end of message (log 15). -/
def decLoop : Nat → Act Bool
  | 0 => pure false
  | fuel + 1 => do
    let sym ← decWalk
    if sym = Config.eom then pure true
    else do
      update (writeByte (sym.setWidth 8))
      decLoop fuel

/-- DEC_STREAM after its DES_TREE step: the loop, then `Flush()` (R161). Every walk but the last reads at least one bit,
so one more than the bits of IN bounds the walks. -/
def decStreamTail : Act Unit := do
  let _ ← withState fun s => decLoop ((pendingBits s).length + 1)
  update flush

/-- The DEC_STREAM body (R161). -/
def decStreamBody : Act Unit := do
  requireAligned
  desTreeBody
  decStreamTail

/-- DEC_STREAM (R161). -/
def execDecStream (s : State) : Host.Outcome State Fault Refusal := runCommand 0xB#4 decStreamBody s

end Sys2Proof.Machine
end

