-- ==== Sys2Proof/Machine/Control.lean ====
section
/-! DEFINITION. The control commands: NOP, CLR_ERR and SOFT_RESET (43_control.md rules R180 to R182). -/

namespace Sys2Proof.Machine

/-- NOP: completion, and nothing else (R180). -/
def execNop (s : State) : Host.Outcome State Fault Refusal := runCommand 0x0#4 (pure ()) s

/-- CLR_ERR, the return from an error (R181, R206). -/
def execClrErr (s : State) : Host.Outcome State Fault Refusal := runCommand 0x1#4 (update clearError) s

/-- SOFT_RESET (R182). -/
def execSoftReset (s : State) : Host.Outcome State Fault Refusal := runCommand 0x2#4 (update resetState) s

end Sys2Proof.Machine
end

