-- ==== Sys2Proof/Machine/Dispatch.lean ====
section
/-! DEFINITION. One arm per instruction: the rule of the mnemonic that the sequencer, or TDES, runs (30_encoding.md rules
R92 and R96). -/

namespace Sys2Proof.Machine

def exec (i : Instr) (s : State) : Host.Outcome State Fault Refusal :=
  match i with
  | .nop => Sys2Proof.Machine.execNop s
  | .clrErr => Sys2Proof.Machine.execClrErr s
  | .softReset => Sys2Proof.Machine.execSoftReset s
  | .serTree => Sys2Proof.Machine.execSerTree s
  | .desTree => Sys2Proof.Machine.execDesTree s
  | .buildTable => Sys2Proof.Machine.execBuildTable s
  | .encSym arg => Sys2Proof.Machine.execEncSym arg s
  | .encEom => Sys2Proof.Machine.execEncEom s
  | .encPad => Sys2Proof.Machine.execEncPad s
  | .decSym => Sys2Proof.Machine.execDecSym s
  | .encStream => Sys2Proof.Machine.execEncStream s
  | .decStream => Sys2Proof.Machine.execDecStream s
  | .branch => Sys2Proof.Machine.execBranch s
  | .leafByte v => Sys2Proof.Machine.execLeafByte v s
  | .leafEom => Sys2Proof.Machine.execLeafEom s

end Sys2Proof.Machine
end

