-- ==== Sys2Proof/Machine/Agents.lean ====
section
/-! DEFINITION. What each agent does in one step (00_scope.md rule R4): the host's accesses to the register window
(20_memory.md rules R60 and R61) and its program (30_encoding.md rule R105), the acceptance of a command and its run by
the core (60_exceptions.md rules R201 and R202), the environment's duties (R80) and hardware reset
(70_reset_and_hazards.md rules R240 and R241). -/

namespace Sys2Proof.Machine

/-! ### The register window -/

/-- What the register at an offset reads while the core is idle; 0 for CMD and for the reserved offsets (R22, R24, R49,
R61). -/
def readReg (off : Nat) (s : State) : Word :=
  match off with
  | 0x00 => Config.idWord
  | 0x08 => statusWord s
  | 0x0C => errCodeWord s
  | 0x10 => resultWord s
  | 0x14 => s.root.setWidth 32
  | 0x18 => s.nodeAddr.setWidth 32
  | 0x1C => nodeData s
  | 0x20 => s.nodeCount.setWidth 32
  | 0x24 => 0#13 ++ s.tblSel.word ++ 0#7 ++ s.tblSel.sym
  | 0x28 => tblLen s
  | 0x2C => tblBits s
  | 0x30 => s.inBitpos
  | 0x34 => s.outBitpos
  | 0x38 => s.decNode.setWidth 32
  | 0x3C => errInfoWord s
  | _ => 0#32

/-- A host read. While BUSY = 1 only STATUS.BUSY, ID and the reserved offsets read a fixed value; every other read is any
value, and changes nothing but the model's counter (R26, R250). Log 6. -/
def busRead (off : Nat) (s : State) : Word × State :=
  if busy s = false then (readReg off s, s)
  else if off = 0x00 then (Config.idWord, s)
  else if 0x40 ≤ off then (0#32, s)
  else
    let any := Config.busyRead s.freeCtr
    let t := { s with freeCtr := s.freeCtr + 1 }
    if off = 0x08 then ((any.extractLsb' 1 31) ++ 1#1, t) else (any, t)

/-- The words a CMD write lets pass while ERR = 1: CLR_ERR and SOFT_RESET (R201). -/
def passesError (w : Word) : Bool := w == 0x00000001#32 || w == 0x00000002#32

/-- Sets STATUS.DROPPED (R32). -/
def drop (s : State) : State := { s with dropped := true }

/-- The record of an ill-formed command word: `{OP: w[3:0], VALUE: zext_28(w[15:0])}` (R201). -/
def illegalCommand (w : Word) (s : State) : State :=
  recordError (w.extractLsb' 0 4) { code := .illegalCmd, value := (w.extractLsb' 0 16).setWidth 28 } s

/-- `cur <- w; STATUS.BUSY <- 1` (R201); the record of port events starts afresh. Log 14. -/
def accept (w : Word) (s : State) : State := { s with cur := some w, portLog := [] }

/-- `CmdWrite(w)` while the core is idle, up to the acceptance (R201); the core's own step then runs the command and
completes it. Log 1. -/
def cmdWrite (w : Word) (s : State) : State :=
  if s.err.set && !passesError w then drop s
  else if cmdWellFormed w then accept w s
  else illegalCommand w s

/-- A host write of ROOT (R36). -/
def writeRoot (w : Word) (s : State) : State :=
  invalidateTable { s with root := w.extractLsb' 0 10, eomSeen := false }

/-- A host write of NODE_ADDR (R37). -/
def writeNodeAddr (w : Word) (s : State) : State := { s with nodeAddr := w.extractLsb' 0 10 }

/-- A host write of NODE_DATA (R38). -/
def writeNodeData (w : Word) (s : State) : State := invalidateTable (setNode s.nodeAddr (nodeOfWord w) s)

/-- A host write of TBL_SEL (R43). -/
def writeTblSel (w : Word) (s : State) : State :=
  { s with tblSel := { sym := w.extractLsb' 0 9, word := w.extractLsb' 16 3 } }

/-- The write rule of the register at an offset; none for the read-only registers and the reserved offsets (R22, R61). -/
def writeReg (off : Nat) (w : Word) (s : State) : State :=
  match off with
  | 0x04 => cmdWrite w s
  | 0x14 => writeRoot w s
  | 0x18 => writeNodeAddr w s
  | 0x1C => writeNodeData w s
  | 0x24 => writeTblSel w s
  | _ => s

/-- A host write: dropped, with DROPPED set, while BUSY = 1, whatever the offset (R61, R202). -/
def busWrite (off : Nat) (w : Word) (s : State) : State := if busy s then drop s else writeReg off w s

/-- Why an access is not admitted, none for an admitted one (R61). -/
def accessRefusal (off width : Nat) : Option Refusal :=
  if width ≠ 4 then some .accessWidth
  else if off % 4 ≠ 0 then some .accessMisaligned
  else if Config.win ≤ off then some .accessOutsideWindow
  else none

/-- Hands a word read to the host agent. -/
def giveData (r : Word × State) : State := { r.2 with host := { r.2.host with data := some r.1 } }

/-- One host access; an access R61 does not admit has no step. -/
def accessStep (a : Access) (s : State) : Host.Outcome State Fault Refusal :=
  match a with
  | .read off width =>
    match accessRefusal off width with
    | some r => .refused r
    | none => .next (giveData (busRead off s))
  | .write off width w =>
    match accessRefusal off width with
    | some r => .refused r
    | none => .next (busWrite off w s)

/-- The window offset of a bus address: `HTC_BASE + off`, none outside the window (R60, R73). Log 9. -/
def windowOffset (addr : Nat) : Option Nat :=
  if Config.htcBase ≤ addr ∧ addr < Config.htcBase + Config.win then some (addr - Config.htcBase) else none

/-- A host access by bus address: what lies outside the window is not HTC's (R60, R73). -/
def busStep (addr : Nat) (access : Nat → Access) (s : State) : Host.Outcome State Fault Refusal :=
  match windowOffset addr with
  | some off => accessStep (access off) s
  | none => .refused .accessOutsideWindow

/-! ### The host program -/

/-- The value of host variable `rN`; what it is before the program sets it is free. Log 12. -/
def hostVar (var : Nat) (h : HostAgent) : Word :=
  match h.vars.get var with
  | some v => v
  | none => Config.hostVar var

/-- Continues the host program at a statement. -/
def hostGoto (target : Nat) (s : State) : State := { s with host := { s.host with next := target } }

/-- `rN <- w`. -/
def setHostVar (var : Nat) (w : Word) (s : State) : State :=
  { s with host := { s.host with vars := s.host.vars.put var w } }

/-- The next statement of the host program (R105); at `halt`, or past the last statement, the host does nothing. -/
def hostStep (s : State) : Host.Outcome State Fault Refusal :=
  match s.host.prog[s.host.next]? with
  | none => .next s
  | some .halt => .next s
  | some (.wr off w) => accessStep (.write off 4 w) (hostGoto (s.host.next + 1) s)
  | some (.rd var off) =>
    match accessRefusal off 4 with
    | some r => .refused r
    | none =>
      let r := busRead off (hostGoto (s.host.next + 1) s)
      .next (setHostVar var r.1 (giveData r))
  | some (.bf var mask val target) =>
    .next (hostGoto (if hostVar var s.host &&& mask = val then target else s.host.next + 1) s)
  | some (.bnf var mask val target) =>
    .next (hostGoto (if hostVar var s.host &&& mask = val then s.host.next + 1 else target) s)
  | some (.jmp target) => .next (hostGoto target s)

/-- The host program has ended: it stands at `halt` or past its last statement. -/
def hostHalted (s : State) : Bool :=
  match s.host.prog[s.host.next]? with
  | none => true
  | some .halt => true
  | some _ => false

/-! ### The core -/

/-- After the last production of a description: DES_TREE is complete (R121), DEC_STREAM goes on with its walks (R161). -/
def finishDescription (s : State) : Host.Outcome State Fault Refusal :=
  match s.cur with
  | none => .next s
  | some w =>
    if w = 0x00000004#32 then .next (complete s)
    else if w = 0x0000000B#32 then runCommand 0xB#4 decStreamTail s
    else .fault .sequencerWord

/-- One production of a description being read: TDES takes it from IN and runs it; after the last one the command goes
on (R54, R121). -/
def productionStep (s : State) : Host.Outcome State Fault Refusal :=
  match decodeProduction (pendingBits s) with
  | .ok (i, _) =>
    match exec i s with
    | .next t => if t.desStack = [] then finishDescription t else .next t
    | .fault r => .fault r
    | .refused r => .refused r
  | .error _ => .next (settleProduction (exhaustedBody s))

/-- The core's step: idle it waits (R242); with a description being read it runs the next production; else it runs the
accepted command to its completion, in one step (R5, R201). -/
def coreStep (s : State) : Host.Outcome State Fault Refusal :=
  match s.cur with
  | none => .next s
  | some w =>
    if s.desStack = [] then
      match decodeWord w with
      | .ok i => exec i s
      | .error _ => .fault .sequencerWord
    else productionStep s

/-! ### The environment and hardware reset -/

/-- The environment presents a new `inQ`: only from reset until the first `PortRead` (R63, R80). -/
def presentStep (bytes : List Byte) (s : State) : Host.Outcome State Fault Refusal :=
  if s.inPhase = .fresh then .next { s with inQ := bytes } else .refused .environmentDuty

/-- The environment delivers bytes behind those it holds: never after `EOS` (R63, R80). -/
def deliverStep (bytes : List Byte) (s : State) : Host.Outcome State Fault Refusal :=
  if s.inPhase = .eos then .refused .environmentDuty else .next { s with inQ := s.inQ ++ bytes }

/-- The port events the running command would make, in order; none while idle (R241). -/
def commandEvents (s : State) : List PortEvent :=
  match coreStep { s with portLog := [] } with
  | .next t => t.portLog
  | .fault _ => []
  | .refused _ => []

/-- The effect of one port event on the environment (R62). -/
def replay (e : PortEvent) (s : State) : State :=
  match e with
  | .took _ => { s with inQ := s.inQ.tail }
  | .sent v => { s with outEv := s.outEv ++ [.byte v] }
  | .flushed => { s with outEv := s.outEv ++ [.flush] }

/-- Hardware reset (R240). A command it aborts has made its first `k` port events and nothing else of it remains
(R241); the record of port events holds those. Log 7. -/
def hardReset (k : Nat) (s : State) : State :=
  let made := (commandEvents s).take k
  { resetState (made.foldl (fun t e => replay e t) s) with portLog := made }

/-! ### One step of an agent -/

/-- What an event of the agenda does. -/
def eventStep (e : Event) (s : State) : Host.Outcome State Fault Refusal :=
  match e with
  | .core => coreStep s
  | .host => hostStep s
  | .access a => accessStep a s
  | .busRead addr width => busStep addr (fun off => .read off width) s
  | .busWrite addr width w => busStep addr (fun off => .write off width w) s
  | .reset k => .next (hardReset k s)
  | .present bytes => presentStep bytes s
  | .deliver bytes => deliverStep bytes s

/-- Who moves when the agenda is empty: the core while it holds a command, else the host. So a command runs before the
host's next access, as in the atomic model of R5. Log 11. -/
def defaultStep (s : State) : Host.Outcome State Fault Refusal := if busy s then coreStep s else hostStep s

/-- One step: the agenda's first event, or the default. -/
def agentStep (s : State) : Host.Outcome State Fault Refusal :=
  match s.agenda with
  | [] => defaultStep s
  | e :: rest => eventStep e { s with agenda := rest }

/-! ### Placing an instruction where the core takes its next one -/

/-- The bytes of a bit sequence, the last one filled with zero bits. -/
def packBits : Nat → List Bool → List Byte
  | 0, _ => []
  | fuel + 1, bs =>
    match bs with
    | [] => []
    | _ => bitsByte ((bs ++ List.replicate 7 false).take 8) :: packBits fuel (bs.drop 8)

/-- Places an instruction for the very next step (log 18). A command word goes to the sequencer `cur`, with no description
being read; a production goes to IN, under a DES_TREE that is reading the root of a description. -/
def placeInstr (nbits w : Nat) (s : State) : State :=
  if nbits = 32 then { s with cur := some (BitVec.ofNat 32 w), desStack := [], agenda := [] }
  else
    match (decodeTableWord nbits w).map encode with
    | some (.bits bs) =>
      { s with cur := some 0x00000004#32, desStack := [rootFrame], agenda := [], inBuf := [],
               inQ := packBits bs.length bs, inPhase := .flowing }
    | _ => { s with cur := some (BitVec.ofNat 32 w), desStack := [], agenda := [] }

end Sys2Proof.Machine
end

