-- ==== Sys2Proof/Machine/Step.lean ====
section
/-! DEFINITION. One step of the machine, and how the host of the pipeline places an instruction for it. -/

namespace Sys2Proof.Machine

/-- One step: the agent that the agenda, or the default, names makes its move (R4). -/
def step (s : State) : Host.Outcome State Fault Refusal := agentStep s

/-- `s` with one instruction of spec/opcode_table.json placed where the core takes its next one. -/
def State.withFetchWord (s : State) (nbits w : Nat) : State := placeInstr nbits w s

end Sys2Proof.Machine
end

