-- ==== Sys2Proof/Machine/HostProgram.lean ====
section
/-! DEFINITION. The assembler's words, the pseudo-statements of host programs, and the encoding of a host program as the bus
actions it makes (30_encoding.md rules R104, R106 and R107). `here` is the index at which a sequence is placed in its program, since a label is a statement's index (log 12). -/

namespace Sys2Proof.Machine

/-- `word(M, a)`: the assembled command word, none for a production (R104). -/
def commandWord (i : Instr) : Option Word :=
  match encode i with
  | .word w => some w
  | .bits _ => none

/-- The bus action a statement is encoded as, none for the host's own statements (R107). -/
def busAction (st : HostStmt) : Option Access :=
  match st with
  | .wr off w => some (.write off 4 w)
  | .rd _ off => some (.read off 4)
  | .bf _ _ _ _ => none
  | .bnf _ _ _ _ => none
  | .jmp _ => none
  | .halt => none

/-- The bus action the next step makes for the host program, none where another agent moves or the statement makes none. -/
def nextAction (s : State) : Option Access :=
  let action := (s.host.prog[s.host.next]?).bind busAction
  match s.agenda with
  | [] => if busy s then none else action
  | .host :: _ => action
  | _ => none

/-- The bus actions a host program makes in the next `n` steps, in order; a step that is refused makes none. At `halt` the
list grows no more. -/
def busActions : Nat → State → List Access
  | 0, _ => []
  | n + 1, s =>
    match step s with
    | .next t => (nextAction s).toList ++ busActions n t
    | .fault _ => []
    | .refused _ => []

/-- A host program placed at its first statement, with no variable set (log 18). -/
def State.withProgram (prog : List HostStmt) (s : State) : State :=
  { s with host := { prog := prog, next := 0, vars := [], data := none } }

/-- The encoding of a host program: the list of bus actions its run from `s` makes in `n` steps (R107). Which statements a
loop repeats or a jump passes over is known from the run alone, so the lists of 95_test_vectors.md go with a start
state. Log 23. -/
def encodeProgram (n : Nat) (prog : List HostStmt) (s : State) : List Access := busActions n (s.withProgram prog)

/-- The HTC part of a host program's encoding: the words it writes to CMD and NODE_DATA (R107). -/
def htcPart (actions : List Access) : List Word :=
  actions.filterMap fun a => match a with
    | .write 0x04 _ w => some w
    | .write 0x1C _ w => some w
    | _ => none

/-- `wait`: poll STATUS until BUSY = 0. -/
def waitStmts (here : Nat) : List HostStmt := [.rd 0 0x08, .bf 0 0x1#32 0x1#32 here]

/-- `cmd M`: write the command word, then wait. -/
def cmdStmts (here : Nat) (w : Word) : List HostStmt := .wr 0x04 w :: waitStmts (here + 1)

/-- Several `cmd` statements, one after the other. -/
def cmdsStmts : Nat → List Word → List HostStmt
  | _, [] => []
  | here, w :: rest => cmdStmts here w ++ cmdsStmts (here + 3) rest

/-- `node i, K, v, l, r`. -/
def nodeStmts (i : Idx) (k : Kind) (v : Byte) (l r : Idx) : List HostStmt :=
  [.wr 0x18 (i.setWidth 32), .wr 0x1C (r ++ l ++ 0#2 ++ v ++ kindBits k)]

/-- `encode_bytes b1, ..., bn`. -/
def encodeBytesStmts (here : Nat) (bytes : List Byte) : List HostStmt :=
  cmdsStmts here
    ([0x00000005#32, 0x00000003#32] ++ bytes.map (fun b => 0#16 ++ b ++ 0x06#8) ++ [0x00000007#32, 0x00000008#32])

/-- `decode_steps L`: its loop starts at `here + 3`, and an error continues at `onError`, which the caller defines. -/
def decodeStepsStmts (here onError : Nat) : List HostStmt :=
  cmdStmts here 0x00000004#32 ++ cmdStmts (here + 3) 0x00000009#32 ++
    [.rd 1 0x08, .bf 1 0x2#32 0x2#32 onError, .rd 2 0x10, .bnf 2 0x1FF#32 0x100#32 (here + 3)]

end Sys2Proof.Machine
end

