-- ==== Sys2Proof/Safety.lean ====
section
/-! DEFINITION. The terms claims are stated in: the tree a node store holds (00_scope.md rule R10), the bits of the two
streams, what a run shows (70_reset_and_hazards.md rule R252), and the invariants of the machine. -/

namespace Sys2Proof.Machine

/-! ### Trees in the node store -/

/-- The node store holds this tree at node `n`: every node of the tree is a valid entry of its kind, linked as the tree
is. A subtree may be reached by more than one path (R42). -/
def Holds (m : Memory Node) : Idx → Tree → Prop
  | n, .eom => ∃ e, m.get n.toNat = some e ∧ e.kind = .eom
  | n, .byte v => ∃ e, m.get n.toNat = some e ∧ e.kind = .byte ∧ e.byte = v
  | n, .branch l r => ∃ e, m.get n.toNat = some e ∧ e.kind = .branch ∧ Holds m e.left l ∧ Holds m e.right r

/-- The entries DES_TREE makes of a tree whose root is entry `i`: pre-order numbers, LEFT the next entry, RIGHT the entry
after the left subtree (R121, R122). -/
def layout (i : Nat) : Tree → Memory Node
  | .eom => [(i, { kind := .eom, byte := 0#8, left := 0#10, right := 0#10 })]
  | .byte v => [(i, { kind := .byte, byte := v, left := 0#10, right := 0#10 })]
  | .branch l r =>
    (i, { kind := .branch, byte := 0#8, left := BitVec.ofNat 10 (i + 1), right := BitVec.ofNat 10 (i + 1 + l.size) }) ::
      (layout (i + 1) l ++ layout (i + 1 + l.size) r)

/-- The productions of a description, one for each node in pre-order; joined they are `desc` (R96). -/
def productions : Tree → List (List Bool)
  | .branch l r => [true] :: (productions l ++ productions r)
  | .byte v => [false :: true :: byteBits v]
  | .eom => [[false, false]]

/-! A descent is a way down from the root of a description that is being read: at each branch, none goes on into its left
subtree, and some tree goes on into its right subtree after that tree was read on the left. -/

/-- The bits read on a descent, up to the node it leads to (R96). -/
def descentBits : List (Option Tree) → List Bool
  | [] => []
  | none :: rest => true :: descentBits rest
  | some l :: rest => true :: (desc l ++ descentBits rest)

/-- The nodes read on a descent, which is also the index of the node it leads to (R122). -/
def descentNodes : List (Option Tree) → Nat
  | [] => 0
  | none :: rest => descentNodes rest + 1
  | some l :: rest => l.size + descentNodes rest + 1

/-- No subtree read on a descent that starts at depth `d` goes below depth 256 (R121). -/
def descentFits : Nat → List (Option Tree) → Prop
  | _, [] => True
  | d, none :: rest => descentFits (d + 1) rest
  | d, some l :: rest => d + 1 + l.depth ≤ 256 ∧ descentFits (d + 1) rest

/-- The symbols of the leaves read on a descent, in order. -/
def descentSymbols : List (Option Tree) → List Sym
  | [] => []
  | none :: rest => descentSymbols rest
  | some l :: rest => l.codewords.map (·.1) ++ descentSymbols rest

/-- In the node store the descent from `n` leads to the entry `k`: every entry it passes is a branch, and every tree read
on its left is held there. Of the entry `k` itself nothing is asked. -/
def Descends (m : Memory Node) : Idx → List (Option Tree) → Idx → Prop
  | n, [], k => k = n
  | n, none :: rest, k => ∃ e, m.get n.toNat = some e ∧ e.kind = .branch ∧ Descends m e.left rest k
  | n, some l :: rest, k =>
    ∃ e, m.get n.toNat = some e ∧ e.kind = .branch ∧ Holds m e.left l ∧ Descends m e.right rest k

/-- The node check refuses the entry `n`, with this code (R119). -/
def RefusedNode (m : Memory Node) (n : Idx) (c : ErrCode) : Prop :=
  (m.get n.toNat = none ∧ c = .nodeUninit) ∨ (∃ e, m.get n.toNat = some e ∧ e.kind = .reserved ∧ c = .nodeKind)

/-- How many bits of the current input byte are left after reading `n` bits with `held` bits in `inBuf` at the start: those
of `inBuf` itself, or of the last whole byte taken from IN (R51, R65). -/
def bitsLeft (held n : Nat) : Nat := if n ≤ held then held - n else (8 - (n - held) % 8) % 8

/-- The node a path leads to from `n` in the node store: at a branch, 0 (false) goes to LEFT and 1 (true) to RIGHT (R11,
R162); none where an entry on the way is no branch. -/
def nodeOnPath (m : Memory Node) : Idx → List Bool → Option Idx
  | n, [] => some n
  | n, b :: path =>
    match m.get n.toNat with
    | some e => if e.kind = .branch then nodeOnPath m (if b then e.right else e.left) path else none
    | none => none

/-- The codewords of a byte sequence, one after the other; none where a byte has no leaf in the tree (R100). -/
def codewordsOf (t : Tree) : List Byte → Option (List Bool)
  | [] => some []
  | v :: rest =>
    match t.codeword (symOfByte v), codewordsOf t rest with
    | some cw, some bits => some (cw ++ bits)
    | _, _ => none

/-- The compressed stream of R100, up to its padding: the description, the codewords of the bytes, and that of end of
message. -/
def streamBits (t : Tree) (bytes : List Byte) : Option (List Bool) :=
  match codewordsOf t bytes, t.codeword Config.eom with
  | some payload, some last => some (desc t ++ payload ++ last)
  | _, _ => none

/-- The padding that follows `n` bits: `(8 - n mod 8) mod 8` zero bits (R102). -/
def padding (n : Nat) : List Bool := List.replicate ((8 - n % 8) % 8) false

/-- The node store as a production finds it on entering the subtree `f`: a right subtree has set its parent's RIGHT to the
next entry (R121). -/
def nodesOnEntry (f : DesFrame) (s : State) : Memory Node :=
  if f.right then
    match s.node.get f.parent.toNat with
    | some e => s.node.put f.parent.toNat { e with right := BitVec.ofNat 10 s.nodeCount.toNat }
    | none => s.node
  else s.node

/-! ### Sequences of commands -/

/-- The step commands of R148: BUILD_TABLE, SER_TREE, ENC_SYM for each byte, ENC_EOM, ENC_PAD. -/
def stepEncode (bytes : List Byte) : List Instr := [.buildTable, .serTree] ++ bytes.map .encSym ++ [.encEom, .encPad]

/-- Runs commands one after the other. -/
def execAll : List Instr → State → Host.Outcome State Fault Refusal
  | [], s => .next s
  | i :: rest, s =>
    match exec i s with
    | .next t => execAll rest t
    | .fault r => .fault r
    | .refused r => .refused r

/-! ### The streams -/

/-- The bytes among OUT events. -/
def outBytes (ev : List OutEvent) : List Byte :=
  ev.filterMap fun e => match e with
    | .byte v => some v
    | .flush => none

/-- Every bit written to OUT so far that this state still shows: the bytes sent, then the bits of `outAcc` (R64, R67). -/
def outBits (s : State) : List Bool := bytesBits (outBytes s.outEv) ++ s.outAcc

/-- The OUT events among port events. -/
def outsOf (log : List PortEvent) : List OutEvent :=
  log.filterMap fun e => match e with
    | .took _ => none
    | .sent v => some (.byte v)
    | .flushed => some .flush

/-- The bytes taken from IN among port events. -/
def takenOf (log : List PortEvent) : List Byte :=
  log.filterMap fun e => match e with
    | .took v => some v
    | .sent _ => none
    | .flushed => none

/-! ### What a run shows -/

/-- What the host and the environment can see of a state (R252): the sixteen registers, every node word, the code table,
`outEv`, and the bytes left in `inQ`. -/
structure Observation where
  regs : List Word
  nodes : Memory Word
  table : Memory (List Bool)
  outEv : List OutEvent
  inQ : List Byte
  deriving DecidableEq, Repr

/-- The observation of a state. -/
def observe (s : State) : Observation where
  regs := (List.range 16).map fun k => readReg (4 * k) s
  nodes := s.node.map fun e => (e.1, nodeWord e.2)
  table := s.tbl
  outEv := s.outEv
  inQ := s.inQ

/-- A run has ended: the host program is at `halt` and BUSY = 0 (R252). -/
def runEnded (s : State) : Bool := hostHalted s && !busy s

/-- A safe step: it stops with no fault. A refusal is the model's, for what the spec puts outside itself. -/
def safe (o : Host.Outcome State Fault Refusal) : Bool :=
  match o with
  | .fault _ => false
  | .next _ => true
  | .refused _ => true

/-! ### Errors -/

/-- The OP fields of the commands that may record a code: the "raised by" column of R200. -/
def raisedBy : ErrCode → List (BitVec 4)
  | .none => []
  | .format => []
  | .eosTree => [0x4#4, 0xB#4]
  | .eosPayload => [0x9#4, 0xB#4]
  | .lookup => [0x6#4, 0xA#4]
  | .treeInvalid => [0x5#4, 0xA#4, 0x9#4, 0xB#4]
  | .capacity => [0x4#4, 0xB#4]
  | .depth => [0x3#4, 0x4#4, 0x5#4, 0x9#4, 0xA#4, 0xB#4]
  | .nodeUninit => [0x3#4, 0x5#4, 0x9#4, 0xA#4, 0xB#4]
  | .nodeKind => [0x3#4, 0x5#4, 0x9#4, 0xA#4, 0xB#4]
  | .illegalCmd => []
  | .noTable => [0x6#4, 0x7#4]
  | .state => [0xA#4, 0xB#4, 0x9#4]

/-! ### Invariants -/

/-- The bit cursors (R46, R47, R51, R52, R63): how many bits they hold, the counters against them, and no byte left
behind `EOS`. -/
def CursorInv (s : State) : Prop :=
  s.inBuf.length ≤ 8 ∧ s.outAcc.length ≤ 7 ∧
    s.inBitpos.toNat % 8 = (8 - s.inBuf.length) % 8 ∧ s.outBitpos.toNat % 8 = s.outAcc.length ∧
    (s.inPhase = .eos → s.inQ = [])

/-- The stores (R29, R39, R40, R45): canonical, in range, the table empty unless TABLE_VALID, which an end-of-message entry
goes with. -/
def StoreInv (s : State) : Prop :=
  Memory.wf Config.nodeCap s.node = true ∧ Memory.wf Config.nsym s.tbl = true ∧
    s.nodeCount.toNat ≤ Config.nodeCap ∧ (∀ k cw, s.tbl.get k = some cw → cw.length ≤ Config.maxDepth) ∧
    (s.tableValid = false → s.tbl = []) ∧ (s.tableValid = true → (s.tbl.get 256).isSome = true)

/-- The error record (R27, R33, R201): clear unless ERR = 1, and then the core holds no command but CLR_ERR or
SOFT_RESET. -/
def ErrorInv (s : State) : Prop :=
  (s.err.set = false → s.err = ErrRecord.clear) ∧
    (s.err.set = true → s.cur = none ∨ s.cur = some 0x00000001#32 ∨ s.cur = some 0x00000002#32)

/-- The sequencer (R50, R54): it holds a well-formed word or none, and a description is being read only under DES_TREE or
DEC_STREAM. -/
def SequencerInv (s : State) : Prop :=
  (∀ w, s.cur = some w → cmdWellFormed w = true) ∧
    (s.desStack ≠ [] → s.cur = some 0x00000004#32 ∨ s.cur = some 0x0000000B#32)

/-- The code table against the tree (R29): while TABLE_VALID = 1 the table is the one BUILD_TABLE would build from the
node store and ROOT as they stand, and while a description is being read it is 0. -/
def TableInv (s : State) : Prop :=
  (s.tableValid = true → ∃ t, buildTableBody s = .ok () t ∧ t.tbl = s.tbl) ∧
    (s.desStack ≠ [] → s.tableValid = false)

end Sys2Proof.Machine
end

