-- ==== Sys2Proof/Certificates/Slice0/Obligations.lean ====
section
/-! DEFINITION. The statements about HTC that are handed to the provers. Each docstring names the rule of spec/ it
formalises, and where it rests on a choice of the model's own, the log entry. -/

open Sys2Proof Sys2Proof.Machine

/-! ### Encoding -/

/-- Sanity: words written out from the word column of R92, and bits written out from R96, decode to the instruction they
stand for. -/
def Obligations.WordsOfTheOpcodeMapDecode : Prop :=
  decodeWord 0x00000000#32 = .ok .nop ∧ decodeWord 0x00000002#32 = .ok .softReset ∧
    decodeWord 0x00000003#32 = .ok .serTree ∧ decodeWord 0x00004106#32 = .ok (.encSym 0x41#8) ∧
    decodeWord 0x0000000B#32 = .ok .decStream ∧
    decode (.bits [true]) = .ok .branch ∧ decode (.bits [false, false]) = .ok .leafEom ∧
    decode (.bits [false, true, false, true, false, false, false, false, false, true]) = .ok (.leafByte 0x41#8)

/-- R91, R94: a word spells a command exactly when it is well formed, and the word is then that command's encoding. -/
def Obligations.WellFormedWordsAreTheEncodingsOfCommands : Prop :=
  ∀ w : Word, (cmdWellFormed w = true ↔ ∃ i, decodeWord w = .ok i) ∧
    ∀ i, decodeWord w = .ok i → encode i = .word w

/-- Decoding an encoded instruction gives it back, whatever its operand: the twelve commands and the three
productions. -/
def Obligations.DecodeEncodeGivesTheInstructionBack : Prop :=
  ∀ i : Instr, decode (encode i) = .ok i

/-- R97, R99: a reader of `desc(T)` knows where it ends, whatever bits follow; and every bit sequence begins with a whole
description or can go on to one, so the grammar has no invalid production. -/
def Obligations.DescriptionIsSelfDelimiting : Prop :=
  (∀ (T : Tree) (rest : List Bool) (levels : Nat), T.depth < levels →
    decodeTree levels (desc T ++ rest) = some (T, rest)) ∧
  (∀ bs : List Bool, (∃ T rest, bs = desc T ++ rest) ∨ (∃ T more, bs ++ more = desc T))

/-- R98: the length of a description, and of a valid tree's: 11k + 2 bits for k byte leaves, 2 to 2818. -/
def Obligations.DescriptionLength : Prop :=
  ∀ T : Tree, (desc T).length = T.branches + 10 * T.byteLeaves + 2 * T.eomLeaves ∧
    (T.valid = true → T.eomLeaves = 1 ∧ T.branches = T.byteLeaves ∧ (desc T).length = 11 * T.byteLeaves + 2 ∧
      2 ≤ (desc T).length ∧ (desc T).length ≤ 2818)

/-! ### The sequencer, the window and the step -/

/-- A step runs the decoded command: with a command accepted, no description being read, and the core to move, the step is
`exec` of the command the word spells; `exec` itself completes the command. -/
def Obligations.StepRunsTheAcceptedCommand : Prop :=
  ∀ (s : State) (w : Word) (i : Instr), s.cur = some w → s.desStack = [] → decodeWord w = .ok i →
    (s.agenda = [] → step s = exec i s) ∧
      (∀ rest, s.agenda = .core :: rest → step s = exec i { s with agenda := rest }) ∧
      (∀ t, exec i s = .next t → t.cur = none)

/-- A step reads and runs the next production of a description: the production the pending bits of IN begin with; after
the last one DES_TREE completes and DEC_STREAM goes on with its walks. -/
def Obligations.StepRunsTheNextProduction : Prop :=
  ∀ (s t : State) (w : Word) (i : Instr) (rest : List Bool), s.cur = some w → s.desStack ≠ [] → s.agenda = [] →
    decodeProduction (pendingBits s) = .ok (i, rest) → exec i s = .next t →
    (t.desStack ≠ [] → step s = .next t) ∧
      (t.desStack = [] → t.cur = none → step s = .next t) ∧
      (t.desStack = [] → t.cur = some 0x00000004#32 → step s = .next { t with cur := none }) ∧
      (t.desStack = [] → t.cur = some 0x0000000B#32 → step s = runCommand 0xB#4 decStreamTail t)

/-- R201: a host write of `w` to CMD. While BUSY = 1 it is dropped; with ERR = 1 every word but those of CLR_ERR and
SOFT_RESET is dropped; else an ill-formed word records ILLEGAL_CMD and BUSY is never set; else `cur <- w`, the core's
next step is the command of `w`, and with it the core is idle again. The record of port events is the model's own
(log 14). -/
def Obligations.CommandAcceptance : Prop :=
  ∀ (s : State) (w : Word) (rest : List Event), s.agenda = .access (.write 0x04 4 w) :: rest →
    (s.cur = none → s.desStack = []) →
    (s.cur ≠ none → step s = .next { s with agenda := rest, dropped := true }) ∧
    (s.cur = none → s.err.set = true → w ≠ 0x00000001#32 → w ≠ 0x00000002#32 →
      step s = .next { s with agenda := rest, dropped := true }) ∧
    (s.cur = none → s.err.set = false → cmdWellFormed w = false →
      step s = .next { s with
        agenda := rest
        err := { set := true, code := .illegalCmd, op := w.extractLsb' 0 4,
                 value := (w.extractLsb' 0 16).setWidth 28 } }) ∧
    (s.cur = none → cmdWellFormed w = true →
      (s.err.set = false ∨ w = 0x00000001#32 ∨ w = 0x00000002#32) →
      step s = .next { s with agenda := rest, cur := some w, portLog := [] } ∧
        ∃ i, decodeWord w = .ok i ∧
          coreStep { s with agenda := rest, cur := some w, portLog := [] } =
            exec i { s with agenda := rest, cur := some w, portLog := [] } ∧
          ∃ t, exec i { s with agenda := rest, cur := some w, portLog := [] } = .next t ∧ t.cur = none)

/-- R202: while BUSY = 1 every host write is dropped and sets DROPPED, and changes nothing else of HTC: an access at any
offset of the window, by offset or by bus address, and a `wr` of the host program, which then goes on. -/
def Obligations.WritesWhileBusyAreDropped : Prop :=
  ∀ (s : State) (off : Nat) (w : Word) (rest : List Event), s.cur ≠ none → off % 4 = 0 → off < 0x100 →
    (s.agenda = .access (.write off 4 w) :: rest → step s = .next { s with agenda := rest, dropped := true }) ∧
    (s.agenda = .busWrite (Config.htcBase + off) 4 w :: rest →
      step s = .next { s with agenda := rest, dropped := true }) ∧
    (s.agenda = .host :: rest → s.host.prog[s.host.next]? = some (.wr off w) →
      step s = .next { s with
        agenda := rest, dropped := true, host := { s.host with next := s.host.next + 1 } })

/-- R61, R250: a host read changes nothing of HTC or of the ports. While the core is idle it hands the host the register's
value. While BUSY = 1 it reads STATUS.BUSY as 1, ID as its constant and the reserved offsets as 0; what else it then
reads is any value (log 6), so the statement says nothing of it, and the counter it advances is the model's own. The
last clause is a `rd` of the host program while BUSY = 1, which keeps the word in its variable and goes on. -/
def Obligations.HostReads : Prop :=
  ∀ (s : State) (off : Nat) (rest : List Event), off % 4 = 0 → off < 0x100 →
    (s.agenda = .access (.read off 4) :: rest → s.cur = none →
      step s = .next { s with agenda := rest, host := { s.host with data := some (readReg off s) } }) ∧
    (s.agenda = .access (.read off 4) :: rest → s.cur ≠ none → ∃ (v : Word) (n : Nat),
      step s = .next { s with agenda := rest, host := { s.host with data := some v }, freeCtr := n } ∧
        (off = 0x08 → v.getLsbD 0 = true) ∧ (off = 0x00 → v = 0x48544331#32) ∧ (0x40 ≤ off → v = 0#32)) ∧
    (∀ var, s.agenda = .host :: rest → s.cur ≠ none → s.host.prog[s.host.next]? = some (.rd var off) →
      ∃ (v : Word) (n : Nat),
        step s = .next { s with
          agenda := rest, freeCtr := n
          host := { prog := s.host.prog, next := s.host.next + 1, vars := s.host.vars.put var v, data := some v } } ∧
        (off = 0x08 → v.getLsbD 0 = true) ∧ (off = 0x00 → v = 0x48544331#32) ∧ (0x40 ≤ off → v = 0#32))

/-- R60, R61, D4: which host accesses have a step. A bus address inside the window, `HTC_BASE + off`, is the access at
offset `off`, read or write, and one outside the window is refused. An access that is not a 32-bit access at an aligned
offset of the window is refused, also as a `wr` or `rd` of the host program. -/
def Obligations.OnlyAdmissibleAccessesReachTheWindow : Prop :=
  ∀ (s : State) (off width : Nat) (w : Word) (rest : List Event),
    (off < 0x100 →
      step { s with agenda := .busRead (Config.htcBase + off) width :: rest } =
        step { s with agenda := .access (.read off width) :: rest } ∧
      step { s with agenda := .busWrite (Config.htcBase + off) width w :: rest } =
        step { s with agenda := .access (.write off width w) :: rest }) ∧
    (∀ addr, addr < Config.htcBase ∨ Config.htcBase + 0x100 ≤ addr →
      step { s with agenda := .busRead addr width :: rest } = .refused .accessOutsideWindow ∧
      step { s with agenda := .busWrite addr width w :: rest } = .refused .accessOutsideWindow) ∧
    (accessAdmitted off width = false →
      (∃ r, step { s with agenda := .access (.read off width) :: rest } = .refused r) ∧
      ∃ r, step { s with agenda := .access (.write off width w) :: rest } = .refused r) ∧
    (accessAdmitted off 4 = false → ∀ st, s.host.prog[s.host.next]? = some st →
      (st = .wr off w ∨ ∃ var, st = .rd var off) →
      ∃ r, step { s with agenda := .host :: rest } = .refused r)

/-- R25: each field of the STATUS word, for a state whose cursors hold the bits R51 and R52 allow. -/
def Obligations.StatusWordFields : Prop :=
  ∀ s : State, s.inBuf.length ≤ 8 → s.outAcc.length ≤ 7 →
    (statusWord s).getLsbD 0 = s.cur.isSome ∧ (statusWord s).getLsbD 1 = s.err.set ∧
      (statusWord s).getLsbD 2 = s.eomSeen ∧ (statusWord s).getLsbD 3 = s.tableValid ∧
      (statusWord s).getLsbD 4 = decide (s.inBuf.length = 0) ∧ (statusWord s).getLsbD 5 = decide (s.outAcc.length = 0) ∧
      (statusWord s).getLsbD 6 = s.dropped ∧ (statusWord s).getLsbD 7 = false ∧
      ((statusWord s).extractLsb' 8 3).toNat = s.outAcc.length ∧ (statusWord s).getLsbD 11 = false ∧
      ((statusWord s).extractLsb' 12 4).toNat = s.inBuf.length ∧ (statusWord s).extractLsb' 16 16 = 0#16

/-- R38, R41: a host write of `w` to NODE_DATA makes the selected entry read back as `w` with bit 10 set and bit 11 clear,
leaves every other entry as it was, invalidates the table, and changes nothing else. -/
def Obligations.NodeDataWrite : Prop :=
  ∀ (s : State) (w : Word) (rest : List Event), s.agenda = .access (.write 0x1C 4 w) :: rest → s.cur = none →
    ∃ t, step s = .next t ∧ readReg 0x1C t = (w &&& 0xFFFFF3FF#32) ||| 0x00000400#32 ∧
      (∀ k, k ≠ s.nodeAddr.toNat → t.node.get k = s.node.get k) ∧
      t = { s with agenda := rest, node := t.node, tbl := [], tableValid := false }

/-- R36, R37, R43, R61: a host write of `w` to ROOT, NODE_ADDR or TBL_SEL sets its fields, and the register reads them back
with the reserved bits 0. A ROOT write also invalidates the table and clears EOM_SEEN; nothing else changes. A write to
any other offset of the window but CMD and NODE_DATA, a read-only register or a reserved offset, has no effect at all:
DROPPED is not set either. -/
def Obligations.RootAndSelectorWrites : Prop :=
  ∀ (s : State) (w : Word) (rest : List Event), s.cur = none →
    (s.agenda = .access (.write 0x14 4 w) :: rest →
      ∃ t, step s = .next t ∧ readReg 0x14 t = w &&& 0x3FF#32 ∧
        t = { s with agenda := rest, root := w.extractLsb' 0 10, tbl := [], tableValid := false, eomSeen := false }) ∧
    (s.agenda = .access (.write 0x18 4 w) :: rest →
      ∃ t, step s = .next t ∧ readReg 0x18 t = w &&& 0x3FF#32 ∧
        t = { s with agenda := rest, nodeAddr := w.extractLsb' 0 10 }) ∧
    (s.agenda = .access (.write 0x24 4 w) :: rest →
      ∃ t, step s = .next t ∧ readReg 0x24 t = w &&& 0x701FF#32 ∧
        t = { s with agenda := rest, tblSel := { sym := w.extractLsb' 0 9, word := w.extractLsb' 16 3 } }) ∧
    (∀ off, off % 4 = 0 → off < 0x100 → off ∉ [0x04, 0x14, 0x18, 0x1C, 0x24] →
      s.agenda = .access (.write off 4 w) :: rest → step s = .next { s with agenda := rest })

/-- R44: the readback of the selected codeword, its length and its 32-bit slice, and 0 where nothing valid is selected. -/
def Obligations.TableReadback : Prop :=
  ∀ s : State,
    (∀ cw, s.tblSel.sym.toNat ≤ 256 → s.tbl.get s.tblSel.sym.toNat = some cw → cw.length ≤ 256 →
      readReg 0x28 s = 0x80000000#32 ||| BitVec.ofNat 32 cw.length ∧
        ∀ j, j < 32 → (readReg 0x2C s).getLsbD (31 - j) = cw.getD (32 * s.tblSel.word.toNat + j) false) ∧
    (256 < s.tblSel.sym.toNat ∨ s.tbl.get s.tblSel.sym.toNat = none → readReg 0x28 s = 0#32 ∧ readReg 0x2C s = 0#32)

/-- R22 to R25, R33 to R41, R43, R46 to R49, R200: what the registers read while the core is idle, in every state and field
by field, with the number of each error code and of each node kind; the STATUS word, TBL_LEN and TBL_BITS have
statements of their own. -/
def Obligations.RegisterReadback : Prop :=
  ∀ s : State, readReg 0x00 s = 0x48544331#32 ∧ readReg 0x04 s = 0#32 ∧ readReg 0x08 s = statusWord s ∧
    (∀ c ∈ [(ErrCode.none, 0x00#32), (.format, 0x01#32), (.eosTree, 0x02#32), (.eosPayload, 0x03#32),
        (.lookup, 0x04#32), (.treeInvalid, 0x05#32), (.capacity, 0x06#32), (.depth, 0x07#32), (.nodeUninit, 0x08#32),
        (.nodeKind, 0x09#32), (.illegalCmd, 0x0A#32), (.noTable, 0x0B#32), (.state, 0x0C#32)],
      s.err.code = c.1 → readReg 0x0C s = c.2) ∧
    (readReg 0x3C s).extractLsb' 28 4 = s.err.op ∧ (readReg 0x3C s).extractLsb' 0 28 = s.err.value ∧
    (readReg 0x10 s).extractLsb' 0 9 = s.result.sym ∧ (readReg 0x10 s).extractLsb' 9 7 = 0#7 ∧
    (readReg 0x10 s).extractLsb' 16 9 = s.result.len ∧ (readReg 0x10 s).extractLsb' 25 6 = 0#6 ∧
    (readReg 0x10 s).getLsbD 31 = s.result.valid ∧
    readReg 0x14 s = s.root.setWidth 32 ∧ readReg 0x18 s = s.nodeAddr.setWidth 32 ∧
    (s.node.get s.nodeAddr.toNat = none → readReg 0x1C s = 0#32) ∧
    (∀ n, s.node.get s.nodeAddr.toNat = some n →
      (∀ k ∈ [(Kind.eom, 0b00#2), (.byte, 0b01#2), (.branch, 0b10#2), (.reserved, 0b11#2)],
          n.kind = k.1 → (readReg 0x1C s).extractLsb' 0 2 = k.2) ∧
        (readReg 0x1C s).extractLsb' 2 8 = n.byte ∧
        (readReg 0x1C s).getLsbD 10 = true ∧ (readReg 0x1C s).getLsbD 11 = false ∧
        (readReg 0x1C s).extractLsb' 12 10 = n.left ∧ (readReg 0x1C s).extractLsb' 22 10 = n.right) ∧
    readReg 0x20 s = s.nodeCount.setWidth 32 ∧
    (readReg 0x24 s).extractLsb' 0 9 = s.tblSel.sym ∧ (readReg 0x24 s).extractLsb' 9 7 = 0#7 ∧
    (readReg 0x24 s).extractLsb' 16 3 = s.tblSel.word ∧ (readReg 0x24 s).extractLsb' 19 13 = 0#13 ∧
    readReg 0x30 s = s.inBitpos ∧ readReg 0x34 s = s.outBitpos ∧ readReg 0x38 s = s.decNode.setWidth 32 ∧
    ∀ off, 0x40 ≤ off → readReg off s = 0#32

/-! ### Control -/

/-- R180: NOP changes nothing; it only completes. -/
def Obligations.NopOnlyCompletes : Prop :=
  ∀ s : State, exec .nop s = .next { s with cur := none }

/-- R181: CLR_ERR clears ERR, DROPPED, ERRCODE and ERRINFO; every other piece of state keeps its value. -/
def Obligations.ClrErrClearsTheRecord : Prop :=
  ∀ s : State, exec .clrErr s =
    .next { s with cur := none, err := { set := false, code := .none, op := 0#4, value := 0#28 }, dropped := false }

/-- R182, R240: SOFT_RESET gives every piece of core state its reset value, whatever it was, and changes neither `inQ` nor
`outEv`; STATUS then reads 0x30. -/
def Obligations.SoftResetGivesTheResetState : Prop :=
  ∀ s : State, ∃ t, exec .softReset s = .next t ∧
    t = { State.reset with
      inQ := s.inQ, outEv := s.outEv, portLog := s.portLog, host := s.host, agenda := s.agenda, freeCtr := s.freeCtr } ∧
    readReg 0x08 t = 0x30#32 ∧ (∀ k, readReg 0x1C { t with nodeAddr := k } = 0#32)

/-- R240: the reset state, register by register. -/
def Obligations.ResetStateRegisters : Prop :=
  readReg 0x00 State.reset = 0x48544331#32 ∧ readReg 0x08 State.reset = 0x00000030#32 ∧
    (∀ off ∈ [0x04, 0x0C, 0x10, 0x14, 0x18, 0x1C, 0x20, 0x24, 0x28, 0x2C, 0x30, 0x34, 0x38, 0x3C],
      readReg off State.reset = 0#32) ∧
    State.reset.cur = none ∧ State.reset.inBuf = [] ∧ State.reset.outAcc = []

/-- R240, R241: hardware reset at any time gives the core its reset state with no error recorded. A command it aborts has
made some first port events of its full run: those bytes are gone from `inQ` and those events stand in `outEv`. With no
command running it makes none. The full run is the core's step from this state, and its port events are the record it makes from
an empty one (log 14). Which prefix, `k`, is an input of the model (log 7). -/
def Obligations.HardwareReset : Prop :=
  ∀ (s : State) (k : Nat) (rest : List Event), s.agenda = .reset k :: rest →
    ∃ (t : State) (made : List PortEvent), step s = .next t ∧
      (∀ u, coreStep { s with agenda := rest, portLog := [] } = .next u → made = u.portLog.take k) ∧
      (∀ r, coreStep { s with agenda := rest, portLog := [] } = .fault r → made = []) ∧
      t = { State.reset with
        inQ := s.inQ.drop (takenOf made).length, outEv := s.outEv ++ outsOf made, portLog := made, host := s.host,
        agenda := rest, freeCtr := s.freeCtr } ∧
      (s.cur = none → made = [])

/-! ### Tree codec -/

/-- R120: SER_TREE of a tree that ROOT reaches, no deeper than MAX_DEPTH, writes exactly `desc(T)` to OUT and completes;
nothing else changes. It neither pads nor flushes. -/
def Obligations.SerTreeWritesTheDescription : Prop :=
  ∀ (s : State) (T : Tree), Holds s.node s.root T → T.depth ≤ 256 → s.outAcc.length ≤ 7 →
    ∃ t, exec .serTree s = .next t ∧ outBits t = outBits s ++ desc T ∧
      t.outBitpos = s.outBitpos + BitVec.ofNat 32 (desc T).length ∧ t.outAcc.length ≤ 7 ∧
      (∃ bytes : List Byte, t.outEv = s.outEv ++ bytes.map OutEvent.byte) ∧
      t = { s with cur := none, outAcc := t.outAcc, outBitpos := t.outBitpos, outEv := t.outEv, portLog := t.portLog }

/-- R119, R120, R140, R144, R160, R48: the traversals at the first node they cannot go on at, anywhere below ROOT.

First, ROOT itself not valid, or of the reserved kind: SER_TREE, BUILD_TABLE and (before end of message) DEC_SYM record
NODE_UNINIT or NODE_KIND with its index, and nothing else but RESULT and the table changes.

Second, a descent from ROOT: an entry at its end that the node check refuses gives NODE_UNINIT or NODE_KIND with that
entry's index; a descent to depth 257 gives DEPTH with the branch at depth 256, whatever stands below it, so a cycle
reachable from ROOT ends so too. SER_TREE has then written the bits of the nodes before it. BUILD_TABLE leaves the table
invalid, and ENC_STREAM, with both cursors aligned, records the same with OP 0xA and writes nothing (no symbol twice
before that node).

Third, DEC_SYM on a path that IN selects: an entry at its end that the node check refuses, with DEC_NODE unchanged; or a
branch at depth 256, which DEC_NODE then holds. The bits of the path stay consumed. -/
def Obligations.TraversalFaults : Prop :=
  ∀ s : State,
    (∀ c : ErrCode, ((s.node.get s.root.toNat = none ∧ c = .nodeUninit) ∨
        (∃ e, s.node.get s.root.toNat = some e ∧ e.kind = .reserved ∧ c = .nodeKind)) →
      exec .serTree s = .next { s with
        cur := none, err := { set := true, code := c, op := 0x3#4, value := s.root.setWidth 28 } } ∧
      exec .buildTable s = .next { s with
        cur := none, tbl := [], tableValid := false,
        err := { set := true, code := c, op := 0x5#4, value := s.root.setWidth 28 } } ∧
      (s.eomSeen = false → exec .decSym s = .next { s with
        cur := none, result := { valid := false, len := 0#9, sym := 0#9 },
        err := { set := true, code := c, op := 0x9#4, value := s.root.setWidth 28 } })) ∧
    (∀ (way : List (Option Tree)) (n v : Idx) (c : ErrCode), Descends s.node s.root way n → descentFits 0 way →
      ((way.length ≤ 256 ∧ RefusedNode s.node n c ∧ v = n) ∨
        (way.length = 257 ∧ c = .depth ∧ Descends s.node s.root (way.take 256) v)) →
      (s.outAcc.length ≤ 7 → ∃ (t : State) (bytes : List Byte), exec .serTree s = .next t ∧
        outBits t = outBits s ++ descentBits way ∧ t.outEv = s.outEv ++ bytes.map OutEvent.byte ∧
        t.outAcc.length ≤ 7 ∧
        t = { s with
          cur := none, err := { set := true, code := c, op := 0x3#4, value := v.setWidth 28 }, outAcc := t.outAcc,
          outBitpos := s.outBitpos + BitVec.ofNat 32 (descentBits way).length, outEv := t.outEv,
          portLog := t.portLog }) ∧
      ((descentSymbols way).Nodup →
        exec .buildTable s = .next { s with
          cur := none, tbl := [], tableValid := false,
          err := { set := true, code := c, op := 0x5#4, value := v.setWidth 28 } } ∧
        (s.inBuf = [] → s.outAcc = [] → exec .encStream s = .next { s with
          cur := none, tbl := [], tableValid := false,
          err := { set := true, code := c, op := 0xA#4, value := v.setWidth 28 } }))) ∧
    (∀ (path rest : List Bool) (n stop : Idx) (c : ErrCode), nodeOnPath s.node s.root path = some n →
      s.eomSeen = false → pendingBits s = path ++ rest →
      ((path.length ≤ 256 ∧ RefusedNode s.node n c ∧ stop = s.decNode) ∨
        (path.length = 256 ∧ (∃ e, s.node.get n.toNat = some e ∧ e.kind = .branch) ∧ c = .depth ∧ stop = n)) →
      ∃ t, exec .decSym s = .next t ∧ pendingBits t = rest ∧
        t.inBuf.length = bitsLeft s.inBuf.length path.length ∧
        t = { s with
          cur := none, err := { set := true, code := c, op := 0x9#4, value := n.setWidth 28 },
          result := { valid := false, len := 0#9, sym := 0#9 }, decNode := stop, inBuf := t.inBuf,
          inBitpos := s.inBitpos + BitVec.ofNat 32 path.length, inQ := t.inQ, inPhase := t.inPhase,
          portLog := t.portLog })

/-- R121, R122: DES_TREE on the description of a tree within both bounds. It reads exactly those bits, puts the nodes in
pre-order from entry 0, sets NODE_COUNT and ROOT, invalidates the table, clears EOM_SEEN, and changes nothing else. The
rest of the last byte taken from IN stays in `inBuf`. -/
def Obligations.DesTreeLoadsTheTree : Prop :=
  ∀ (s : State) (T : Tree) (rest : List Bool), pendingBits s = desc T ++ rest → T.depth ≤ 256 → T.size ≤ 1024 →
    ∃ t, exec .desTree s = .next t ∧ t.node = layout 0 T ∧ t.nodeCount.toNat = T.size ∧ t.root = 0#10 ∧
      Holds t.node t.root T ∧ pendingBits t = rest ∧ t.inBuf.length = bitsLeft s.inBuf.length (desc T).length ∧
      t.inBitpos = s.inBitpos + BitVec.ofNat 32 (desc T).length ∧
      t = { s with
        cur := none, node := t.node, nodeCount := t.nodeCount, root := t.root, tbl := [], tableValid := false,
        eomSeen := false, inBuf := t.inBuf, inBitpos := t.inBitpos, inQ := t.inQ, inPhase := t.inPhase,
        portLog := t.portLog }

/-- R121, R200: DES_TREE on a description that IN ends inside of records EOS_TREE with OP 4. VALUE is the index of the node
whose bits were being read, which is the number `k` of productions that IN holds whole. Every entry is then invalid,
NODE_COUNT and ROOT are 0, the bits read stay consumed, and nothing is sent. -/
def Obligations.DesTreeTruncated : Prop :=
  ∀ (s : State) (T : Tree) (rest : List Bool), pendingBits s ++ rest = desc T → rest ≠ [] → T.depth ≤ 256 →
    T.size ≤ 1024 →
    ∃ (t : State) (k : Nat), exec .desTree s = .next t ∧ pendingBits t = [] ∧
      t.inBitpos = s.inBitpos + BitVec.ofNat 32 (pendingBits s).length ∧
      ((productions T).take k).flatten.length ≤ (pendingBits s).length ∧
      (pendingBits s).length < ((productions T).take (k + 1)).flatten.length ∧
      t = { s with
        cur := none, err := { set := true, code := .eosTree, op := 0x4#4, value := BitVec.ofNat 28 k }, node := [],
        nodeCount := 0#11, root := 0#10, tbl := [], tableValid := false, eomSeen := false, inBuf := [],
        inBitpos := t.inBitpos, inQ := t.inQ, inPhase := .eos, portLog := t.portLog }

/-- R121, R200: the two bounds of DES_TREE. A description of a tree within the depth bound but with more than 1024 nodes
records CAPACITY with VALUE 0, and exactly the bits of its first 1024 nodes are read. A description that nests deeper
than 256 records DEPTH with the branch at depth 256 as VALUE, where that node is reached before more than 1024 nodes are
read; no bit of the too-deep node is read, so what follows may be anything. After both every entry is invalid and
NODE_COUNT is 0, the bits read stay consumed, and nothing is sent. -/
def Obligations.DesTreeBounds : Prop :=
  ∀ (s : State) (rest : List Bool),
    (∀ T : Tree, pendingBits s = desc T ++ rest → T.depth ≤ 256 → 1024 < T.size →
      ∃ t, exec .desTree s = .next t ∧ pendingBits s = ((productions T).take 1024).flatten ++ pendingBits t ∧
        t.inBuf.length = bitsLeft s.inBuf.length ((productions T).take 1024).flatten.length ∧
        t = { s with
          cur := none, err := { set := true, code := .capacity, op := 0x4#4, value := 0#28 }, node := [],
          nodeCount := 0#11, root := 0#10, tbl := [], tableValid := false, eomSeen := false, inBuf := t.inBuf,
          inBitpos := s.inBitpos + BitVec.ofNat 32 ((productions T).take 1024).flatten.length, inQ := t.inQ,
          inPhase := t.inPhase, portLog := t.portLog }) ∧
    (∀ way : List (Option Tree), pendingBits s = descentBits way ++ rest → way.length = 257 → descentFits 0 way →
      descentNodes way ≤ 1024 →
      ∃ t, exec .desTree s = .next t ∧ pendingBits t = rest ∧
        t.inBuf.length = bitsLeft s.inBuf.length (descentBits way).length ∧
        t = { s with
          cur := none, node := [], nodeCount := 0#11, root := 0#10, tbl := [], tableValid := false, eomSeen := false
          err := { set := true, code := .depth, op := 0x4#4,
                   value := BitVec.ofNat 28 (descentNodes (way.take 256)) }
          inBuf := t.inBuf, inBitpos := s.inBitpos + BitVec.ofNat 32 (descentBits way).length, inQ := t.inQ,
          inPhase := t.inPhase, portLog := t.portLog })

/-- R126: after a DES_TREE that raises nothing, and as long as no later step changes the node store or ROOT, SER_TREE
writes exactly the bits DES_TREE read. -/
def Obligations.SerTreeAfterDesTreeWritesTheBitsRead : Prop :=
  ∀ s t : State, s.err.set = false → exec .desTree s = .next t → t.err.set = false →
    ∃ used : List Bool, pendingBits s = used ++ pendingBits t ∧
      ∀ v : State, v.node = t.node → v.root = t.root → v.outAcc.length ≤ 7 →
        ∃ u, exec .serTree v = .next u ∧ u.err = v.err ∧ outBits u = outBits v ++ used

/-- R122: the BRANCH production makes the next entry a branch whose left subtree is read next and is the entry after it,
and puts both subtrees on the traversal stack, one level deeper. Run as an instruction of its own it is one step of TDES,
at the subtree on top of the stack, or at the root where the stack is empty (log 8). -/
def Obligations.BranchProduction : Prop :=
  ∀ (s : State) (f : DesFrame) (rest : List Bool), s.desStack.headD rootFrame = f → f.depth ≤ 256 →
    s.nodeCount.toNat < 1024 → pendingBits s = true :: rest →
    ∃ t, exec .branch s = .next t ∧ pendingBits t = rest ∧ t.inBuf.length = bitsLeft s.inBuf.length 1 ∧
      t = { s with
        node := (nodesOnEntry f s).put s.nodeCount.toNat
          { kind := .branch, byte := 0#8, left := BitVec.ofNat 10 (s.nodeCount.toNat + 1), right := 0#10 }
        nodeCount := s.nodeCount + 1#11
        desStack := { depth := f.depth + 1, parent := BitVec.ofNat 10 s.nodeCount.toNat, right := false } ::
          { depth := f.depth + 1, parent := BitVec.ofNat 10 s.nodeCount.toNat, right := true } :: s.desStack.tail
        inBuf := t.inBuf, inBitpos := s.inBitpos + 1#32, inQ := t.inQ, inPhase := t.inPhase, portLog := t.portLog }

/-- R123, R124: the leaf productions make the next entry a byte leaf or an end-of-message leaf and take the subtree off
the traversal stack. Run as instructions of their own they are steps of TDES (log 8). -/
def Obligations.LeafProductions : Prop :=
  ∀ (s : State) (f : DesFrame) (rest : List Bool) (v : Byte), s.desStack.headD rootFrame = f → f.depth ≤ 256 →
    s.nodeCount.toNat < 1024 →
    (pendingBits s = false :: true :: (byteBits v ++ rest) →
      ∃ t, exec (.leafByte v) s = .next t ∧ pendingBits t = rest ∧ t.inBuf.length = bitsLeft s.inBuf.length 10 ∧
        t = { s with
          node := (nodesOnEntry f s).put s.nodeCount.toNat { kind := .byte, byte := v, left := 0#10, right := 0#10 }
          nodeCount := s.nodeCount + 1#11
          desStack := s.desStack.tail
          inBuf := t.inBuf, inBitpos := s.inBitpos + 10#32, inQ := t.inQ, inPhase := t.inPhase, portLog := t.portLog }) ∧
    (pendingBits s = false :: false :: rest →
      ∃ t, exec .leafEom s = .next t ∧ pendingBits t = rest ∧ t.inBuf.length = bitsLeft s.inBuf.length 2 ∧
        t = { s with
          node := (nodesOnEntry f s).put s.nodeCount.toNat { kind := .eom, byte := 0#8, left := 0#10, right := 0#10 }
          nodeCount := s.nodeCount + 1#11
          desStack := s.desStack.tail
          inBuf := t.inBuf, inBitpos := s.inBitpos + 2#32, inQ := t.inQ, inPhase := t.inPhase, portLog := t.portLog })

/-- R54, R121: an explicit traversal stack gives the same order of every read, write and check as the recursion. The model's
own steps that read a description production by production (log 8) end in exactly the state that DES_TREE, which reads
it in one step by recursion, ends in: on every IN, with or without an error. -/
def Obligations.ProductionStepsAgreeWithDesTree : Prop :=
  ∀ s : State, s.cur = some 0x00000004#32 → s.desStack = [] → s.agenda = [] →
    ∃ n, Host.Core.run Sys2Proof.core n { desStart s with desStack := [rootFrame] } = exec .desTree s

/-! ### Encoder -/

/-- R140: BUILD_TABLE of a valid tree no deeper than MAX_DEPTH sets TABLE_VALID and gives every symbol with a leaf that
leaf's path, and no other symbol an entry; nothing else changes. -/
def Obligations.BuildTableOfAValidTree : Prop :=
  ∀ (s : State) (T : Tree), Holds s.node s.root T → T.depth ≤ 256 → T.valid = true →
    ∃ t, exec .buildTable s = .next t ∧ t.tableValid = true ∧ (∀ y : Sym, t.tbl.get y.toNat = T.codeword y) ∧
      t = { s with cur := none, tbl := t.tbl, tableValid := true }

/-- R140, R203, R144: BUILD_TABLE of a tree no deeper than MAX_DEPTH that is not valid records TREE_INVALID with OP 5 and
leaves no entry valid and TABLE_VALID 0: VALUE is 0x1FF where only the end-of-message leaf is missing, else the symbol of
the first leaf in pre-order whose symbol an earlier leaf holds. ENC_STREAM of such a tree, with both cursors aligned,
ends the same with OP 0xA: it builds the table before it writes, so it reads and writes nothing (D24). -/
def Obligations.BuildTableOfAnInvalidTree : Prop :=
  ∀ (s : State) (T : Tree), Holds s.node s.root T → T.depth ≤ 256 → T.valid = false →
    ∃ v : BitVec 28,
      exec .buildTable s = .next { s with
        cur := none, tbl := [], tableValid := false, err := { set := true, code := .treeInvalid, op := 0x5#4, value := v } } ∧
      (s.inBuf = [] → s.outAcc = [] → exec .encStream s = .next { s with
        cur := none, tbl := [], tableValid := false,
        err := { set := true, code := .treeInvalid, op := 0xA#4, value := v } }) ∧
      (((T.codewords.map (·.1)).Nodup ∧ T.eomLeaves = 0 ∧ v = 0x1FF#28) ∨
        (∃ (earlier later : List Sym) (y : Sym), T.codewords.map (·.1) = earlier ++ y :: later ∧ earlier.Nodup ∧
          y ∈ earlier ∧ v = y.setWidth 28))

/-- R145: whatever the node store holds, the codewords of a table that BUILD_TABLE built are prefix-free. -/
def Obligations.BuiltTableIsPrefixFree : Prop :=
  ∀ s t : State, exec .buildTable s = .next t → t.tableValid = true →
    ∀ (a b : Nat) (p q : List Bool), a ≠ b → t.tbl.get a = some p → t.tbl.get b = some q → ¬ p <+: q

/-- R141, R142: ENC_SYM and ENC_EOM write their symbol's codeword, first bit first, and complete; nothing but the OUT
cursor changes. -/
def Obligations.EncSymAndEncEomWriteTheCodeword : Prop :=
  ∀ (s : State) (i : Instr) (k : Nat) (cw : List Bool),
    ((∃ b : Byte, i = .encSym b ∧ k = b.toNat) ∨ (i = .encEom ∧ k = 256)) → s.outAcc.length ≤ 7 →
    s.tableValid = true → s.tbl.get k = some cw →
    ∃ t, exec i s = .next t ∧ outBits t = outBits s ++ cw ∧
      t.outAcc.length = (s.outAcc.length + cw.length) % 8 ∧
      (∃ bytes : List Byte, t.outEv = s.outEv ++ bytes.map OutEvent.byte) ∧
      t = { s with
        cur := none, outAcc := t.outAcc, outBitpos := s.outBitpos + BitVec.ofNat 32 cw.length, outEv := t.outEv,
        portLog := t.portLog }

/-- R141, R142: ENC_SYM records NO_TABLE(0) when TABLE_VALID = 0, else LOOKUP(b) when its byte has no entry; ENC_EOM
records NO_TABLE(0) when TABLE_VALID = 0. Both checks come before any bit: nothing else changes. -/
def Obligations.EncSymAndEncEomErrors : Prop :=
  ∀ (s : State) (b : Byte),
    (s.tableValid = false →
      exec (.encSym b) s = .next { s with
        cur := none, err := { set := true, code := .noTable, op := 0x6#4, value := 0#28 } } ∧
      exec .encEom s = .next { s with
        cur := none, err := { set := true, code := .noTable, op := 0x7#4, value := 0#28 } }) ∧
    (s.tableValid = true → s.tbl.get b.toNat = none →
      exec (.encSym b) s = .next { s with
        cur := none, err := { set := true, code := .lookup, op := 0x6#4, value := b.setWidth 28 } })

/-- R143: ENC_PAD writes `(8 - OUT_NBITS) mod 8` zero bits and then sends `Flush`, and OUT is aligned; nothing else
changes. -/
def Obligations.EncPadAlignsAndFlushes : Prop :=
  ∀ s : State, s.outAcc.length ≤ 7 →
    ∃ t, exec .encPad s = .next t ∧ t.outAcc = [] ∧ outBits t = outBits s ++ padding s.outAcc.length ∧
      t.outBitpos = s.outBitpos + BitVec.ofNat 32 (padding s.outAcc.length).length ∧
      t.outEv.getLast? = some .flush ∧ (t.outEv.filter (· = .flush)).length = (s.outEv.filter (· = .flush)).length + 1 ∧
      t = { s with cur := none, outAcc := [], outBitpos := t.outBitpos, outEv := t.outEv, portLog := t.portLog }

/-- R144, R100, R147: ENC_STREAM of the bytes `bs` with a valid tree at ROOT that has a leaf for each of them, both cursors
aligned. OUT receives the description, the codewords in input order, that of end of message and the padding, as whole
bytes, and then one `Flush`; all of IN is read. -/
def Obligations.EncStreamWritesTheCompressedStream : Prop :=
  ∀ (s : State) (T : Tree) (bs : List Byte) (bits : List Bool), s.inBuf = [] → s.outAcc = [] →
    pendingBits s = bytesBits bs → Holds s.node s.root T → T.depth ≤ 256 → T.valid = true →
    streamBits T bs = some bits →
    ∃ (t : State) (sent : List Byte), exec .encStream s = .next t ∧
      t.outEv = s.outEv ++ sent.map OutEvent.byte ++ [.flush] ∧ bytesBits sent = bits ++ padding bits.length ∧
      sent.length = (bits.length + 7) / 8 ∧
      t.outAcc = [] ∧ t.outBitpos = s.outBitpos + BitVec.ofNat 32 (8 * sent.length) ∧ pendingBits t = [] ∧
      t.inBuf = [] ∧ t.inBitpos = s.inBitpos + BitVec.ofNat 32 (8 * bs.length) ∧ t.tableValid = true ∧
      (∀ y : Sym, t.tbl.get y.toNat = T.codeword y) ∧
      t = { s with
        cur := none, tbl := t.tbl, tableValid := true, inBitpos := t.inBitpos, inQ := t.inQ, inPhase := t.inPhase,
        outBitpos := t.outBitpos, outEv := t.outEv, portLog := t.portLog }

/-- R144, R200: ENC_STREAM at a byte that has no leaf records LOOKUP with OP 0xA and that byte. The header and the
codewords of the bytes before it are written and counted, the byte is consumed and counted, TABLE_VALID is 1, and no
`Flush` is sent. -/
def Obligations.EncStreamLookupError : Prop :=
  ∀ (s : State) (T : Tree) (good later : List Byte) (b : Byte) (payload : List Bool), s.inBuf = [] → s.outAcc = [] →
    pendingBits s = bytesBits (good ++ b :: later) → Holds s.node s.root T → T.depth ≤ 256 → T.valid = true →
    codewordsOf T good = some payload → T.codeword (symOfByte b) = none →
    ∃ t, exec .encStream s = .next t ∧ outBits t = outBits s ++ desc T ++ payload ∧
      t.outAcc.length = (desc T ++ payload).length % 8 ∧
      pendingBits t = bytesBits later ∧ (∃ sent : List Byte, t.outEv = s.outEv ++ sent.map OutEvent.byte) ∧
      (∀ y : Sym, t.tbl.get y.toNat = T.codeword y) ∧
      t = { s with
        cur := none, err := { set := true, code := .lookup, op := 0xA#4, value := b.setWidth 28 }, tbl := t.tbl,
        tableValid := true, inBitpos := s.inBitpos + BitVec.ofNat 32 (8 * (good.length + 1)), inQ := t.inQ,
        inPhase := t.inPhase, outAcc := t.outAcc,
        outBitpos := s.outBitpos + BitVec.ofNat 32 (desc T ++ payload).length, outEv := t.outEv, portLog := t.portLog }

/-- R148: the step commands BUILD_TABLE, SER_TREE, ENC_SYM for each byte, ENC_EOM, ENC_PAD send the same OUT events as
ENC_STREAM with those bytes as its input, when both start with OUT aligned and end without error. They read nothing from
IN, whatever it holds, and leave IN_BITPOS unchanged. -/
def Obligations.StepCommandsSendTheSameEvents : Prop :=
  ∀ (s s' t u : State) (bs : List Byte), s.err.set = false → s.inBuf = [] → s.outAcc = [] →
    pendingBits s = bytesBits bs → exec .encStream s = .next t → t.err.set = false →
    s' = { s with inBuf := s'.inBuf, inBitpos := s'.inBitpos, inQ := s'.inQ, inPhase := s'.inPhase } →
    execAll (stepEncode bs) s' = .next u → u.err.set = false →
    u.outEv = t.outEv ∧ u.inBitpos = s'.inBitpos ∧ u.inQ = s'.inQ ∧ u.inBuf = s'.inBuf ∧ u.inPhase = s'.inPhase

/-! ### Decoder -/

/-- R160, R162: DEC_SYM takes the bits of one leaf's path from IN, one per branch, and writes RESULT and DEC_NODE. At a byte
leaf the bits after the path stay pending. At the end-of-message leaf EOM_SEEN is set and the bits left of the current
input byte are dropped and counted; no new byte is taken for that, so a path that ends with its byte drops none. Nothing
else changes. -/
def Obligations.DecSymDecodesOneLeaf : Prop :=
  ∀ (s : State) (T : Tree) (y : Sym) (path rest : List Bool) (k : Nat), Holds s.node s.root T →
    (y, path) ∈ T.codewords → (∀ v, T ≠ .byte v) → path.length ≤ 256 → s.eomSeen = false →
    pendingBits s = path ++ rest → k = (if y = 256#9 then bitsLeft s.inBuf.length path.length else 0) →
    ∃ (t : State) (leaf : Idx), exec .decSym s = .next t ∧ nodeOnPath s.node s.root path = some leaf ∧
      k ≤ rest.length ∧ pendingBits t = rest.drop k ∧
      t.inBuf.length = bitsLeft s.inBuf.length path.length - k ∧
      t = { s with
        cur := none, result := { valid := true, len := BitVec.ofNat 9 path.length, sym := y }, decNode := leaf,
        eomSeen := decide (y = 256#9), inBuf := t.inBuf,
        inBitpos := s.inBitpos + BitVec.ofNat 32 (path.length + k), inQ := t.inQ, inPhase := t.inPhase,
        portLog := t.portLog }

/-- R160: DEC_SYM when IN ends at a branch records EOS_PAYLOAD with that branch, in DEC_NODE too; RESULT is 0 and the bits
read stay consumed. -/
def Obligations.DecSymEndOfStream : Prop :=
  ∀ (s : State) (T : Tree) (y : Sym) (path more : List Bool), Holds s.node s.root T → (y, path) ∈ T.codewords →
    path.length ≤ 256 → s.eomSeen = false → pendingBits s ++ more = path → more ≠ [] →
    ∃ (t : State) (n : Idx), exec .decSym s = .next t ∧ nodeOnPath s.node s.root (pendingBits s) = some n ∧
      t = { s with
        cur := none, err := { set := true, code := .eosPayload, op := 0x9#4, value := n.setWidth 28 },
        result := { valid := false, len := 0#9, sym := 0#9 }, decNode := n, inBuf := [],
        inBitpos := s.inBitpos + BitVec.ofNat 32 (pendingBits s).length, inQ := t.inQ, inPhase := .eos,
        portLog := t.portLog }

/-- R160, R144, R161: the checks that come before anything else. DEC_SYM after end of message records STATE and leaves
RESULT; with a byte leaf at ROOT it records TREE_INVALID(0x400 | ROOT) and reads no bit. A stream command that starts
with IN or OUT not aligned records STATE with its own OP. -/
def Obligations.DecodeAndStreamStartChecks : Prop :=
  ∀ s : State,
    (s.eomSeen = true → exec .decSym s = .next { s with
      cur := none, err := { set := true, code := .state, op := 0x9#4, value := 0#28 } }) ∧
    (∀ v, s.eomSeen = false → Holds s.node s.root (.byte v) → exec .decSym s = .next { s with
      cur := none, result := { valid := false, len := 0#9, sym := 0#9 },
      err := { set := true, code := .treeInvalid, op := 0x9#4, value := 0x400#28 ||| s.root.setWidth 28 } }) ∧
    (s.inBuf ≠ [] ∨ s.outAcc ≠ [] →
      exec .encStream s = .next { s with
        cur := none, err := { set := true, code := .state, op := 0xA#4, value := 0#28 } } ∧
      exec .decStream s = .next { s with
        cur := none, err := { set := true, code := .state, op := 0xB#4, value := 0#28 } })

/-- R161, R167: DEC_STREAM on the compressed stream of the bytes `bs`, both cursors aligned. OUT receives `bs` and one
`Flush`; the tree stands in the store; the padding is dropped unread, whatever its bits, and what follows it stays
pending. -/
def Obligations.DecStreamDecompresses : Prop :=
  ∀ (s : State) (T : Tree) (bs : List Byte) (bits rest cw : List Bool), s.inBuf = [] → s.outAcc = [] →
    T.depth ≤ 256 → T.size ≤ 1024 → T.valid = true → streamBits T bs = some bits → T.codeword 256#9 = some cw →
    pendingBits s = bits ++ rest →
    ∃ (t : State) (leaf : Idx), exec .decStream s = .next t ∧
      t.outEv = s.outEv ++ bs.map OutEvent.byte ++ [.flush] ∧
      pendingBits t = rest.drop (padding bits.length).length ∧
      nodeOnPath (layout 0 T) 0#10 cw = some leaf ∧ t.nodeCount.toNat = T.size ∧
      t = { s with
        cur := none, node := layout 0 T, nodeCount := t.nodeCount, root := 0#10, tbl := [], tableValid := false,
        eomSeen := true, result := { valid := true, len := BitVec.ofNat 9 cw.length, sym := 256#9 }, decNode := leaf,
        inBuf := [],
        inBitpos := s.inBitpos + BitVec.ofNat 32 (bits.length + (padding bits.length).length), inQ := t.inQ,
        inPhase := t.inPhase, outBitpos := s.outBitpos + BitVec.ofNat 32 (8 * bs.length), outEv := t.outEv,
        portLog := t.portLog }

/-- R163: with a valid tree at ROOT that has a leaf for every byte of `S`, ENC_STREAM completes without error and sends
bytes `C`; DEC_STREAM on `C`, from any state with IN and OUT aligned, completes without error, sends `S` byte for byte
and then `Flush`, and consumes all of `C`. -/
def Obligations.StreamRoundTrip : Prop :=
  ∀ (s : State) (T : Tree) (S : List Byte), Holds s.node s.root T → T.valid = true →
    (∀ b ∈ S, (T.codeword (symOfByte b)).isSome = true) → s.inBuf = [] → s.outAcc = [] →
    pendingBits s = bytesBits S →
    ∃ (t : State) (C : List Byte), exec .encStream s = .next t ∧ t.err = s.err ∧
      t.outEv = s.outEv ++ C.map OutEvent.byte ++ [.flush] ∧
      ∀ s' : State, s'.inBuf = [] → s'.outAcc = [] → pendingBits s' = bytesBits C →
        ∃ t', exec .decStream s' = .next t' ∧ t'.err = s'.err ∧
          t'.outEv = s'.outEv ++ S.map OutEvent.byte ++ [.flush] ∧ pendingBits t' = []

/-- R164: DEC_STREAM on the stream of R163 without its last byte records EOS_TREE or EOS_PAYLOAD and never sends
`Flush`. -/
def Obligations.TruncationIsDetected : Prop :=
  ∀ (s t : State) (T : Tree) (S C : List Byte), Holds s.node s.root T → T.valid = true →
    (∀ b ∈ S, (T.codeword (symOfByte b)).isSome = true) → s.inBuf = [] → s.outAcc = [] →
    pendingBits s = bytesBits S → exec .encStream s = .next t →
    t.outEv = s.outEv ++ C.map OutEvent.byte ++ [.flush] →
    ∀ s' : State, s'.inBuf = [] → s'.outAcc = [] → pendingBits s' = bytesBits C.dropLast →
      ∃ t', exec .decStream s' = .next t' ∧ t'.err.set = true ∧ t'.err.op = 0xB#4 ∧
        (t'.err.code = .eosTree ∨ t'.err.code = .eosPayload) ∧
        ∃ sent : List Byte, t'.outEv = s'.outEv ++ sent.map OutEvent.byte

/-- R165: the loops of the stream commands end. DEC_STREAM's loop never uses up its bound, which is one more than the bits
of IN, and ENC_STREAM's does the same under any larger bound: the bounds of the model (log 15) cut nothing off. -/
def Obligations.StreamLoopsEnd : Prop :=
  (∀ (s t : State) (n : Nat), (pendingBits s).length < n → decLoop n s ≠ .ok false t) ∧
    (∀ (s : State) (n : Nat), s.inBuf = [] → s.inQ.length < n → encLoop n s = encLoop (s.inQ.length + 1) s)

/-! ### Frames, and rules of the whole machine -/

/-- The frames, on every operand and state, an error or not: what each command and production may change beside `cur` and
the error record (a production run as an instruction of its own is one step of TDES, the model's choice of log 8). The
writers change the OUT cursor and its port, BUILD_TABLE the table, DEC_SYM the decode registers and
the IN cursor, DES_TREE the tree, the table and the IN cursor. None of them changes DROPPED, NODE_ADDR or TBL_SEL. -/
def Obligations.FramesOfCommands : Prop :=
  ∀ (i : Instr) (s t : State), exec i s = .next t →
    ((i = .serTree ∨ (∃ b, i = .encSym b) ∨ i = .encEom ∨ i = .encPad) →
      t = { s with
        cur := none, err := t.err, outAcc := t.outAcc, outBitpos := t.outBitpos, outEv := t.outEv,
        portLog := t.portLog }) ∧
    (i = .buildTable → t = { s with cur := none, err := t.err, tbl := t.tbl, tableValid := t.tableValid }) ∧
    (i = .decSym → t = { s with
      cur := none, err := t.err, result := t.result, decNode := t.decNode, eomSeen := t.eomSeen, inBuf := t.inBuf,
      inBitpos := t.inBitpos, inQ := t.inQ, inPhase := t.inPhase, portLog := t.portLog }) ∧
    (i = .desTree → t = { s with
      cur := none, err := t.err, node := t.node, nodeCount := t.nodeCount, root := 0#10, tbl := [], tableValid := false,
      eomSeen := false, inBuf := t.inBuf, inBitpos := t.inBitpos, inQ := t.inQ, inPhase := t.inPhase,
      portLog := t.portLog }) ∧
    (i = .encStream → t = { s with
      cur := none, err := t.err, tbl := t.tbl, tableValid := t.tableValid, inBuf := t.inBuf, inBitpos := t.inBitpos,
      inQ := t.inQ, inPhase := t.inPhase, outAcc := t.outAcc, outBitpos := t.outBitpos, outEv := t.outEv,
      portLog := t.portLog }) ∧
    (i = .decStream → t = { s with
      cur := none, err := t.err, node := t.node, nodeCount := t.nodeCount, root := t.root, tbl := t.tbl,
      tableValid := t.tableValid, eomSeen := t.eomSeen, result := t.result, decNode := t.decNode, inBuf := t.inBuf,
      inBitpos := t.inBitpos, inQ := t.inQ, inPhase := t.inPhase, outAcc := t.outAcc, outBitpos := t.outBitpos,
      outEv := t.outEv, portLog := t.portLog }) ∧
    ((i = .branch ∨ (∃ v, i = .leafByte v) ∨ i = .leafEom) → t = { s with
      cur := t.cur, err := t.err, node := t.node, nodeCount := t.nodeCount, desStack := t.desStack, inBuf := t.inBuf,
      inBitpos := t.inBitpos, inQ := t.inQ, inPhase := t.inPhase, portLog := t.portLog })

/-- R62, R75: what an instruction does to the ports. Its port events, in order, are those its record gains; the bytes they
took are the front of `inQ`, the events they sent are added behind `outEv`, and no byte is reordered, dropped or
repeated. -/
def Obligations.PortsConserveBytes : Prop :=
  ∀ (i : Instr) (s t : State), exec i s = .next t →
    ∃ log, t.portLog = s.portLog ++ log ∧ t.outEv = s.outEv ++ outsOf log ∧ s.inQ = takenOf log ++ t.inQ

/-- R203: a raise sends no `Flush`: an instruction that records an error has sent nothing but bytes. -/
def Obligations.ARaiseSendsNoFlush : Prop :=
  ∀ (i : Instr) (s t : State), exec i s = .next t → s.err.set = false → t.err.set = true →
    ∃ sent : List Byte, t.outEv = s.outEv ++ sent.map OutEvent.byte

/-- R200, R203, R208: the error a command records carries that command's OP, 0xA or 0xB for any step of a stream command,
and a code that R200 lets it raise; FORMAT is never raised. -/
def Obligations.ErrorsAreThoseOfTheCommand : Prop :=
  ∀ (i : Instr) (s t : State) (op : BitVec 4), opcode i = some op → StoreInv s → exec i s = .next t →
    s.err.set = false → t.err.set = true → t.err.op = op ∧ op ∈ raisedBy t.err.code

/-- R27, R206: in one step of any agent, a recorded error stays exactly as it is, or is cleared by CLR_ERR (word 1),
SOFT_RESET (word 2) or hardware reset; no second error overwrites it. -/
def Obligations.ErrorStaysUntilAcknowledged : Prop :=
  ∀ s t : State, ErrorInv s → SequencerInv s → step s = .next t → s.err.set = true →
    t.err = s.err ∨
      (t.err = ErrRecord.clear ∧
        (s.cur = some 0x00000001#32 ∨ s.cur = some 0x00000002#32 ∨ ∃ k rest, s.agenda = .reset k :: rest))

/-- R63, R80: once IN has reported `EOS`, no step takes or adds a byte, and IN stays at `EOS`, until SOFT_RESET or hardware
reset. What the environment may do: from reset until the first `PortRead` it presents a new `inQ`; until `EOS` is
reported it delivers bytes behind those of `inQ`; nothing else changes. Presenting or delivering at another time breaks
its duty and has no step (log 5). -/
def Obligations.EndOfStreamIsFinal : Prop :=
  (∀ s t : State, s.inPhase = .eos → step s = .next t →
    (t.inPhase = .eos ∧ t.inQ = s.inQ) ∨ s.cur = some 0x00000002#32 ∨ ∃ k rest, s.agenda = .reset k :: rest) ∧
  ∀ (s : State) (bytes : List Byte) (rest : List Event),
    (s.agenda = .present bytes :: rest →
      (s.inPhase = .fresh → step s = .next { s with agenda := rest, inQ := bytes }) ∧
      (s.inPhase ≠ .fresh → step s = .refused .environmentDuty)) ∧
    (s.agenda = .deliver bytes :: rest →
      (s.inPhase ≠ .eos → step s = .next { s with agenda := rest, inQ := s.inQ ++ bytes }) ∧
      (s.inPhase = .eos → step s = .refused .environmentDuty))

/-- R37, R43, D9: no instruction but SOFT_RESET reads or writes NODE_ADDR or TBL_SEL: with other values in them it does the
same and leaves those values. -/
def Obligations.SelectorsDoNotInfluenceInstructions : Prop :=
  ∀ (i : Instr) (s t : State) (a : Idx) (sel : TblSel), i ≠ .softReset → exec i s = .next t →
    t.nodeAddr = s.nodeAddr ∧ t.tblSel = s.tblSel ∧
      exec i { s with nodeAddr := a, tblSel := sel } = .next { t with nodeAddr := a, tblSel := sel }

/-- R29: in no run is a table built from one tree used with another: every step keeps the table the one that BUILD_TABLE
would build now, while TABLE_VALID = 1. -/
def Obligations.StepKeepsTheTableOfTheTree : Prop :=
  ∀ s t : State, SequencerInv s → TableInv s → step s = .next t → TableInv t

/-- R46, R47, R51, R52, R63: every step keeps the cursors' bounds, IN_BITPOS and OUT_BITPOS congruent to the bits held
modulo 8, also when they wrap, and no byte behind `EOS`. -/
def Obligations.StepKeepsTheCursors : Prop :=
  ∀ s t : State, CursorInv s → step s = .next t → CursorInv t

/-- R39, R40, R45, R29, R142: every step keeps the node store and the code table in canonical form and in range, and the
table empty unless TABLE_VALID. -/
def Obligations.StepKeepsTheStores : Prop :=
  ∀ s t : State, StoreInv s → step s = .next t → StoreInv t

/-- R33, R201: every step keeps ERRCODE and ERRINFO clear while ERR = 0, and with ERR = 1 no command in the sequencer but
CLR_ERR or SOFT_RESET. -/
def Obligations.StepKeepsTheErrorRecord : Prop :=
  ∀ s t : State, ErrorInv s → step s = .next t → ErrorInv t

/-- R50: every step keeps the sequencer idle or on an accepted, well-formed command word, and from such a state no step
faults. -/
def Obligations.StepKeepsTheSequencer : Prop :=
  ∀ s : State, SequencerInv s → (∀ t, step s = .next t → SequencerInv t) ∧ safe (step s) = true

/-- The reset state meets every invariant. -/
def Obligations.ResetMeetsTheInvariants : Prop :=
  CursorInv State.reset ∧ StoreInv State.reset ∧ ErrorInv State.reset ∧ SequencerInv State.reset ∧ TableInv State.reset

/-- R105: the host program's statements, one step each, when the host moves: on its event of the agenda, or by default with
an empty agenda and an idle core (log 11). `wr` and `rd`, here with the core idle, make one access and go on; `bf` and
`bnf` test a host variable; `jmp` goes to its target; and `halt`, which R105 says ends the program, leaves the host at
that statement and the machine as it is (the model's choice, log 12). Nothing else of the host, its program among it, is
changed. To the program's encoding as a list of bus actions (R107, log 23) a `wr` or `rd` adds its access, and no other
statement adds any. -/
def Obligations.HostStatements : Prop :=
  ∀ (s : State) (st : HostStmt) (rest : List Event), s.host.prog[s.host.next]? = some st →
    ((s.agenda = [] ∧ s.cur = none ∧ rest = []) ∨ s.agenda = .host :: rest) →
    (∀ off w, st = .wr off w → s.cur = none → accessAdmitted off 4 = true →
      step s = .next (writeReg off w { s with
        agenda := rest, host := { s.host with next := s.host.next + 1 } })) ∧
    (∀ var off, st = .rd var off → s.cur = none → accessAdmitted off 4 = true →
      ∃ t, step s = .next t ∧ hostVar var t.host = readReg off s ∧
        (∀ other, other ≠ var → hostVar other t.host = hostVar other s.host) ∧
        t = { s with
          agenda := rest
          host := { prog := s.host.prog, next := s.host.next + 1, vars := s.host.vars.put var (readReg off s),
                    data := some (readReg off s) } }) ∧
    (∀ var mask val target, st = .bf var mask val target →
      step s = .next { s with agenda := rest, host := { s.host with
        next := if hostVar var s.host &&& mask = val then target else s.host.next + 1 } }) ∧
    (∀ var mask val target, st = .bnf var mask val target →
      step s = .next { s with agenda := rest, host := { s.host with
        next := if hostVar var s.host &&& mask = val then s.host.next + 1 else target } }) ∧
    (∀ target, st = .jmp target →
      step s = .next { s with agenda := rest, host := { s.host with next := target } }) ∧
    (st = .halt → step s = .next { s with agenda := rest }) ∧
    ∀ (n : Nat) (t : State), step s = .next t → ∃ added : List Access,
      busActions (n + 1) s = added ++ busActions n t ∧ (∀ off w, st = .wr off w → added = [.write off 4 w]) ∧
        (∀ var off, st = .rd var off → added = [.read off 4]) ∧
        ((∀ off w, st ≠ .wr off w) → (∀ var off, st ≠ .rd var off) → added = [])
end

