-- ==== Sys2Proof/Laws/Act.lean ====
section
/-! SUPPORT. How actions compose: one equation per way of building an action, so that no later proof unfolds the monad. -/

namespace Sys2Proof.Machine

variable {α β : Type}

/-- Sequencing runs the second action from where the first one ended, and a raise ends both. -/
@[simp] theorem bind_apply (x : Act α) (f : α → Act β) (s : State) :
    (x >>= f) s = match x s with
      | .ok a t => f a t
      | .error e t => .error e t := by
  show EStateM.bind x f s = _
  unfold EStateM.bind
  cases x s <;> rfl

/-- `bind_apply` for the sequencing that `do` writes between two statements. -/
@[simp] theorem seqRight_apply (x : Act α) (y : Act β) (s : State) :
    (do let _ ← x; y) s = match x s with
      | .ok _ t => y t
      | .error e t => .error e t := bind_apply x (fun _ => y) s

@[simp] theorem pure_apply (a : α) (s : State) : (pure a : Act α) s = .ok a s := rfl

@[simp] theorem update_apply (f : State → State) (s : State) : update f s = .ok () (f s) := rfl

@[simp] theorem raise_apply (c : ErrCode) (v : BitVec 28) (s : State) :
    (raise c v : Act α) s = .error { code := c, value := v } s := rfl

@[simp] theorem withState_apply (f : State → Act α) (s : State) : withState f s = f s s := rfl

/-- A cleanup changes only where a raise ends. -/
@[simp] theorem withCleanup_apply (c : State → State) (x : Act Unit) (s : State) :
    withCleanup c x s = match x s with
      | .ok u t => .ok u t
      | .error e t => .error e (c t) := rfl

@[simp] theorem settle_ok (op : BitVec 4) (u : Unit) (t : State) : settle op (.ok u t) = complete t := rfl

@[simp] theorem settle_error (op : BitVec 4) (e : Err) (t : State) :
    settle op (.error e t) = complete (recordError op e t) := rfl

/-- A command ends in the next state its body gives, completed. -/
theorem runCommand_ok {op : BitVec 4} {body : Act Unit} {s t : State} {u : Unit} (h : body s = .ok u t) :
    runCommand op body s = .next (complete t) := by simp [runCommand, h]

/-- A command whose body raises ends with the error recorded, completed. -/
theorem runCommand_error {op : BitVec 4} {body : Act Unit} {s t : State} {e : Err} (h : body s = .error e t) :
    runCommand op body s = .next (complete (recordError op e t)) := by simp [runCommand, h]

/-- An action followed by another: the state invariant `P` of every end, value or raise. -/
def Keeps (P : State → Prop) (x : Act α) : Prop :=
  ∀ s, P s → match x s with
    | .ok _ t => P t
    | .error _ t => P t

/-- Sequencing keeps what both actions keep. -/
theorem Keeps.bind {P : State → Prop} {x : Act α} {f : α → Act β} (hx : Keeps P x) (hf : ∀ a, Keeps P (f a)) :
    Keeps P (x >>= f) := by
  intro s hs
  have h := hx s hs
  rw [bind_apply]
  cases hxs : x s with
  | ok a t => rw [hxs] at h; exact hf a t h
  | error e t => rw [hxs] at h; exact h

theorem Keeps.pure {P : State → Prop} (a : α) : Keeps P (Pure.pure a : Act α) := fun _ hs => hs

theorem Keeps.raise {P : State → Prop} (c : ErrCode) (v : BitVec 28) : Keeps P (Machine.raise c v : Act α) := fun _ hs => hs

theorem Keeps.update {P : State → Prop} {f : State → State} (hf : ∀ s, P s → P (f s)) : Keeps P (Machine.update f) := hf

/-- A body and its cleanup keep what both keep. -/
theorem Keeps.withCleanup {P : State → Prop} {c : State → State} {x : Act Unit} (hc : ∀ s, P s → P (c s))
    (hx : Keeps P x) : Keeps P (Machine.withCleanup c x) := by
  intro s hs
  have h := hx s hs
  rw [withCleanup_apply]
  cases hxs : x s with
  | ok u t => rw [hxs] at h; exact h
  | error e t => rw [hxs] at h; exact hc t h

end Sys2Proof.Machine
end

