-- ==== Sys2Proof/Laws/Bits.lean ====
section
/-! SUPPORT. A byte and its eight bits, most significant first (20_memory.md rule R64). -/

namespace Sys2Proof

@[simp] theorem length_byteBits (v : Byte) : (byteBits v).length = 8 := rfl

/-- Eight bits spell a byte whose bits are those eight. -/
theorem byteBits_bitsByte {bs : List Bool} (h : bs.length = 8) : byteBits (bitsByte bs) = bs := by
  match bs, h with
  | [b0, b1, b2, b3, b4, b5, b6, b7], _ =>
    revert b0 b1 b2 b3 b4 b5 b6 b7
    decide

/-- A byte is known by its bits. -/
theorem byteBits_injective {v w : Byte} (h : byteBits v = byteBits w) : v = w := by
  apply BitVec.eq_of_getLsbD_eq
  intro i hi
  simp only [byteBits, List.cons.injEq, and_true] at h
  obtain ⟨h7, h6, h5, h4, h3, h2, h1, h0⟩ := h
  match i, hi with
  | 0, _ => exact h0
  | 1, _ => exact h1
  | 2, _ => exact h2
  | 3, _ => exact h3
  | 4, _ => exact h4
  | 5, _ => exact h5
  | 6, _ => exact h6
  | 7, _ => exact h7

/-- The bits of a byte spell that byte. -/
@[simp] theorem bitsByte_byteBits (v : Byte) : bitsByte (byteBits v) = v :=
  byteBits_injective (byteBits_bitsByte (length_byteBits v))

@[simp] theorem bytesBits_nil : bytesBits [] = [] := rfl

@[simp] theorem bytesBits_cons (v : Byte) (vs : List Byte) : bytesBits (v :: vs) = byteBits v ++ bytesBits vs := rfl

@[simp] theorem bytesBits_append (vs ws : List Byte) : bytesBits (vs ++ ws) = bytesBits vs ++ bytesBits ws := by
  simp [bytesBits]

@[simp] theorem length_bytesBits (vs : List Byte) : (bytesBits vs).length = 8 * vs.length := by
  induction vs with
  | nil => rfl
  | cons v vs ih => simp [ih]; omega

/-- The accumulator is linear in the bits that are still to come. -/
theorem bitsNat_acc (acc : Nat) (bs : List Bool) : bitsNat acc bs = acc * 2 ^ bs.length + bitsNat 0 bs := by
  induction bs generalizing acc with
  | nil => simp [bitsNat]
  | cons b r ih =>
    rw [bitsNat, ih, bitsNat, ih (2 * 0 + b.toNat), List.length_cons, Nat.pow_succ]
    ring

/-- A number spelt by `n` bits is below `2 ^ n`. -/
theorem bitsNat_lt (bs : List Bool) : bitsNat 0 bs < 2 ^ bs.length := by
  induction bs with
  | nil => simp [bitsNat]
  | cons b r ih =>
    rw [bitsNat, bitsNat_acc, List.length_cons, Nat.pow_succ]
    have : b.toNat ≤ 1 := by cases b <;> simp
    nlinarith [ih]

end Sys2Proof
end

