-- ==== Sys2Proof/Laws/Cursor.lean ====
section
/-! SUPPORT. What the bit cursors can do: the reader takes the pending bits one by one (20_memory.md rule R65), the writer
appends to the bits of OUT (R67), and neither touches anything else. -/

namespace Sys2Proof.Machine

/-! ### The reader -/

/-- A state that differs from `s` only in the IN cursor, its port and the record of port events. -/
def SameButIn (s t : State) : Prop :=
  t = { s with inBuf := t.inBuf, inBitpos := t.inBitpos, inQ := t.inQ, inPhase := t.inPhase, portLog := t.portLog }

theorem SameButIn.refl (s : State) : SameButIn s s := rfl

theorem SameButIn.trans {s t u : State} (h₁ : SameButIn s t) (h₂ : SameButIn t u) : SameButIn s u := by
  unfold SameButIn at *
  rw [h₂, h₁]

/-- While a bit is pending, `ReadBit` takes it, counts it, and changes nothing but the IN cursor. -/
theorem readBit_pending {s : State} {b : Bool} {rest : List Bool} (h : pendingBits s = b :: rest) :
    ∃ t, readBit s = .ok (some b) t ∧ pendingBits t = rest ∧ t.inBitpos = s.inBitpos + 1#32 ∧ SameButIn s t := by
  cases hb : s.inBuf with
  | cons c r =>
    have hc : c = b ∧ rest = pendingBits { s with inBuf := r, inBitpos := s.inBitpos + 1#32 } := by
      unfold pendingBits at h ⊢
      cases hp : s.inPhase <;> simp_all
    obtain ⟨rfl, hr⟩ := hc
    exact ⟨_, by simp [readBit, hb, takeBit], hr.symm, rfl, rfl⟩
  | nil =>
    cases hp : s.inPhase with
    | eos => simp [pendingBits, hp, hb] at h
    | fresh | flowing =>
      cases hq : s.inQ with
      | nil => simp [pendingBits, hp, hb, hq] at h
      | cons v vs =>
        simp only [pendingBits, hp, hb, hq, bytesBits_cons, byteBits, List.nil_append, List.cons_append,
          List.cons.injEq] at h
        obtain ⟨rfl, rfl⟩ := h
        exact ⟨{ s with
            inBuf := (byteBits v).tail, inBitpos := s.inBitpos + 1#32, inQ := vs, inPhase := .flowing,
            portLog := s.portLog ++ [.took v] },
          by simp only [readBit, hb, portRead, hp, hq, byteBits, takeBit, List.tail_cons],
          by simp [pendingBits, byteBits], rfl, rfl⟩

/-- Reading one bit more. -/
theorem bitsLeft_succ (held n : Nat) : bitsLeft (bitsLeft held 1) n = bitsLeft held (n + 1) := by
  unfold bitsLeft
  split <;> split <;> split <;> omega

@[simp] theorem bitsLeft_zero (held : Nat) : bitsLeft held 0 = held := by simp [bitsLeft]

/-- The bits `ReadBit` leaves in hand. -/
theorem readBit_inBuf {s t : State} {b : Bool} (h : readBit s = .ok (some b) t) :
    t.inBuf.length = bitsLeft s.inBuf.length 1 := by
  unfold readBit at h
  split at h
  · rename_i c r hb
    cases h
    simp [bitsLeft, hb]
  · rename_i hb
    split at h
    · cases h
    · rename_i v u hp
      simp only [byteBits, takeBit] at h
      cases h
      simp [bitsLeft, hb]

/-- With no bit pending, `ReadBit` answers `EOS`, consumes nothing, and the end is final. -/
theorem readBit_eos {s : State} (h : pendingBits s = []) :
    readBit s = .ok none { s with inPhase := .eos } := by
  have hb : s.inBuf = [] := by
    unfold pendingBits at h
    cases hp : s.inPhase <;> simp_all
  cases hp : s.inPhase with
  | eos => simp only [readBit, hb, portRead, hp]; congr 1; cases s; simp_all
  | fresh | flowing =>
    have hq : s.inQ = [] := by
      cases hq : s.inQ with
      | nil => rfl
      | cons v vs => simp [pendingBits, hp, hb, hq, byteBits] at h
    simp [readBit, hb, portRead, hp, hq]

/-- Everything `ReadBit` can do: it never raises. -/
theorem readBit_cases (s : State) :
    (∃ b rest t, pendingBits s = b :: rest ∧ readBit s = .ok (some b) t ∧ pendingBits t = rest ∧
      t.inBitpos = s.inBitpos + 1#32 ∧ SameButIn s t) ∨
    (pendingBits s = [] ∧ readBit s = .ok none { s with inPhase := .eos }) := by
  cases h : pendingBits s with
  | nil => exact .inr ⟨rfl, readBit_eos h⟩
  | cons b rest =>
    obtain ⟨t, h₁, h₂, h₃, h₄⟩ := readBit_pending h
    exact .inl ⟨b, rest, t, rfl, h₁, h₂, h₃, h₄⟩

/-- While `n` bits are pending, `ReadBits(n)` gives the number they spell, and they alone are consumed (R66). -/
theorem readBitsFrom_pending (bs : List Bool) :
    ∀ (acc : Nat) (s : State) (rest : List Bool), pendingBits s = bs ++ rest →
      ∃ t, readBitsFrom bs.length acc s = .ok (some (bitsNat acc bs)) t ∧ pendingBits t = rest ∧
        t.inBitpos = s.inBitpos + BitVec.ofNat 32 bs.length ∧ SameButIn s t := by
  induction bs with
  | nil => intro acc s rest h; exact ⟨s, rfl, h, by simp, .refl s⟩
  | cons b bs ih =>
    intro acc s rest h
    obtain ⟨t, h₁, h₂, h₃, h₄⟩ := readBit_pending (s := s) h
    obtain ⟨u, k₁, k₂, k₃, k₄⟩ := ih (2 * acc + b.toNat) t rest h₂
    refine ⟨u, ?_, k₂, ?_, h₄.trans k₄⟩
    · simp [readBitsFrom, h₁, k₁, bitsNat]
    · rw [k₃, h₃, BitVec.add_assoc]; congr 1
      apply BitVec.eq_of_toNat_eq
      simp [BitVec.toNat_add, Nat.add_comm]

/-! ### The writer -/

/-- A state that differs from `s` only in the OUT cursor, its port and the record of port events. -/
def SameButOut (s t : State) : Prop :=
  t = { s with outAcc := t.outAcc, outBitpos := t.outBitpos, outEv := t.outEv, portLog := t.portLog }

theorem SameButOut.refl (s : State) : SameButOut s s := rfl

theorem SameButOut.trans {s t u : State} (h₁ : SameButOut s t) (h₂ : SameButOut t u) : SameButOut s u := by
  unfold SameButOut at *
  rw [h₂, h₁]

@[simp] theorem outBytes_append (a b : List OutEvent) : outBytes (a ++ b) = outBytes a ++ outBytes b := by
  simp [outBytes]

/-- `WriteBit` appends its bit to the bits of OUT, counts it, and keeps at most seven in hand. -/
theorem writeBit_spec (b : Bool) {s : State} (h : s.outAcc.length ≤ 7) :
    outBits (writeBit b s) = outBits s ++ [b] ∧ (writeBit b s).outAcc.length = (s.outAcc.length + 1) % 8 ∧
      (writeBit b s).outBitpos = s.outBitpos + 1#32 ∧ SameButOut s (writeBit b s) := by
  by_cases h8 : (s.outAcc ++ [b]).length = 8
  · have hw : writeBit b s = portWrite (bitsByte (s.outAcc ++ [b]))
        { s with outAcc := [], outBitpos := s.outBitpos + 1#32 } := by simp only [writeBit, if_pos h8]
    refine ⟨?_, ?_, by rw [hw]; rfl, by rw [hw]; rfl⟩
    · rw [hw]
      simp [outBits, portWrite, outBytes, byteBits_bitsByte h8, ← List.append_assoc]
    · rw [hw]
      simp at h8
      simp [portWrite, h8]
  · have hw : writeBit b s = { s with outAcc := s.outAcc ++ [b], outBitpos := s.outBitpos + 1#32 } := by
      simp only [writeBit, if_neg h8]
    refine ⟨by rw [hw]; simp [outBits, ← List.append_assoc], ?_, by rw [hw], by rw [hw]; rfl⟩
    rw [hw]
    simp at h8 ⊢
    omega

/-- Writing a bit sequence appends it to the bits of OUT. -/
theorem writeSeq_spec (bs : List Bool) :
    ∀ {s : State}, s.outAcc.length ≤ 7 →
      outBits (writeSeq bs s) = outBits s ++ bs ∧
        (writeSeq bs s).outAcc.length = (s.outAcc.length + bs.length) % 8 ∧
        (writeSeq bs s).outBitpos = s.outBitpos + BitVec.ofNat 32 bs.length ∧ SameButOut s (writeSeq bs s) := by
  induction bs with
  | nil => intro s h; exact ⟨by simp [writeSeq], by simp [writeSeq]; omega, by simp [writeSeq], .refl s⟩
  | cons b bs ih =>
    intro s h
    obtain ⟨h₁, h₂, h₃, h₄⟩ := writeBit_spec b h
    obtain ⟨k₁, k₂, k₃, k₄⟩ := ih (s := writeBit b s) (by omega)
    refine ⟨by simp [writeSeq, k₁, h₁], ?_, ?_, h₄.trans k₄⟩
    · simp only [writeSeq, k₂, h₂, List.length_cons]; omega
    · simp only [writeSeq, k₃, h₃, List.length_cons, BitVec.add_assoc]; congr 1
      apply BitVec.eq_of_toNat_eq
      simp [BitVec.toNat_add, Nat.add_comm]

theorem writeSeq_append (as bs : List Bool) (s : State) : writeSeq (as ++ bs) s = writeSeq bs (writeSeq as s) := by
  induction as generalizing s with
  | nil => rfl
  | cons a as ih => simp [writeSeq, ih]

@[simp] theorem writeSeq_nil (s : State) : writeSeq [] s = s := rfl

end Sys2Proof.Machine
end

