-- ==== Sys2Proof/Laws/Memory.lean ====
section
/-! SUPPORT. Storage by key: read after write, and the canonical form, which every operation keeps. -/

namespace Sys2Proof.Machine.Memory

variable {α : Type}

/-- Reading a key after a write: the value written there, what was there elsewhere. -/
@[simp] theorem get_put (m : Memory α) (k k' : Nat) (v : α) :
    (m.put k v).get k' = if k = k' then some v else m.get k' := by
  induction m with
  | nil => simp [put, get]
  | cons e rest ih =>
    obtain ⟨a, x⟩ := e
    unfold put
    split
    · simp only [get]
    · split
      · subst k; simp only [get]; split <;> simp_all
      · simp only [get, ih]; split <;> split <;> simp_all

/-- The form of a list with a first entry: that entry below the bound and below the next key, and the rest in form. -/
theorem wf_cons {cap k : Nat} {v : α} {rest : Memory α} :
    wf cap ((k, v) :: rest) = true ↔
      k < cap ∧ (∀ e ∈ rest.head?, k < e.1) ∧ wf cap rest = true := by
  cases rest with
  | nil => simp [wf]
  | cons e rest' =>
    obtain ⟨k', v'⟩ := e
    simp only [wf, Bool.and_eq_true, decide_eq_true_eq, List.head?_cons, Option.mem_def, Option.some.injEq,
      forall_eq']
    constructor
    · rintro ⟨h, hw⟩
      refine ⟨?_, h, hw⟩
      cases rest' with
      | nil => simp [wf] at hw; omega
      | cons f r =>
        obtain ⟨k'', v''⟩ := f
        have : ∀ (l : Memory α) (j : Nat) (x : α), wf cap ((j, x) :: l) = true → j < cap := by
          intro l
          induction l with
          | nil => intro j x h; simpa [wf] using h
          | cons g l ih =>
            intro j x h
            simp only [wf, Bool.and_eq_true, decide_eq_true_eq] at h
            have := ih _ _ h.2
            omega
        have := this _ _ _ hw
        omega
    · rintro ⟨-, h, hw⟩; exact ⟨h, hw⟩

/-- The first key after a write is the old first key or the key written. -/
theorem head_put {m : Memory α} {k : Nat} {v : α} {e : Nat × α} (h : e ∈ (m.put k v).head?) :
    e.1 = k ∨ ∃ e' ∈ m.head?, e.1 = e'.1 := by
  cases m with
  | nil => simp [put] at h; subst h; exact .inl rfl
  | cons f rest =>
    obtain ⟨a, x⟩ := f
    unfold put at h
    split at h
    · simp at h; subst h; exact .inl rfl
    · split at h
      · simp at h; subst h; exact .inl rfl
      · simp at h; subst h; exact .inr ⟨(a, x), by simp, rfl⟩

/-- A write below the bound keeps the canonical form. -/
theorem wf_put {cap k : Nat} {v : α} {m : Memory α} (hm : wf cap m = true) (hk : k < cap) :
    wf cap (m.put k v) = true := by
  induction m with
  | nil => simpa [put, wf] using hk
  | cons e rest ih =>
    obtain ⟨a, x⟩ := e
    have h := wf_cons.mp hm
    unfold put
    split
    · exact wf_cons.mpr ⟨hk, by simpa using ‹k < a›, hm⟩
    · split
      · subst k; exact wf_cons.mpr ⟨h.1, h.2.1, h.2.2⟩
      · refine wf_cons.mpr ⟨h.1, fun e he => ?_, ih h.2.2⟩
        rcases head_put he with he | ⟨e', he', hee⟩
        · omega
        · rw [hee]; exact h.2.1 e' he'

/-- The empty store is canonical. -/
@[simp] theorem wf_nil (cap : Nat) : wf cap ([] : Memory α) = true := rfl

/-- The empty store lists nothing. -/
@[simp] theorem get_nil (k : Nat) : get ([] : Memory α) k = none := rfl

end Sys2Proof.Machine.Memory
end

