-- ==== Sys2Proof/Laws/Frames.lean ====
section
/-! SUPPORT. What each shared action can change, value or raise: one lemma per action, over every state. -/

namespace Sys2Proof.Machine

variable {α β : Type}

/-- The state an action ends in, with a value or with a raise (R207: what was done before a raise stays). -/
def endState : EStateM.Result Err State α → State
  | .ok _ t => t
  | .error _ t => t

@[simp] theorem endState_ok (a : α) (t : State) : endState (.ok a t : EStateM.Result Err State α) = t := rfl

@[simp] theorem endState_error (e : Err) (t : State) : endState (.error e t : EStateM.Result Err State α) = t := rfl

/-- Every end of the action stands in the relation `R` to the state it started in. -/
def Changes (R : State → State → Prop) (x : Act α) : Prop := ∀ s, R s (endState (x s))

/-- A relation fit to say what may differ: nothing need, and what two steps may change, both together may. -/
structure Frame (R : State → State → Prop) : Prop where
  refl : ∀ s, R s s
  trans : ∀ {s t u}, R s t → R t u → R s u

/-- Sequencing two actions changes no more than both do. -/
theorem Changes.bind {R : State → State → Prop} (hR : Frame R) {x : Act α} {f : α → Act β}
    (hx : Changes R x) (hf : ∀ a, Changes R (f a)) : Changes R (x >>= f) := by
  intro s
  have h := hx s
  rw [bind_apply]
  cases hxs : x s with
  | ok a t => rw [hxs] at h; exact hR.trans h (hf a t)
  | error e t => rw [hxs] at h; exact h

theorem Changes.pure {R : State → State → Prop} (hR : Frame R) (a : α) : Changes R (Pure.pure a : Act α) := hR.refl

theorem Changes.raise {R : State → State → Prop} (hR : Frame R) (c : ErrCode) (v : BitVec 28) :
    Changes R (Machine.raise c v : Act α) := hR.refl

theorem Changes.update {R : State → State → Prop} {f : State → State} (h : ∀ s, R s (f s)) :
    Changes R (Machine.update f) := h

/-- A wider relation allows what a narrower one does. -/
theorem Changes.mono {R S : State → State → Prop} (h : ∀ s t, R s t → S s t) {x : Act α} (hx : Changes R x) :
    Changes S x := fun s => h _ _ (hx s)

/-! ### The relations -/

/-- Nothing but the IN cursor and DEC_NODE differs. -/
def SameButWalk (s t : State) : Prop :=
  t = { s with
    decNode := t.decNode, inBuf := t.inBuf, inBitpos := t.inBitpos, inQ := t.inQ, inPhase := t.inPhase,
    portLog := t.portLog }

/-- Nothing but the valid entries of the code table differs. -/
def SameButTbl (s t : State) : Prop := t = { s with tbl := t.tbl }

/-- Nothing but the node store, NODE_COUNT and the IN cursor differs. -/
def SameButDes (s t : State) : Prop :=
  t = { s with
    node := t.node, nodeCount := t.nodeCount, inBuf := t.inBuf, inBitpos := t.inBitpos, inQ := t.inQ,
    inPhase := t.inPhase, portLog := t.portLog }

theorem SameButWalk.refl (s : State) : SameButWalk s s := rfl

theorem SameButWalk.trans {s t u : State} (h₁ : SameButWalk s t) (h₂ : SameButWalk t u) : SameButWalk s u := by
  unfold SameButWalk at *; rw [h₂, h₁]

theorem SameButTbl.refl (s : State) : SameButTbl s s := rfl

theorem SameButTbl.trans {s t u : State} (h₁ : SameButTbl s t) (h₂ : SameButTbl t u) : SameButTbl s u := by
  unfold SameButTbl at *; rw [h₂, h₁]

theorem SameButDes.refl (s : State) : SameButDes s s := rfl

theorem SameButDes.trans {s t u : State} (h₁ : SameButDes s t) (h₂ : SameButDes t u) : SameButDes s u := by
  unfold SameButDes at *; rw [h₂, h₁]

theorem frameIn : Frame SameButIn := ⟨SameButIn.refl, SameButIn.trans⟩

theorem frameOut : Frame SameButOut := ⟨SameButOut.refl, SameButOut.trans⟩

theorem frameWalk : Frame SameButWalk := ⟨SameButWalk.refl, SameButWalk.trans⟩

theorem frameTbl : Frame SameButTbl := ⟨SameButTbl.refl, SameButTbl.trans⟩

theorem frameDes : Frame SameButDes := ⟨SameButDes.refl, SameButDes.trans⟩

theorem SameButIn.walk {s t : State} (h : SameButIn s t) : SameButWalk s t := by
  unfold SameButIn SameButWalk at *; rw [h]

theorem SameButIn.des {s t : State} (h : SameButIn s t) : SameButDes s t := by
  unfold SameButIn SameButDes at *; rw [h]

/-! ### The cursors -/

/-- `ReadBit` changes the IN cursor only. -/
theorem readBit_changes : Changes SameButIn readBit := by
  intro s
  rcases readBit_cases s with ⟨b, rest, t, -, h, -, -, hs⟩ | ⟨-, h⟩
  · rw [h]; exact hs
  · rw [h]; rfl

/-- `ReadBits` changes the IN cursor only. -/
theorem readBitsFrom_changes (n : Nat) : ∀ acc, Changes SameButIn (readBitsFrom n acc) := by
  induction n with
  | zero => intro acc; exact Changes.pure frameIn _
  | succ n ih =>
    intro acc
    refine Changes.bind frameIn readBit_changes fun r => ?_
    cases r with
    | none => exact Changes.pure frameIn _
    | some b => exact ih _

/-- `WriteBit` changes the OUT cursor and its port only, whatever the accumulator holds. -/
theorem writeBit_sameButOut (b : Bool) (s : State) : SameButOut s (writeBit b s) := by
  unfold writeBit
  split <;> rfl

theorem writeSeq_sameButOut (bs : List Bool) : ∀ s, SameButOut s (writeSeq bs s) := by
  induction bs with
  | nil => exact SameButOut.refl
  | cons b bs ih => intro s; exact (writeBit_sameButOut b s).trans (ih _)

theorem padOut_sameButOut (n : Nat) : ∀ s, SameButOut s (padOut n s) := by
  induction n with
  | zero => exact SameButOut.refl
  | succ n ih =>
    intro s
    unfold padOut
    split
    · exact SameButOut.refl s
    · exact (writeBit_sameButOut false s).trans (ih _)

/-! ### The node store -/

/-- The node check changes nothing. -/
@[simp] theorem endState_visit (n : Idx) (s : State) : endState (visit n s) = s := by
  unfold visit
  cases s.node.get n.toNat with
  | none => rfl
  | some e => dsimp only; cases e.kind <;> rfl

theorem visit_changes {R : State → State → Prop} (hR : Frame R) (n : Idx) : Changes R (visit n) := by
  intro s; rw [endState_visit]; exact hR.refl s

/-- The node check admits a valid entry of a kind the source has, and gives its fields (R119). -/
theorem visit_entry {s : State} {n : Idx} {e : Node} (h : s.node.get n.toNat = some e) :
    visit n s = match e.kind with
      | .reserved => .error { code := .nodeKind, value := n.setWidth 28 } s
      | .branch => .ok (.branch e.left e.right) s
      | .byte => .ok (.byte e.byte) s
      | .eom => .ok .eom s := by
  unfold visit; rw [h]; dsimp only; cases e.kind <;> rfl

/-- The node check refuses an entry that is not valid (R119). -/
theorem visit_none {s : State} {n : Idx} (h : s.node.get n.toNat = none) :
    visit n s = .error { code := .nodeUninit, value := n.setWidth 28 } s := by
  unfold visit; rw [h]; rfl

/-- Allocation takes the next entry while the store has room (R121). -/
theorem allocNode_room {s : State} (h : s.nodeCount.toNat < 1024) :
    allocNode s = .ok (BitVec.ofNat 10 s.nodeCount.toNat) { s with nodeCount := s.nodeCount + 1#11 } := by
  have hne : ¬ s.nodeCount = 1024#11 := by intro h'; rw [h'] at h; simp at h
  unfold allocNode
  rw [if_neg hne]
  congr 1

theorem allocNode_full {s : State} (h : s.nodeCount = 1024#11) :
    allocNode s = .error { code := .capacity, value := 0#28 } s := by
  unfold allocNode; rw [if_pos h]; rfl

theorem allocNode_changes : Changes SameButDes allocNode := by
  intro s
  unfold allocNode
  split <;> rfl

theorem setRight_sameButDes (i : Idx) (s : State) : SameButDes s (setRight i s) := by
  unfold setRight
  split <;> rfl

/-! ### The traversals -/

/-- SER_TREE's traversal changes the OUT cursor and its port only. -/
theorem serNode_changes (levels : Nat) : ∀ n p, Changes SameButOut (serNode levels n p) := by
  induction levels with
  | zero => intro n p; exact Changes.raise frameOut _ _
  | succ levels ih =>
    intro n p
    have hw : ∀ f : State → State, (∀ s, SameButOut s (f s)) → Changes SameButOut (update f) := fun f => Changes.update
    refine Changes.bind frameOut (visit_changes frameOut n) fun v => ?_
    cases v with
    | branch l r =>
      exact Changes.bind frameOut (hw _ (writeBit_sameButOut _)) fun _ =>
        Changes.bind frameOut (ih l n) fun _ => ih r n
    | byte b =>
      exact Changes.bind frameOut (hw _ (writeBit_sameButOut _)) fun _ =>
        Changes.bind frameOut (hw _ (writeBit_sameButOut _)) fun _ => hw _ (writeSeq_sameButOut _)
    | eom =>
      exact Changes.bind frameOut (hw _ (writeBit_sameButOut _)) fun _ => hw _ (writeBit_sameButOut _)

/-- BUILD_TABLE's traversal changes the table's entries only. -/
theorem tblNode_changes (levels : Nat) : ∀ n p path, Changes SameButTbl (tblNode levels n p path) := by
  have hleaf : ∀ sym path, Changes SameButTbl (tblLeaf sym path) := by
    intro sym path s
    unfold tblLeaf
    split <;> rfl
  induction levels with
  | zero => intro n p path; exact Changes.raise frameTbl _ _
  | succ levels ih =>
    intro n p path
    refine Changes.bind frameTbl (visit_changes frameTbl n) fun v => ?_
    cases v with
    | branch l r => exact Changes.bind frameTbl (ih l n _) fun _ => ih r n _
    | byte b => exact hleaf _ _
    | eom => exact hleaf _ _

/-- Reading a production changes the IN cursor only. -/
theorem readProduction_changes (i : Idx) : Changes SameButIn (readProduction i) := by
  have hbit : Changes SameButIn (treeBit i) :=
    Changes.bind frameIn readBit_changes fun r => by
      cases r with
      | none => exact Changes.raise frameIn _ _
      | some b => exact Changes.pure frameIn _
  refine Changes.bind frameIn hbit fun t => ?_
  cases t with
  | true => exact Changes.pure frameIn _
  | false =>
    refine Changes.bind frameIn hbit fun t2 => ?_
    cases t2 with
    | false => exact Changes.pure frameIn _
    | true =>
      refine Changes.bind frameIn (readBitsFrom_changes 8 0) fun r => ?_
      cases r with
      | none => exact Changes.raise frameIn _ _
      | some v => exact Changes.pure frameIn _

/-- DES_TREE's traversal changes the node store, NODE_COUNT and the IN cursor only. -/
theorem desNode_changes (levels : Nat) : ∀ p, Changes SameButDes (desNode levels p) := by
  induction levels with
  | zero => intro p; exact Changes.raise frameDes _ _
  | succ levels ih =>
    intro p
    refine Changes.bind frameDes allocNode_changes fun i => ?_
    refine Changes.bind frameDes ((readProduction_changes i).mono fun _ _ => SameButIn.des) fun prod => ?_
    refine Changes.bind frameDes (Changes.update fun _ => rfl) fun _ => ?_
    cases prod with
    | branch =>
      exact Changes.bind frameDes (ih i) fun _ =>
        Changes.bind frameDes (Changes.update (setRight_sameButDes i)) fun _ => ih i
    | leafByte v => exact Changes.pure frameDes _
    | leafEom => exact Changes.pure frameDes _

/-- The decode walk changes DEC_NODE and the IN cursor only. -/
theorem walk_changes (levels : Nat) : ∀ d n v, Changes SameButWalk (walk levels d n v) := by
  induction levels with
  | zero =>
    intro d n v
    cases v with
    | branch l r => exact fun s => rfl
    | byte b => exact Changes.pure frameWalk _
    | eom => exact Changes.pure frameWalk _
  | succ levels ih =>
    intro d n v
    cases v with
    | byte b => exact Changes.pure frameWalk _
    | eom => exact Changes.pure frameWalk _
    | branch l r =>
      refine Changes.bind frameWalk (readBit_changes.mono fun _ _ => SameButIn.walk) fun b => ?_
      cases b with
      | none => exact fun s => rfl
      | some b => exact Changes.bind frameWalk (visit_changes frameWalk _) fun v' => ih _ _ _

/-- ENC_SYM's and ENC_EOM's body changes the OUT cursor and its port only. -/
theorem encSymBody_changes (sym : Sym) : Changes SameButOut (encSymBody sym) := by
  intro s
  unfold encSymBody
  split
  · rfl
  · split
    · rfl
    · exact writeSeq_sameButOut _ s

end Sys2Proof.Machine
end

