-- ==== Sys2Proof/Laws/Bodies.lean ====
section
/-! SUPPORT. What the loops and the decode walk can change, and that every operation on the node store and the code table
keeps their canonical form. -/

namespace Sys2Proof.Machine

variable {α : Type}

/-- Choosing an action by the state changes no more than the action chosen does. -/
theorem Changes.withState {R : State → State → Prop} {f : State → Act α} (h : ∀ s, Changes R (f s)) :
    Changes R (Machine.withState f) := fun s => h s s

/-! ### The decode walk and the loops -/

/-- Nothing but what DEC_SYM writes differs: RESULT, DEC_NODE, EOM_SEEN and the IN cursor. -/
def SameButDec (s t : State) : Prop :=
  t = { s with
    result := t.result, decNode := t.decNode, eomSeen := t.eomSeen, inBuf := t.inBuf, inBitpos := t.inBitpos,
    inQ := t.inQ, inPhase := t.inPhase, portLog := t.portLog }

theorem SameButDec.refl (s : State) : SameButDec s s := rfl

theorem SameButDec.trans {s t u : State} (h₁ : SameButDec s t) (h₂ : SameButDec t u) : SameButDec s u := by
  unfold SameButDec at *; rw [h₂, h₁]

theorem frameDec : Frame SameButDec := ⟨SameButDec.refl, SameButDec.trans⟩

theorem SameButWalk.dec {s t : State} (h : SameButWalk s t) : SameButDec s t := by
  unfold SameButWalk SameButDec at *; rw [h]

/-- Nothing but both cursors and their ports differs. -/
def SameButPorts (s t : State) : Prop :=
  t = { s with
    inBuf := t.inBuf, inBitpos := t.inBitpos, inQ := t.inQ, inPhase := t.inPhase, outAcc := t.outAcc,
    outBitpos := t.outBitpos, outEv := t.outEv, portLog := t.portLog }

theorem SameButPorts.refl (s : State) : SameButPorts s s := rfl

theorem SameButPorts.trans {s t u : State} (h₁ : SameButPorts s t) (h₂ : SameButPorts t u) : SameButPorts s u := by
  unfold SameButPorts at *; rw [h₂, h₁]

theorem framePorts : Frame SameButPorts := ⟨SameButPorts.refl, SameButPorts.trans⟩

theorem SameButIn.ports {s t : State} (h : SameButIn s t) : SameButPorts s t := by
  unfold SameButIn SameButPorts at *; rw [h]

theorem SameButOut.ports {s t : State} (h : SameButOut s t) : SameButPorts s t := by
  unfold SameButOut SameButPorts at *; rw [h]

theorem arrive_sameButDec (n : Idx) (d : Nat) (sym : Sym) (s : State) : SameButDec s (arrive n d sym s) := by
  unfold arrive
  split <;> rfl

/-- A whole decode walk changes RESULT, DEC_NODE, EOM_SEEN and the IN cursor only. -/
theorem decWalk_changes : Changes SameButDec decWalk := by
  refine Changes.bind frameDec (Changes.withState fun s => ?_) fun _ => ?_
  · split
    · exact Changes.raise frameDec _ _
    · exact Changes.pure frameDec _
  refine Changes.bind frameDec (Changes.update fun _ => rfl) fun _ => ?_
  refine Changes.bind frameDec (Changes.withState fun s => Changes.pure frameDec _) fun root => ?_
  refine Changes.bind frameDec (visit_changes frameDec root) fun v => ?_
  have tail : ∀ v, Changes SameButDec (do
      let (n, d, leaf) ← walk Config.maxDepth 0 root v
      match leaf with
      | .byte b => do
        update (arrive n d (symOfByte b))
        pure (symOfByte b)
      | _ => do
        update (arrive n d Config.eom)
        pure Config.eom : Act Sym) := by
    intro v
    refine Changes.bind frameDec ((walk_changes _ _ _ _).mono fun _ _ => SameButWalk.dec) fun r => ?_
    obtain ⟨n, d, leaf⟩ := r
    cases leaf <;>
      exact Changes.bind frameDec (Changes.update (arrive_sameButDec _ _ _)) fun _ => Changes.pure frameDec _
  cases v with
  | byte b => exact Changes.raise frameDec _ _
  | eom => exact tail .eom
  | branch l r => exact tail (.branch l r)

/-- ENC_STREAM's input loop changes both cursors only. -/
theorem encLoop_changes (fuel : Nat) : Changes SameButPorts (encLoop fuel) := by
  induction fuel with
  | zero => exact Changes.pure framePorts _
  | succ fuel ih =>
    refine Changes.bind framePorts (readBit_changes.mono fun _ _ => SameButIn.ports) fun b0 => ?_
    cases b0 with
    | none => exact Changes.pure framePorts _
    | some b0 =>
      refine Changes.bind framePorts ((readBitsFrom_changes 7 0).mono fun _ _ => SameButIn.ports) fun r => ?_
      cases r with
      | none => exact Changes.pure framePorts _
      | some r =>
        exact Changes.bind framePorts ((encSymBody_changes _).mono fun _ _ => SameButOut.ports) fun _ => ih

/-- DEC_STREAM's loop changes what the decode walk and the OUT cursor change. -/
theorem decLoop_changes (fuel : Nat) {R : State → State → Prop} (hR : Frame R) (hd : ∀ s t, SameButDec s t → R s t)
    (ho : ∀ s t, SameButOut s t → R s t) : Changes R (decLoop fuel) := by
  induction fuel with
  | zero => exact Changes.pure hR _
  | succ fuel ih =>
    refine Changes.bind hR (decWalk_changes.mono hd) fun sym => ?_
    split
    · exact Changes.pure hR _
    · exact Changes.bind hR (Changes.update fun s => ho _ _ (writeSeq_sameButOut _ s)) fun _ => ih

/-! ### The canonical form -/

/-- An index of ten bits is below the capacity of the node store (R40). -/
theorem idx_lt (i : Idx) : i.toNat < Config.nodeCap := i.isLt

theorem setNode_wf {s : State} (i : Idx) (n : Node) (h : Memory.wf Config.nodeCap s.node = true) :
    Memory.wf Config.nodeCap (setNode i n s).node = true := Memory.wf_put h (idx_lt i)

theorem setRight_wf {s : State} (i : Idx) (h : Memory.wf Config.nodeCap s.node = true) :
    Memory.wf Config.nodeCap (setRight i s).node = true := by
  unfold setRight
  split
  · exact setNode_wf _ _ h
  · exact h

theorem invalidateNodes_wf (s : State) : Memory.wf Config.nodeCap (invalidateNodes s).node = true := rfl

theorem invalidateTable_wf (s : State) : Memory.wf Config.nsym (invalidateTable s).tbl = true := rfl

theorem setCodeword_wf {s : State} {sym : Sym} (path : List Bool) (hs : sym.toNat < Config.nsym)
    (h : Memory.wf Config.nsym s.tbl = true) : Memory.wf Config.nsym (setCodeword sym path s).tbl = true :=
  Memory.wf_put h hs

/-- The symbol of a byte has an entry in the code table. -/
theorem symOfByte_lt (b : Byte) : (symOfByte b).toNat < Config.nsym := by
  have : (symOfByte b).toNat = b.toNat := by
    unfold symOfByte
    rw [BitVec.toNat_setWidth]
    exact Nat.mod_eq_of_lt (by omega)
  have := b.isLt
  show _ < 257
  omega

/-- After reset both stores are canonical. -/
theorem reset_wf :
    Memory.wf Config.nodeCap State.reset.node = true ∧ Memory.wf Config.nsym State.reset.tbl = true := ⟨rfl, rfl⟩

/-! ### The node word -/

/-- A KIND is known by its two bits (R40). -/
@[simp] theorem kindOfBits_kindBits (k : Kind) : kindOfBits (kindBits k) = k := by cases k <;> rfl

@[simp] theorem kindBits_kindOfBits (b : BitVec 2) : kindBits (kindOfBits b) = b := by
  revert b; decide

end Sys2Proof.Machine
end

