-- ==== Sys2Proof/Laws/Step.lean ====
section
/-! SUPPORT. How an instruction and a step end: `exec` always answers a next state, and which agent a step moves. -/

namespace Sys2Proof.Machine

/-- No instruction faults or is refused: every one ends in a next state, an error being a recorded one (R203). -/
theorem exec_next (i : Instr) (s : State) : ∃ t, exec i s = .next t := by
  cases i <;> exact ⟨_, rfl⟩

/-- With an empty agenda a busy core runs. -/
theorem step_busy {s : State} {w : Word} (ha : s.agenda = []) (hc : s.cur = some w) : step s = coreStep s := by
  simp [step, agentStep, ha, defaultStep, busy, hc]

/-- With an empty agenda and an idle core the host's program goes on. -/
theorem step_idle {s : State} (ha : s.agenda = []) (hc : s.cur = none) : step s = hostStep s := by
  simp [step, agentStep, ha, defaultStep, busy, hc]

/-- The agenda's first event is the step. -/
theorem step_event {s : State} {e : Event} {rest : List Event} (ha : s.agenda = e :: rest) :
    step s = eventStep e { s with agenda := rest } := by
  simp [step, agentStep, ha]

/-- An idle core waits (R242). -/
theorem coreStep_idle {s : State} (hc : s.cur = none) : coreStep s = .next s := by
  simp [coreStep, hc]

/-- With no description being read the core runs the command its word spells (R201). -/
theorem coreStep_command {s : State} {w : Word} {i : Instr} (hc : s.cur = some w) (hd : s.desStack = [])
    (hw : decodeWord w = .ok i) : coreStep s = exec i s := by
  simp [coreStep, hc, hd, hw]

/-- With a description being read the core runs its next production (R54). -/
theorem coreStep_production {s : State} {w : Word} (hc : s.cur = some w) (hd : s.desStack ≠ []) :
    coreStep s = productionStep s := by
  simp [coreStep, hc, hd]

/-- A host write while the core is busy is dropped (R202). -/
theorem busWrite_busy {s : State} (off : Nat) (w : Word) (h : busy s = true) : busWrite off w s = drop s := by
  simp [busWrite, h]

/-- A host write while the core is idle applies the register's rule (R61). -/
theorem busWrite_idle {s : State} (off : Nat) (w : Word) (h : busy s = false) :
    busWrite off w s = writeReg off w s := by
  simp [busWrite, h]

/-- A host read while the core is idle gives the register and changes nothing (R61). -/
theorem busRead_idle {s : State} (off : Nat) (h : busy s = false) : busRead off s = (readReg off s, s) := by
  simp [busRead, h]

/-- An access R61 admits is never refused. -/
theorem accessRefusal_admitted {off width : Nat} (h : accessAdmitted off width = true) :
    accessRefusal off width = none := by
  simp only [accessAdmitted, Bool.and_eq_true, decide_eq_true_eq] at h
  obtain ⟨⟨rfl, h4⟩, hw⟩ := h
  simp [accessRefusal, h4, Nat.not_le.mpr hw]

end Sys2Proof.Machine
end

