-- ==== Sys2Proof/Laws/HostProgram.lean ====
section
/-! SUPPORT. How the encoding of a host program grows with its run (30_encoding.md rule R107). -/

namespace Sys2Proof.Machine

variable {s t : State}

/-- A step puts its own action, if it makes one, before those of the run that follows. -/
theorem busActions_next (n : Nat) (h : step s = .next t) :
    busActions (n + 1) s = (nextAction s).toList ++ busActions n t := by
  simp only [busActions, h]

/-- On the host's event of the agenda the action is that of the host's statement. -/
theorem nextAction_host {rest : List Event} (ha : s.agenda = .host :: rest) :
    nextAction s = (s.host.prog[s.host.next]?).bind busAction := by
  simp [nextAction, ha]

/-- By default it is so too while the core is idle. -/
theorem nextAction_default (ha : s.agenda = []) (hc : s.cur = none) :
    nextAction s = (s.host.prog[s.host.next]?).bind busAction := by
  simp [nextAction, ha, busy, hc]

/-- While the core runs a command the host makes no action. -/
theorem nextAction_busy (ha : s.agenda = []) (hc : s.cur ≠ none) : nextAction s = none := by
  cases h : s.cur with
  | none => exact absurd h hc
  | some w => simp [nextAction, ha, busy, h]

/-- A program that has ended makes no action any more (R105). -/
theorem busActions_ended (n : Nat) (ha : s.agenda = []) (he : runEnded s = true) : busActions n s = [] := by
  have hc : s.cur = none := by
    cases h : s.cur with
    | none => rfl
    | some w => simp [runEnded, busy, h] at he
  have hh : hostHalted s = true := by simp only [runEnded, Bool.and_eq_true] at he; exact he.1
  have hb : busy s = false := by simp [busy, hc]
  have hs : step s = .next s ∧ nextAction s = none := by
    rw [nextAction_default ha hc]
    unfold hostHalted at hh
    simp only [step, agentStep, ha, defaultStep, hb, hostStep, Bool.false_eq_true, if_false]
    split at hh
    · rename_i hp; rw [hp]; exact ⟨rfl, rfl⟩
    · rename_i hp; rw [hp]; exact ⟨rfl, rfl⟩
    · cases hh
  induction n with
  | zero => rfl
  | succ n ih => rw [busActions_next n hs.1, hs.2, ih]; rfl

end Sys2Proof.Machine
end

