-- ==== Sys2Proof/Laws/PerInstr.lean ====
section
/-! SUPPORT. Statements made for every instruction, one lemma per constructor. -/

namespace Sys2Proof.Laws.OpField

open Sys2Proof

/-- The encoding of a command is a well-formed word whose OP field is the command's opcode (30_encoding.md rules R90 to
R92); a production of the tree description has no opcode and is encoded as bits, at most ten (R96, R97). -/
def Statement (i : Instr) : Prop :=
  match opcode i, encode i with
  | some op, .word w => cmdWellFormed w = true ∧ w.extractLsb' 0 4 = op
  | none, .bits bs => 1 ≤ bs.length ∧ bs.length ≤ 10
  | some _, .bits _ => False
  | none, .word _ => False

theorem nop : Statement .nop := by constructor <;> decide
theorem clrErr : Statement .clrErr := by constructor <;> decide
theorem softReset : Statement .softReset := by constructor <;> decide
theorem serTree : Statement .serTree := by constructor <;> decide
theorem desTree : Statement .desTree := by constructor <;> decide
theorem buildTable : Statement .buildTable := by constructor <;> decide
theorem encSym (arg : Byte) : Statement (.encSym arg) := by
  have h : (0#16 ++ arg ++ 0x06#8 : Word).toNat = 2 ^ 8 * arg.toNat + 6 := by
    rw [BitVec.toNat_append, BitVec.toNat_append, Nat.shiftLeft_eq, Nat.shiftLeft_eq, Nat.or_comm,
      ← Nat.shiftLeft_eq, Nat.or_comm, ← Nat.shiftLeft_add_eq_or_of_lt (by decide)]
    simp [Nat.shiftLeft_eq]
    omega
  have e (k n : Nat) : ((0#16 ++ arg ++ 0x06#8 : Word).extractLsb' k n) =
      BitVec.ofNat n ((2 ^ 8 * arg.toNat + 6) / 2 ^ k) := by
    apply BitVec.eq_of_toNat_eq
    simp only [BitVec.extractLsb'_toNat, h, BitVec.toNat_ofNat, Nat.shiftRight_eq_div_pow]
  have hb : arg.toNat < 256 := arg.isLt
  constructor
  · show cmdWellFormed (0#16 ++ arg ++ 0x06#8) = true
    have h4 : ((0#16 ++ arg ++ 0x06#8 : Word).extractLsb' 4 4) = 0#4 := by
      rw [e]; apply BitVec.eq_of_toNat_eq; simp only [BitVec.toNat_ofNat]; omega
    have h16 : ((0#16 ++ arg ++ 0x06#8 : Word).extractLsb' 16 16) = 0#16 := by
      rw [e]; apply BitVec.eq_of_toNat_eq; simp only [BitVec.toNat_ofNat]; omega
    have h0 : ((0#16 ++ arg ++ 0x06#8 : Word).extractLsb' 0 4) = 0x6#4 := by
      rw [e]; apply BitVec.eq_of_toNat_eq; simp only [BitVec.toNat_ofNat]; omega
    simp [cmdWellFormed, h4, h16, h0]
  · rw [e]; apply BitVec.eq_of_toNat_eq; simp only [BitVec.toNat_ofNat]; omega
theorem encEom : Statement .encEom := by constructor <;> decide
theorem encPad : Statement .encPad := by constructor <;> decide
theorem decSym : Statement .decSym := by constructor <;> decide
theorem encStream : Statement .encStream := by constructor <;> decide
theorem decStream : Statement .decStream := by constructor <;> decide
theorem branch : Statement .branch := by constructor <;> decide
theorem leafByte (v : Byte) : Statement (.leafByte v) := by constructor <;> exact Nat.le_of_ble_eq_true rfl
theorem leafEom : Statement .leafEom := by constructor <;> decide

end Sys2Proof.Laws.OpField
end

