-- ==== Sys2Proof/Laws/State.lean ====
section
/-! SUPPORT. Each named update of the state, field by field: what it sets and what it leaves. -/

namespace Sys2Proof.Machine

variable (s : State)

@[simp] theorem complete_cur : (complete s).cur = none := rfl
@[simp] theorem complete_err : (complete s).err = s.err := rfl
@[simp] theorem complete_dropped : (complete s).dropped = s.dropped := rfl
@[simp] theorem complete_eomSeen : (complete s).eomSeen = s.eomSeen := rfl
@[simp] theorem complete_tableValid : (complete s).tableValid = s.tableValid := rfl
@[simp] theorem complete_result : (complete s).result = s.result := rfl
@[simp] theorem complete_root : (complete s).root = s.root := rfl
@[simp] theorem complete_nodeAddr : (complete s).nodeAddr = s.nodeAddr := rfl
@[simp] theorem complete_nodeCount : (complete s).nodeCount = s.nodeCount := rfl
@[simp] theorem complete_node : (complete s).node = s.node := rfl
@[simp] theorem complete_tblSel : (complete s).tblSel = s.tblSel := rfl
@[simp] theorem complete_tbl : (complete s).tbl = s.tbl := rfl
@[simp] theorem complete_decNode : (complete s).decNode = s.decNode := rfl
@[simp] theorem complete_inBuf : (complete s).inBuf = s.inBuf := rfl
@[simp] theorem complete_inBitpos : (complete s).inBitpos = s.inBitpos := rfl
@[simp] theorem complete_outAcc : (complete s).outAcc = s.outAcc := rfl
@[simp] theorem complete_outBitpos : (complete s).outBitpos = s.outBitpos := rfl
@[simp] theorem complete_desStack : (complete s).desStack = s.desStack := rfl
@[simp] theorem complete_inQ : (complete s).inQ = s.inQ := rfl
@[simp] theorem complete_inPhase : (complete s).inPhase = s.inPhase := rfl
@[simp] theorem complete_outEv : (complete s).outEv = s.outEv := rfl
@[simp] theorem complete_portLog : (complete s).portLog = s.portLog := rfl
@[simp] theorem complete_host : (complete s).host = s.host := rfl
@[simp] theorem complete_agenda : (complete s).agenda = s.agenda := rfl
@[simp] theorem complete_freeCtr : (complete s).freeCtr = s.freeCtr := rfl

@[simp] theorem recordError_cur (op : BitVec 4) (e : Err) : (recordError op e s).cur = s.cur := rfl
@[simp] theorem recordError_err (op : BitVec 4) (e : Err) : (recordError op e s).err = { set := true, code := e.code, op := op, value := e.value } := rfl
@[simp] theorem recordError_dropped (op : BitVec 4) (e : Err) : (recordError op e s).dropped = s.dropped := rfl
@[simp] theorem recordError_eomSeen (op : BitVec 4) (e : Err) : (recordError op e s).eomSeen = s.eomSeen := rfl
@[simp] theorem recordError_tableValid (op : BitVec 4) (e : Err) : (recordError op e s).tableValid = s.tableValid := rfl
@[simp] theorem recordError_result (op : BitVec 4) (e : Err) : (recordError op e s).result = s.result := rfl
@[simp] theorem recordError_root (op : BitVec 4) (e : Err) : (recordError op e s).root = s.root := rfl
@[simp] theorem recordError_nodeAddr (op : BitVec 4) (e : Err) : (recordError op e s).nodeAddr = s.nodeAddr := rfl
@[simp] theorem recordError_nodeCount (op : BitVec 4) (e : Err) : (recordError op e s).nodeCount = s.nodeCount := rfl
@[simp] theorem recordError_node (op : BitVec 4) (e : Err) : (recordError op e s).node = s.node := rfl
@[simp] theorem recordError_tblSel (op : BitVec 4) (e : Err) : (recordError op e s).tblSel = s.tblSel := rfl
@[simp] theorem recordError_tbl (op : BitVec 4) (e : Err) : (recordError op e s).tbl = s.tbl := rfl
@[simp] theorem recordError_decNode (op : BitVec 4) (e : Err) : (recordError op e s).decNode = s.decNode := rfl
@[simp] theorem recordError_inBuf (op : BitVec 4) (e : Err) : (recordError op e s).inBuf = s.inBuf := rfl
@[simp] theorem recordError_inBitpos (op : BitVec 4) (e : Err) : (recordError op e s).inBitpos = s.inBitpos := rfl
@[simp] theorem recordError_outAcc (op : BitVec 4) (e : Err) : (recordError op e s).outAcc = s.outAcc := rfl
@[simp] theorem recordError_outBitpos (op : BitVec 4) (e : Err) : (recordError op e s).outBitpos = s.outBitpos := rfl
@[simp] theorem recordError_desStack (op : BitVec 4) (e : Err) : (recordError op e s).desStack = s.desStack := rfl
@[simp] theorem recordError_inQ (op : BitVec 4) (e : Err) : (recordError op e s).inQ = s.inQ := rfl
@[simp] theorem recordError_inPhase (op : BitVec 4) (e : Err) : (recordError op e s).inPhase = s.inPhase := rfl
@[simp] theorem recordError_outEv (op : BitVec 4) (e : Err) : (recordError op e s).outEv = s.outEv := rfl
@[simp] theorem recordError_portLog (op : BitVec 4) (e : Err) : (recordError op e s).portLog = s.portLog := rfl
@[simp] theorem recordError_host (op : BitVec 4) (e : Err) : (recordError op e s).host = s.host := rfl
@[simp] theorem recordError_agenda (op : BitVec 4) (e : Err) : (recordError op e s).agenda = s.agenda := rfl
@[simp] theorem recordError_freeCtr (op : BitVec 4) (e : Err) : (recordError op e s).freeCtr = s.freeCtr := rfl

@[simp] theorem clearError_cur : (clearError s).cur = s.cur := rfl
@[simp] theorem clearError_err : (clearError s).err = ErrRecord.clear := rfl
@[simp] theorem clearError_dropped : (clearError s).dropped = false := rfl
@[simp] theorem clearError_eomSeen : (clearError s).eomSeen = s.eomSeen := rfl
@[simp] theorem clearError_tableValid : (clearError s).tableValid = s.tableValid := rfl
@[simp] theorem clearError_result : (clearError s).result = s.result := rfl
@[simp] theorem clearError_root : (clearError s).root = s.root := rfl
@[simp] theorem clearError_nodeAddr : (clearError s).nodeAddr = s.nodeAddr := rfl
@[simp] theorem clearError_nodeCount : (clearError s).nodeCount = s.nodeCount := rfl
@[simp] theorem clearError_node : (clearError s).node = s.node := rfl
@[simp] theorem clearError_tblSel : (clearError s).tblSel = s.tblSel := rfl
@[simp] theorem clearError_tbl : (clearError s).tbl = s.tbl := rfl
@[simp] theorem clearError_decNode : (clearError s).decNode = s.decNode := rfl
@[simp] theorem clearError_inBuf : (clearError s).inBuf = s.inBuf := rfl
@[simp] theorem clearError_inBitpos : (clearError s).inBitpos = s.inBitpos := rfl
@[simp] theorem clearError_outAcc : (clearError s).outAcc = s.outAcc := rfl
@[simp] theorem clearError_outBitpos : (clearError s).outBitpos = s.outBitpos := rfl
@[simp] theorem clearError_desStack : (clearError s).desStack = s.desStack := rfl
@[simp] theorem clearError_inQ : (clearError s).inQ = s.inQ := rfl
@[simp] theorem clearError_inPhase : (clearError s).inPhase = s.inPhase := rfl
@[simp] theorem clearError_outEv : (clearError s).outEv = s.outEv := rfl
@[simp] theorem clearError_portLog : (clearError s).portLog = s.portLog := rfl
@[simp] theorem clearError_host : (clearError s).host = s.host := rfl
@[simp] theorem clearError_agenda : (clearError s).agenda = s.agenda := rfl
@[simp] theorem clearError_freeCtr : (clearError s).freeCtr = s.freeCtr := rfl

@[simp] theorem portWrite_cur (v : Byte) : (portWrite v s).cur = s.cur := rfl
@[simp] theorem portWrite_err (v : Byte) : (portWrite v s).err = s.err := rfl
@[simp] theorem portWrite_dropped (v : Byte) : (portWrite v s).dropped = s.dropped := rfl
@[simp] theorem portWrite_eomSeen (v : Byte) : (portWrite v s).eomSeen = s.eomSeen := rfl
@[simp] theorem portWrite_tableValid (v : Byte) : (portWrite v s).tableValid = s.tableValid := rfl
@[simp] theorem portWrite_result (v : Byte) : (portWrite v s).result = s.result := rfl
@[simp] theorem portWrite_root (v : Byte) : (portWrite v s).root = s.root := rfl
@[simp] theorem portWrite_nodeAddr (v : Byte) : (portWrite v s).nodeAddr = s.nodeAddr := rfl
@[simp] theorem portWrite_nodeCount (v : Byte) : (portWrite v s).nodeCount = s.nodeCount := rfl
@[simp] theorem portWrite_node (v : Byte) : (portWrite v s).node = s.node := rfl
@[simp] theorem portWrite_tblSel (v : Byte) : (portWrite v s).tblSel = s.tblSel := rfl
@[simp] theorem portWrite_tbl (v : Byte) : (portWrite v s).tbl = s.tbl := rfl
@[simp] theorem portWrite_decNode (v : Byte) : (portWrite v s).decNode = s.decNode := rfl
@[simp] theorem portWrite_inBuf (v : Byte) : (portWrite v s).inBuf = s.inBuf := rfl
@[simp] theorem portWrite_inBitpos (v : Byte) : (portWrite v s).inBitpos = s.inBitpos := rfl
@[simp] theorem portWrite_outAcc (v : Byte) : (portWrite v s).outAcc = s.outAcc := rfl
@[simp] theorem portWrite_outBitpos (v : Byte) : (portWrite v s).outBitpos = s.outBitpos := rfl
@[simp] theorem portWrite_desStack (v : Byte) : (portWrite v s).desStack = s.desStack := rfl
@[simp] theorem portWrite_inQ (v : Byte) : (portWrite v s).inQ = s.inQ := rfl
@[simp] theorem portWrite_inPhase (v : Byte) : (portWrite v s).inPhase = s.inPhase := rfl
@[simp] theorem portWrite_outEv (v : Byte) : (portWrite v s).outEv = s.outEv ++ [.byte v] := rfl
@[simp] theorem portWrite_portLog (v : Byte) : (portWrite v s).portLog = s.portLog ++ [.sent v] := rfl
@[simp] theorem portWrite_host (v : Byte) : (portWrite v s).host = s.host := rfl
@[simp] theorem portWrite_agenda (v : Byte) : (portWrite v s).agenda = s.agenda := rfl
@[simp] theorem portWrite_freeCtr (v : Byte) : (portWrite v s).freeCtr = s.freeCtr := rfl

@[simp] theorem flush_cur : (flush s).cur = s.cur := rfl
@[simp] theorem flush_err : (flush s).err = s.err := rfl
@[simp] theorem flush_dropped : (flush s).dropped = s.dropped := rfl
@[simp] theorem flush_eomSeen : (flush s).eomSeen = s.eomSeen := rfl
@[simp] theorem flush_tableValid : (flush s).tableValid = s.tableValid := rfl
@[simp] theorem flush_result : (flush s).result = s.result := rfl
@[simp] theorem flush_root : (flush s).root = s.root := rfl
@[simp] theorem flush_nodeAddr : (flush s).nodeAddr = s.nodeAddr := rfl
@[simp] theorem flush_nodeCount : (flush s).nodeCount = s.nodeCount := rfl
@[simp] theorem flush_node : (flush s).node = s.node := rfl
@[simp] theorem flush_tblSel : (flush s).tblSel = s.tblSel := rfl
@[simp] theorem flush_tbl : (flush s).tbl = s.tbl := rfl
@[simp] theorem flush_decNode : (flush s).decNode = s.decNode := rfl
@[simp] theorem flush_inBuf : (flush s).inBuf = s.inBuf := rfl
@[simp] theorem flush_inBitpos : (flush s).inBitpos = s.inBitpos := rfl
@[simp] theorem flush_outAcc : (flush s).outAcc = s.outAcc := rfl
@[simp] theorem flush_outBitpos : (flush s).outBitpos = s.outBitpos := rfl
@[simp] theorem flush_desStack : (flush s).desStack = s.desStack := rfl
@[simp] theorem flush_inQ : (flush s).inQ = s.inQ := rfl
@[simp] theorem flush_inPhase : (flush s).inPhase = s.inPhase := rfl
@[simp] theorem flush_outEv : (flush s).outEv = s.outEv ++ [.flush] := rfl
@[simp] theorem flush_portLog : (flush s).portLog = s.portLog ++ [.flushed] := rfl
@[simp] theorem flush_host : (flush s).host = s.host := rfl
@[simp] theorem flush_agenda : (flush s).agenda = s.agenda := rfl
@[simp] theorem flush_freeCtr : (flush s).freeCtr = s.freeCtr := rfl

@[simp] theorem invalidateTable_cur : (invalidateTable s).cur = s.cur := rfl
@[simp] theorem invalidateTable_err : (invalidateTable s).err = s.err := rfl
@[simp] theorem invalidateTable_dropped : (invalidateTable s).dropped = s.dropped := rfl
@[simp] theorem invalidateTable_eomSeen : (invalidateTable s).eomSeen = s.eomSeen := rfl
@[simp] theorem invalidateTable_tableValid : (invalidateTable s).tableValid = false := rfl
@[simp] theorem invalidateTable_result : (invalidateTable s).result = s.result := rfl
@[simp] theorem invalidateTable_root : (invalidateTable s).root = s.root := rfl
@[simp] theorem invalidateTable_nodeAddr : (invalidateTable s).nodeAddr = s.nodeAddr := rfl
@[simp] theorem invalidateTable_nodeCount : (invalidateTable s).nodeCount = s.nodeCount := rfl
@[simp] theorem invalidateTable_node : (invalidateTable s).node = s.node := rfl
@[simp] theorem invalidateTable_tblSel : (invalidateTable s).tblSel = s.tblSel := rfl
@[simp] theorem invalidateTable_tbl : (invalidateTable s).tbl = [] := rfl
@[simp] theorem invalidateTable_decNode : (invalidateTable s).decNode = s.decNode := rfl
@[simp] theorem invalidateTable_inBuf : (invalidateTable s).inBuf = s.inBuf := rfl
@[simp] theorem invalidateTable_inBitpos : (invalidateTable s).inBitpos = s.inBitpos := rfl
@[simp] theorem invalidateTable_outAcc : (invalidateTable s).outAcc = s.outAcc := rfl
@[simp] theorem invalidateTable_outBitpos : (invalidateTable s).outBitpos = s.outBitpos := rfl
@[simp] theorem invalidateTable_desStack : (invalidateTable s).desStack = s.desStack := rfl
@[simp] theorem invalidateTable_inQ : (invalidateTable s).inQ = s.inQ := rfl
@[simp] theorem invalidateTable_inPhase : (invalidateTable s).inPhase = s.inPhase := rfl
@[simp] theorem invalidateTable_outEv : (invalidateTable s).outEv = s.outEv := rfl
@[simp] theorem invalidateTable_portLog : (invalidateTable s).portLog = s.portLog := rfl
@[simp] theorem invalidateTable_host : (invalidateTable s).host = s.host := rfl
@[simp] theorem invalidateTable_agenda : (invalidateTable s).agenda = s.agenda := rfl
@[simp] theorem invalidateTable_freeCtr : (invalidateTable s).freeCtr = s.freeCtr := rfl

@[simp] theorem invalidateNodes_cur : (invalidateNodes s).cur = s.cur := rfl
@[simp] theorem invalidateNodes_err : (invalidateNodes s).err = s.err := rfl
@[simp] theorem invalidateNodes_dropped : (invalidateNodes s).dropped = s.dropped := rfl
@[simp] theorem invalidateNodes_eomSeen : (invalidateNodes s).eomSeen = s.eomSeen := rfl
@[simp] theorem invalidateNodes_tableValid : (invalidateNodes s).tableValid = s.tableValid := rfl
@[simp] theorem invalidateNodes_result : (invalidateNodes s).result = s.result := rfl
@[simp] theorem invalidateNodes_root : (invalidateNodes s).root = s.root := rfl
@[simp] theorem invalidateNodes_nodeAddr : (invalidateNodes s).nodeAddr = s.nodeAddr := rfl
@[simp] theorem invalidateNodes_nodeCount : (invalidateNodes s).nodeCount = s.nodeCount := rfl
@[simp] theorem invalidateNodes_node : (invalidateNodes s).node = [] := rfl
@[simp] theorem invalidateNodes_tblSel : (invalidateNodes s).tblSel = s.tblSel := rfl
@[simp] theorem invalidateNodes_tbl : (invalidateNodes s).tbl = s.tbl := rfl
@[simp] theorem invalidateNodes_decNode : (invalidateNodes s).decNode = s.decNode := rfl
@[simp] theorem invalidateNodes_inBuf : (invalidateNodes s).inBuf = s.inBuf := rfl
@[simp] theorem invalidateNodes_inBitpos : (invalidateNodes s).inBitpos = s.inBitpos := rfl
@[simp] theorem invalidateNodes_outAcc : (invalidateNodes s).outAcc = s.outAcc := rfl
@[simp] theorem invalidateNodes_outBitpos : (invalidateNodes s).outBitpos = s.outBitpos := rfl
@[simp] theorem invalidateNodes_desStack : (invalidateNodes s).desStack = s.desStack := rfl
@[simp] theorem invalidateNodes_inQ : (invalidateNodes s).inQ = s.inQ := rfl
@[simp] theorem invalidateNodes_inPhase : (invalidateNodes s).inPhase = s.inPhase := rfl
@[simp] theorem invalidateNodes_outEv : (invalidateNodes s).outEv = s.outEv := rfl
@[simp] theorem invalidateNodes_portLog : (invalidateNodes s).portLog = s.portLog := rfl
@[simp] theorem invalidateNodes_host : (invalidateNodes s).host = s.host := rfl
@[simp] theorem invalidateNodes_agenda : (invalidateNodes s).agenda = s.agenda := rfl
@[simp] theorem invalidateNodes_freeCtr : (invalidateNodes s).freeCtr = s.freeCtr := rfl

@[simp] theorem setNode_cur (i : Idx) (n : Node) : (setNode i n s).cur = s.cur := rfl
@[simp] theorem setNode_err (i : Idx) (n : Node) : (setNode i n s).err = s.err := rfl
@[simp] theorem setNode_dropped (i : Idx) (n : Node) : (setNode i n s).dropped = s.dropped := rfl
@[simp] theorem setNode_eomSeen (i : Idx) (n : Node) : (setNode i n s).eomSeen = s.eomSeen := rfl
@[simp] theorem setNode_tableValid (i : Idx) (n : Node) : (setNode i n s).tableValid = s.tableValid := rfl
@[simp] theorem setNode_result (i : Idx) (n : Node) : (setNode i n s).result = s.result := rfl
@[simp] theorem setNode_root (i : Idx) (n : Node) : (setNode i n s).root = s.root := rfl
@[simp] theorem setNode_nodeAddr (i : Idx) (n : Node) : (setNode i n s).nodeAddr = s.nodeAddr := rfl
@[simp] theorem setNode_nodeCount (i : Idx) (n : Node) : (setNode i n s).nodeCount = s.nodeCount := rfl
@[simp] theorem setNode_node (i : Idx) (n : Node) : (setNode i n s).node = s.node.put i.toNat n := rfl
@[simp] theorem setNode_tblSel (i : Idx) (n : Node) : (setNode i n s).tblSel = s.tblSel := rfl
@[simp] theorem setNode_tbl (i : Idx) (n : Node) : (setNode i n s).tbl = s.tbl := rfl
@[simp] theorem setNode_decNode (i : Idx) (n : Node) : (setNode i n s).decNode = s.decNode := rfl
@[simp] theorem setNode_inBuf (i : Idx) (n : Node) : (setNode i n s).inBuf = s.inBuf := rfl
@[simp] theorem setNode_inBitpos (i : Idx) (n : Node) : (setNode i n s).inBitpos = s.inBitpos := rfl
@[simp] theorem setNode_outAcc (i : Idx) (n : Node) : (setNode i n s).outAcc = s.outAcc := rfl
@[simp] theorem setNode_outBitpos (i : Idx) (n : Node) : (setNode i n s).outBitpos = s.outBitpos := rfl
@[simp] theorem setNode_desStack (i : Idx) (n : Node) : (setNode i n s).desStack = s.desStack := rfl
@[simp] theorem setNode_inQ (i : Idx) (n : Node) : (setNode i n s).inQ = s.inQ := rfl
@[simp] theorem setNode_inPhase (i : Idx) (n : Node) : (setNode i n s).inPhase = s.inPhase := rfl
@[simp] theorem setNode_outEv (i : Idx) (n : Node) : (setNode i n s).outEv = s.outEv := rfl
@[simp] theorem setNode_portLog (i : Idx) (n : Node) : (setNode i n s).portLog = s.portLog := rfl
@[simp] theorem setNode_host (i : Idx) (n : Node) : (setNode i n s).host = s.host := rfl
@[simp] theorem setNode_agenda (i : Idx) (n : Node) : (setNode i n s).agenda = s.agenda := rfl
@[simp] theorem setNode_freeCtr (i : Idx) (n : Node) : (setNode i n s).freeCtr = s.freeCtr := rfl

@[simp] theorem setCodeword_cur (y : Sym) (p : List Bool) : (setCodeword y p s).cur = s.cur := rfl
@[simp] theorem setCodeword_err (y : Sym) (p : List Bool) : (setCodeword y p s).err = s.err := rfl
@[simp] theorem setCodeword_dropped (y : Sym) (p : List Bool) : (setCodeword y p s).dropped = s.dropped := rfl
@[simp] theorem setCodeword_eomSeen (y : Sym) (p : List Bool) : (setCodeword y p s).eomSeen = s.eomSeen := rfl
@[simp] theorem setCodeword_tableValid (y : Sym) (p : List Bool) : (setCodeword y p s).tableValid = s.tableValid := rfl
@[simp] theorem setCodeword_result (y : Sym) (p : List Bool) : (setCodeword y p s).result = s.result := rfl
@[simp] theorem setCodeword_root (y : Sym) (p : List Bool) : (setCodeword y p s).root = s.root := rfl
@[simp] theorem setCodeword_nodeAddr (y : Sym) (p : List Bool) : (setCodeword y p s).nodeAddr = s.nodeAddr := rfl
@[simp] theorem setCodeword_nodeCount (y : Sym) (p : List Bool) : (setCodeword y p s).nodeCount = s.nodeCount := rfl
@[simp] theorem setCodeword_node (y : Sym) (p : List Bool) : (setCodeword y p s).node = s.node := rfl
@[simp] theorem setCodeword_tblSel (y : Sym) (p : List Bool) : (setCodeword y p s).tblSel = s.tblSel := rfl
@[simp] theorem setCodeword_tbl (y : Sym) (p : List Bool) : (setCodeword y p s).tbl = s.tbl.put y.toNat p := rfl
@[simp] theorem setCodeword_decNode (y : Sym) (p : List Bool) : (setCodeword y p s).decNode = s.decNode := rfl
@[simp] theorem setCodeword_inBuf (y : Sym) (p : List Bool) : (setCodeword y p s).inBuf = s.inBuf := rfl
@[simp] theorem setCodeword_inBitpos (y : Sym) (p : List Bool) : (setCodeword y p s).inBitpos = s.inBitpos := rfl
@[simp] theorem setCodeword_outAcc (y : Sym) (p : List Bool) : (setCodeword y p s).outAcc = s.outAcc := rfl
@[simp] theorem setCodeword_outBitpos (y : Sym) (p : List Bool) : (setCodeword y p s).outBitpos = s.outBitpos := rfl
@[simp] theorem setCodeword_desStack (y : Sym) (p : List Bool) : (setCodeword y p s).desStack = s.desStack := rfl
@[simp] theorem setCodeword_inQ (y : Sym) (p : List Bool) : (setCodeword y p s).inQ = s.inQ := rfl
@[simp] theorem setCodeword_inPhase (y : Sym) (p : List Bool) : (setCodeword y p s).inPhase = s.inPhase := rfl
@[simp] theorem setCodeword_outEv (y : Sym) (p : List Bool) : (setCodeword y p s).outEv = s.outEv := rfl
@[simp] theorem setCodeword_portLog (y : Sym) (p : List Bool) : (setCodeword y p s).portLog = s.portLog := rfl
@[simp] theorem setCodeword_host (y : Sym) (p : List Bool) : (setCodeword y p s).host = s.host := rfl
@[simp] theorem setCodeword_agenda (y : Sym) (p : List Bool) : (setCodeword y p s).agenda = s.agenda := rfl
@[simp] theorem setCodeword_freeCtr (y : Sym) (p : List Bool) : (setCodeword y p s).freeCtr = s.freeCtr := rfl

@[simp] theorem setDecNode_cur (n : Idx) : (setDecNode n s).cur = s.cur := rfl
@[simp] theorem setDecNode_err (n : Idx) : (setDecNode n s).err = s.err := rfl
@[simp] theorem setDecNode_dropped (n : Idx) : (setDecNode n s).dropped = s.dropped := rfl
@[simp] theorem setDecNode_eomSeen (n : Idx) : (setDecNode n s).eomSeen = s.eomSeen := rfl
@[simp] theorem setDecNode_tableValid (n : Idx) : (setDecNode n s).tableValid = s.tableValid := rfl
@[simp] theorem setDecNode_result (n : Idx) : (setDecNode n s).result = s.result := rfl
@[simp] theorem setDecNode_root (n : Idx) : (setDecNode n s).root = s.root := rfl
@[simp] theorem setDecNode_nodeAddr (n : Idx) : (setDecNode n s).nodeAddr = s.nodeAddr := rfl
@[simp] theorem setDecNode_nodeCount (n : Idx) : (setDecNode n s).nodeCount = s.nodeCount := rfl
@[simp] theorem setDecNode_node (n : Idx) : (setDecNode n s).node = s.node := rfl
@[simp] theorem setDecNode_tblSel (n : Idx) : (setDecNode n s).tblSel = s.tblSel := rfl
@[simp] theorem setDecNode_tbl (n : Idx) : (setDecNode n s).tbl = s.tbl := rfl
@[simp] theorem setDecNode_decNode (n : Idx) : (setDecNode n s).decNode = n := rfl
@[simp] theorem setDecNode_inBuf (n : Idx) : (setDecNode n s).inBuf = s.inBuf := rfl
@[simp] theorem setDecNode_inBitpos (n : Idx) : (setDecNode n s).inBitpos = s.inBitpos := rfl
@[simp] theorem setDecNode_outAcc (n : Idx) : (setDecNode n s).outAcc = s.outAcc := rfl
@[simp] theorem setDecNode_outBitpos (n : Idx) : (setDecNode n s).outBitpos = s.outBitpos := rfl
@[simp] theorem setDecNode_desStack (n : Idx) : (setDecNode n s).desStack = s.desStack := rfl
@[simp] theorem setDecNode_inQ (n : Idx) : (setDecNode n s).inQ = s.inQ := rfl
@[simp] theorem setDecNode_inPhase (n : Idx) : (setDecNode n s).inPhase = s.inPhase := rfl
@[simp] theorem setDecNode_outEv (n : Idx) : (setDecNode n s).outEv = s.outEv := rfl
@[simp] theorem setDecNode_portLog (n : Idx) : (setDecNode n s).portLog = s.portLog := rfl
@[simp] theorem setDecNode_host (n : Idx) : (setDecNode n s).host = s.host := rfl
@[simp] theorem setDecNode_agenda (n : Idx) : (setDecNode n s).agenda = s.agenda := rfl
@[simp] theorem setDecNode_freeCtr (n : Idx) : (setDecNode n s).freeCtr = s.freeCtr := rfl

@[simp] theorem discardInput_cur : (discardInput s).cur = s.cur := rfl
@[simp] theorem discardInput_err : (discardInput s).err = s.err := rfl
@[simp] theorem discardInput_dropped : (discardInput s).dropped = s.dropped := rfl
@[simp] theorem discardInput_eomSeen : (discardInput s).eomSeen = s.eomSeen := rfl
@[simp] theorem discardInput_tableValid : (discardInput s).tableValid = s.tableValid := rfl
@[simp] theorem discardInput_result : (discardInput s).result = s.result := rfl
@[simp] theorem discardInput_root : (discardInput s).root = s.root := rfl
@[simp] theorem discardInput_nodeAddr : (discardInput s).nodeAddr = s.nodeAddr := rfl
@[simp] theorem discardInput_nodeCount : (discardInput s).nodeCount = s.nodeCount := rfl
@[simp] theorem discardInput_node : (discardInput s).node = s.node := rfl
@[simp] theorem discardInput_tblSel : (discardInput s).tblSel = s.tblSel := rfl
@[simp] theorem discardInput_tbl : (discardInput s).tbl = s.tbl := rfl
@[simp] theorem discardInput_decNode : (discardInput s).decNode = s.decNode := rfl
@[simp] theorem discardInput_inBuf : (discardInput s).inBuf = [] := rfl
@[simp] theorem discardInput_inBitpos : (discardInput s).inBitpos = s.inBitpos + BitVec.ofNat 32 s.inBuf.length := rfl
@[simp] theorem discardInput_outAcc : (discardInput s).outAcc = s.outAcc := rfl
@[simp] theorem discardInput_outBitpos : (discardInput s).outBitpos = s.outBitpos := rfl
@[simp] theorem discardInput_desStack : (discardInput s).desStack = s.desStack := rfl
@[simp] theorem discardInput_inQ : (discardInput s).inQ = s.inQ := rfl
@[simp] theorem discardInput_inPhase : (discardInput s).inPhase = s.inPhase := rfl
@[simp] theorem discardInput_outEv : (discardInput s).outEv = s.outEv := rfl
@[simp] theorem discardInput_portLog : (discardInput s).portLog = s.portLog := rfl
@[simp] theorem discardInput_host : (discardInput s).host = s.host := rfl
@[simp] theorem discardInput_agenda : (discardInput s).agenda = s.agenda := rfl
@[simp] theorem discardInput_freeCtr : (discardInput s).freeCtr = s.freeCtr := rfl

@[simp] theorem desStart_cur : (desStart s).cur = s.cur := rfl
@[simp] theorem desStart_err : (desStart s).err = s.err := rfl
@[simp] theorem desStart_dropped : (desStart s).dropped = s.dropped := rfl
@[simp] theorem desStart_eomSeen : (desStart s).eomSeen = false := rfl
@[simp] theorem desStart_tableValid : (desStart s).tableValid = false := rfl
@[simp] theorem desStart_result : (desStart s).result = s.result := rfl
@[simp] theorem desStart_root : (desStart s).root = 0#10 := rfl
@[simp] theorem desStart_nodeAddr : (desStart s).nodeAddr = s.nodeAddr := rfl
@[simp] theorem desStart_nodeCount : (desStart s).nodeCount = 0#11 := rfl
@[simp] theorem desStart_node : (desStart s).node = [] := rfl
@[simp] theorem desStart_tblSel : (desStart s).tblSel = s.tblSel := rfl
@[simp] theorem desStart_tbl : (desStart s).tbl = [] := rfl
@[simp] theorem desStart_decNode : (desStart s).decNode = s.decNode := rfl
@[simp] theorem desStart_inBuf : (desStart s).inBuf = s.inBuf := rfl
@[simp] theorem desStart_inBitpos : (desStart s).inBitpos = s.inBitpos := rfl
@[simp] theorem desStart_outAcc : (desStart s).outAcc = s.outAcc := rfl
@[simp] theorem desStart_outBitpos : (desStart s).outBitpos = s.outBitpos := rfl
@[simp] theorem desStart_desStack : (desStart s).desStack = s.desStack := rfl
@[simp] theorem desStart_inQ : (desStart s).inQ = s.inQ := rfl
@[simp] theorem desStart_inPhase : (desStart s).inPhase = s.inPhase := rfl
@[simp] theorem desStart_outEv : (desStart s).outEv = s.outEv := rfl
@[simp] theorem desStart_portLog : (desStart s).portLog = s.portLog := rfl
@[simp] theorem desStart_host : (desStart s).host = s.host := rfl
@[simp] theorem desStart_agenda : (desStart s).agenda = s.agenda := rfl
@[simp] theorem desStart_freeCtr : (desStart s).freeCtr = s.freeCtr := rfl

@[simp] theorem desCleanup_cur : (desCleanup s).cur = s.cur := rfl
@[simp] theorem desCleanup_err : (desCleanup s).err = s.err := rfl
@[simp] theorem desCleanup_dropped : (desCleanup s).dropped = s.dropped := rfl
@[simp] theorem desCleanup_eomSeen : (desCleanup s).eomSeen = s.eomSeen := rfl
@[simp] theorem desCleanup_tableValid : (desCleanup s).tableValid = s.tableValid := rfl
@[simp] theorem desCleanup_result : (desCleanup s).result = s.result := rfl
@[simp] theorem desCleanup_root : (desCleanup s).root = s.root := rfl
@[simp] theorem desCleanup_nodeAddr : (desCleanup s).nodeAddr = s.nodeAddr := rfl
@[simp] theorem desCleanup_nodeCount : (desCleanup s).nodeCount = 0#11 := rfl
@[simp] theorem desCleanup_node : (desCleanup s).node = [] := rfl
@[simp] theorem desCleanup_tblSel : (desCleanup s).tblSel = s.tblSel := rfl
@[simp] theorem desCleanup_tbl : (desCleanup s).tbl = s.tbl := rfl
@[simp] theorem desCleanup_decNode : (desCleanup s).decNode = s.decNode := rfl
@[simp] theorem desCleanup_inBuf : (desCleanup s).inBuf = s.inBuf := rfl
@[simp] theorem desCleanup_inBitpos : (desCleanup s).inBitpos = s.inBitpos := rfl
@[simp] theorem desCleanup_outAcc : (desCleanup s).outAcc = s.outAcc := rfl
@[simp] theorem desCleanup_outBitpos : (desCleanup s).outBitpos = s.outBitpos := rfl
@[simp] theorem desCleanup_desStack : (desCleanup s).desStack = s.desStack := rfl
@[simp] theorem desCleanup_inQ : (desCleanup s).inQ = s.inQ := rfl
@[simp] theorem desCleanup_inPhase : (desCleanup s).inPhase = s.inPhase := rfl
@[simp] theorem desCleanup_outEv : (desCleanup s).outEv = s.outEv := rfl
@[simp] theorem desCleanup_portLog : (desCleanup s).portLog = s.portLog := rfl
@[simp] theorem desCleanup_host : (desCleanup s).host = s.host := rfl
@[simp] theorem desCleanup_agenda : (desCleanup s).agenda = s.agenda := rfl
@[simp] theorem desCleanup_freeCtr : (desCleanup s).freeCtr = s.freeCtr := rfl

@[simp] theorem drop_cur : (drop s).cur = s.cur := rfl
@[simp] theorem drop_err : (drop s).err = s.err := rfl
@[simp] theorem drop_dropped : (drop s).dropped = true := rfl
@[simp] theorem drop_eomSeen : (drop s).eomSeen = s.eomSeen := rfl
@[simp] theorem drop_tableValid : (drop s).tableValid = s.tableValid := rfl
@[simp] theorem drop_result : (drop s).result = s.result := rfl
@[simp] theorem drop_root : (drop s).root = s.root := rfl
@[simp] theorem drop_nodeAddr : (drop s).nodeAddr = s.nodeAddr := rfl
@[simp] theorem drop_nodeCount : (drop s).nodeCount = s.nodeCount := rfl
@[simp] theorem drop_node : (drop s).node = s.node := rfl
@[simp] theorem drop_tblSel : (drop s).tblSel = s.tblSel := rfl
@[simp] theorem drop_tbl : (drop s).tbl = s.tbl := rfl
@[simp] theorem drop_decNode : (drop s).decNode = s.decNode := rfl
@[simp] theorem drop_inBuf : (drop s).inBuf = s.inBuf := rfl
@[simp] theorem drop_inBitpos : (drop s).inBitpos = s.inBitpos := rfl
@[simp] theorem drop_outAcc : (drop s).outAcc = s.outAcc := rfl
@[simp] theorem drop_outBitpos : (drop s).outBitpos = s.outBitpos := rfl
@[simp] theorem drop_desStack : (drop s).desStack = s.desStack := rfl
@[simp] theorem drop_inQ : (drop s).inQ = s.inQ := rfl
@[simp] theorem drop_inPhase : (drop s).inPhase = s.inPhase := rfl
@[simp] theorem drop_outEv : (drop s).outEv = s.outEv := rfl
@[simp] theorem drop_portLog : (drop s).portLog = s.portLog := rfl
@[simp] theorem drop_host : (drop s).host = s.host := rfl
@[simp] theorem drop_agenda : (drop s).agenda = s.agenda := rfl
@[simp] theorem drop_freeCtr : (drop s).freeCtr = s.freeCtr := rfl

@[simp] theorem accept_cur (w : Word) : (accept w s).cur = some w := rfl
@[simp] theorem accept_err (w : Word) : (accept w s).err = s.err := rfl
@[simp] theorem accept_dropped (w : Word) : (accept w s).dropped = s.dropped := rfl
@[simp] theorem accept_eomSeen (w : Word) : (accept w s).eomSeen = s.eomSeen := rfl
@[simp] theorem accept_tableValid (w : Word) : (accept w s).tableValid = s.tableValid := rfl
@[simp] theorem accept_result (w : Word) : (accept w s).result = s.result := rfl
@[simp] theorem accept_root (w : Word) : (accept w s).root = s.root := rfl
@[simp] theorem accept_nodeAddr (w : Word) : (accept w s).nodeAddr = s.nodeAddr := rfl
@[simp] theorem accept_nodeCount (w : Word) : (accept w s).nodeCount = s.nodeCount := rfl
@[simp] theorem accept_node (w : Word) : (accept w s).node = s.node := rfl
@[simp] theorem accept_tblSel (w : Word) : (accept w s).tblSel = s.tblSel := rfl
@[simp] theorem accept_tbl (w : Word) : (accept w s).tbl = s.tbl := rfl
@[simp] theorem accept_decNode (w : Word) : (accept w s).decNode = s.decNode := rfl
@[simp] theorem accept_inBuf (w : Word) : (accept w s).inBuf = s.inBuf := rfl
@[simp] theorem accept_inBitpos (w : Word) : (accept w s).inBitpos = s.inBitpos := rfl
@[simp] theorem accept_outAcc (w : Word) : (accept w s).outAcc = s.outAcc := rfl
@[simp] theorem accept_outBitpos (w : Word) : (accept w s).outBitpos = s.outBitpos := rfl
@[simp] theorem accept_desStack (w : Word) : (accept w s).desStack = s.desStack := rfl
@[simp] theorem accept_inQ (w : Word) : (accept w s).inQ = s.inQ := rfl
@[simp] theorem accept_inPhase (w : Word) : (accept w s).inPhase = s.inPhase := rfl
@[simp] theorem accept_outEv (w : Word) : (accept w s).outEv = s.outEv := rfl
@[simp] theorem accept_portLog (w : Word) : (accept w s).portLog = [] := rfl
@[simp] theorem accept_host (w : Word) : (accept w s).host = s.host := rfl
@[simp] theorem accept_agenda (w : Word) : (accept w s).agenda = s.agenda := rfl
@[simp] theorem accept_freeCtr (w : Word) : (accept w s).freeCtr = s.freeCtr := rfl

@[simp] theorem hostGoto_cur (k : Nat) : (hostGoto k s).cur = s.cur := rfl
@[simp] theorem hostGoto_err (k : Nat) : (hostGoto k s).err = s.err := rfl
@[simp] theorem hostGoto_dropped (k : Nat) : (hostGoto k s).dropped = s.dropped := rfl
@[simp] theorem hostGoto_eomSeen (k : Nat) : (hostGoto k s).eomSeen = s.eomSeen := rfl
@[simp] theorem hostGoto_tableValid (k : Nat) : (hostGoto k s).tableValid = s.tableValid := rfl
@[simp] theorem hostGoto_result (k : Nat) : (hostGoto k s).result = s.result := rfl
@[simp] theorem hostGoto_root (k : Nat) : (hostGoto k s).root = s.root := rfl
@[simp] theorem hostGoto_nodeAddr (k : Nat) : (hostGoto k s).nodeAddr = s.nodeAddr := rfl
@[simp] theorem hostGoto_nodeCount (k : Nat) : (hostGoto k s).nodeCount = s.nodeCount := rfl
@[simp] theorem hostGoto_node (k : Nat) : (hostGoto k s).node = s.node := rfl
@[simp] theorem hostGoto_tblSel (k : Nat) : (hostGoto k s).tblSel = s.tblSel := rfl
@[simp] theorem hostGoto_tbl (k : Nat) : (hostGoto k s).tbl = s.tbl := rfl
@[simp] theorem hostGoto_decNode (k : Nat) : (hostGoto k s).decNode = s.decNode := rfl
@[simp] theorem hostGoto_inBuf (k : Nat) : (hostGoto k s).inBuf = s.inBuf := rfl
@[simp] theorem hostGoto_inBitpos (k : Nat) : (hostGoto k s).inBitpos = s.inBitpos := rfl
@[simp] theorem hostGoto_outAcc (k : Nat) : (hostGoto k s).outAcc = s.outAcc := rfl
@[simp] theorem hostGoto_outBitpos (k : Nat) : (hostGoto k s).outBitpos = s.outBitpos := rfl
@[simp] theorem hostGoto_desStack (k : Nat) : (hostGoto k s).desStack = s.desStack := rfl
@[simp] theorem hostGoto_inQ (k : Nat) : (hostGoto k s).inQ = s.inQ := rfl
@[simp] theorem hostGoto_inPhase (k : Nat) : (hostGoto k s).inPhase = s.inPhase := rfl
@[simp] theorem hostGoto_outEv (k : Nat) : (hostGoto k s).outEv = s.outEv := rfl
@[simp] theorem hostGoto_portLog (k : Nat) : (hostGoto k s).portLog = s.portLog := rfl
@[simp] theorem hostGoto_host (k : Nat) : (hostGoto k s).host = { s.host with next := k } := rfl
@[simp] theorem hostGoto_agenda (k : Nat) : (hostGoto k s).agenda = s.agenda := rfl
@[simp] theorem hostGoto_freeCtr (k : Nat) : (hostGoto k s).freeCtr = s.freeCtr := rfl

@[simp] theorem resetState_cur : (resetState s).cur = none := rfl
@[simp] theorem resetState_err : (resetState s).err = ErrRecord.clear := rfl
@[simp] theorem resetState_dropped : (resetState s).dropped = false := rfl
@[simp] theorem resetState_eomSeen : (resetState s).eomSeen = false := rfl
@[simp] theorem resetState_tableValid : (resetState s).tableValid = false := rfl
@[simp] theorem resetState_result : (resetState s).result = Result.zero := rfl
@[simp] theorem resetState_root : (resetState s).root = 0#10 := rfl
@[simp] theorem resetState_nodeAddr : (resetState s).nodeAddr = 0#10 := rfl
@[simp] theorem resetState_nodeCount : (resetState s).nodeCount = 0#11 := rfl
@[simp] theorem resetState_node : (resetState s).node = [] := rfl
@[simp] theorem resetState_tblSel : (resetState s).tblSel = { sym := 0#9, word := 0#3 } := rfl
@[simp] theorem resetState_tbl : (resetState s).tbl = [] := rfl
@[simp] theorem resetState_decNode : (resetState s).decNode = 0#10 := rfl
@[simp] theorem resetState_inBuf : (resetState s).inBuf = [] := rfl
@[simp] theorem resetState_inBitpos : (resetState s).inBitpos = 0#32 := rfl
@[simp] theorem resetState_outAcc : (resetState s).outAcc = [] := rfl
@[simp] theorem resetState_outBitpos : (resetState s).outBitpos = 0#32 := rfl
@[simp] theorem resetState_desStack : (resetState s).desStack = [] := rfl
@[simp] theorem resetState_inQ : (resetState s).inQ = s.inQ := rfl
@[simp] theorem resetState_inPhase : (resetState s).inPhase = .fresh := rfl
@[simp] theorem resetState_outEv : (resetState s).outEv = s.outEv := rfl
@[simp] theorem resetState_portLog : (resetState s).portLog = s.portLog := rfl
@[simp] theorem resetState_host : (resetState s).host = s.host := rfl
@[simp] theorem resetState_agenda : (resetState s).agenda = s.agenda := rfl
@[simp] theorem resetState_freeCtr : (resetState s).freeCtr = s.freeCtr := rfl

end Sys2Proof.Machine
end

