-- ==== Sys2Proof/Laws/Traversal.lean ====
section
/-! SUPPORT. What the traversals do on a tree the node store holds, and what reading a production does on its bits. -/

namespace Sys2Proof.Machine

/-! ### The node check on a tree -/

/-- The fields the node check gives for the root of a tree. -/
theorem visit_holds {s : State} {n : Idx} {T : Tree} (h : Holds s.node n T) :
    (T = .eom ∧ visit n s = .ok .eom s) ∨ (∃ v, T = .byte v ∧ visit n s = .ok (.byte v) s) ∨
      ∃ L R l r, T = .branch L R ∧ visit n s = .ok (.branch l r) s ∧ Holds s.node l L ∧ Holds s.node r R := by
  cases T with
  | eom =>
    obtain ⟨e, he, hk⟩ := h
    exact .inl ⟨rfl, by rw [visit_entry he, hk]⟩
  | byte v =>
    obtain ⟨e, he, hk, hv⟩ := h
    exact .inr (.inl ⟨v, rfl, by rw [visit_entry he, hk, hv]⟩)
  | branch L R =>
    obtain ⟨e, he, hk, hL, hR⟩ := h
    exact .inr (.inr ⟨L, R, e.left, e.right, rfl, by rw [visit_entry he, hk], hL, hR⟩)

/-! ### The shape of a description -/

/-- A description is its productions, joined. -/
theorem productions_flatten (T : Tree) : (productions T).flatten = desc T := by
  induction T with
  | eom => rfl
  | byte v => simp [productions, desc]
  | branch l r ihl ihr => simp [productions, desc, ihl, ihr]

/-- A description has one production for each node. -/
@[simp] theorem length_productions (T : Tree) : (productions T).length = T.size := by
  induction T with
  | eom => rfl
  | byte v => rfl
  | branch l r ihl ihr => simp [productions, Tree.size, ihl, ihr]

/-- A descent and its continuation. -/
theorem descentBits_append (as bs : List (Option Tree)) :
    descentBits (as ++ bs) = descentBits as ++ descentBits bs := by
  induction as with
  | nil => rfl
  | cons a as ih => cases a <;> simp [descentBits, ih]

theorem descentNodes_append (as bs : List (Option Tree)) :
    descentNodes (as ++ bs) = descentNodes as + descentNodes bs := by
  induction as with
  | nil => simp [descentNodes]
  | cons a as ih => cases a <;> simp [descentNodes, ih] <;> omega

/-- Every branch on a descent is a node of it. -/
theorem length_le_descentNodes (way : List (Option Tree)) : way.length ≤ descentNodes way := by
  induction way with
  | nil => simp
  | cons a way ih => cases a <;> simp [descentNodes] <;> omega

/-- The node check refuses such an entry with its code and index, and changes nothing (R119). -/
theorem visit_refused {s : State} {n : Idx} {c : ErrCode} (h : RefusedNode s.node n c) :
    visit n s = .error { code := c, value := n.setWidth 28 } s := by
  rcases h with ⟨hn, rfl⟩ | ⟨e, he, hk, rfl⟩
  · exact visit_none hn
  · rw [visit_entry he, hk]

/-- What a descent's first branch is, and where it goes on. -/
theorem Descends.branch {m : Memory Node} {n k : Idx} {turn : Option Tree} {way : List (Option Tree)}
    (h : Descends m n (turn :: way) k) :
    ∃ e, m.get n.toNat = some e ∧ e.kind = .branch ∧
      match turn with
      | none => Descends m e.left way k
      | some l => Holds m e.left l ∧ Descends m e.right way k := by
  cases turn <;> exact h

/-! ### SER_TREE -/

theorem writeSeq_node (bs : List Bool) (s : State) : (writeSeq bs s).node = s.node := by
  have h := writeSeq_sameButOut bs s
  unfold SameButOut at h
  rw [h]

/-- SER_TREE's traversal of a tree writes its description (R120). -/
theorem serNode_holds (T : Tree) : ∀ (levels : Nat) (n p : Idx) (s : State), Holds s.node n T → T.depth < levels →
    serNode levels n p s = .ok () (writeSeq (desc T) s) := by
  induction T with
  | eom =>
    intro levels n p s h hd
    obtain ⟨k, rfl⟩ : ∃ k, levels = k + 1 := ⟨levels - 1, by omega⟩
    rcases visit_holds h with ⟨-, hv⟩ | ⟨v, hT, -⟩ | ⟨L, R, l, r, hT, -⟩
    · simp [serNode, hv, desc, writeSeq]
    · cases hT
    · cases hT
  | byte v =>
    intro levels n p s h hd
    obtain ⟨k, rfl⟩ : ∃ k, levels = k + 1 := ⟨levels - 1, by omega⟩
    rcases visit_holds h with ⟨hT, -⟩ | ⟨w, hT, hv⟩ | ⟨L, R, l, r, hT, -⟩
    · cases hT
    · cases hT
      simp only [serNode, bind_apply, hv, update_apply]
      rfl
    · cases hT
  | branch L R ihL ihR =>
    intro levels n p s h hd
    obtain ⟨k, rfl⟩ : ∃ k, levels = k + 1 := ⟨levels - 1, by omega⟩
    simp only [Tree.depth] at hd
    rcases visit_holds h with ⟨hT, -⟩ | ⟨v, hT, -⟩ | ⟨L', R', l, r, hT, hv, hL, hR⟩
    · cases hT
    · cases hT
    · cases hT
      have h1 : (writeBit true s).node = s.node := writeSeq_node [true] s
      have hl := ihL k l n (writeBit true s) (by rw [h1]; exact hL) (by omega)
      have hr := ihR k r n (writeSeq (desc L) (writeBit true s)) (by rw [writeSeq_node, h1]; exact hR) (by omega)
      simp only [serNode, bind_apply, hv, update_apply, hl, hr, desc, writeSeq, writeSeq_append]

/-- SER_TREE's traversal on a descent writes the bits of the nodes it passes and goes on at the descent's end, whose parent
is the last branch passed; a raise there is the traversal's (R120). -/
theorem serNode_descent (way : List (Option Tree)) : ∀ (levels d : Nat) (n p k : Idx) (s : State),
    Descends s.node n way k → descentFits d way → d + way.length + levels = 257 →
    ∃ parent, (way = [] → parent = p) ∧ (way ≠ [] → Descends s.node n way.dropLast parent) ∧
      ∀ e t, serNode levels k parent (writeSeq (descentBits way) s) = .error e t →
        serNode (way.length + levels) n p s = .error e t := by
  induction way with
  | nil =>
    intro levels d n p k s h _ _
    cases h
    exact ⟨p, fun _ => rfl, fun h => absurd rfl h, by simp [descentBits]⟩
  | cons turn way ih =>
    intro levels d n p k s h hf hl
    obtain ⟨e, he, hk, hway⟩ := h.branch
    have hv : visit n s = .ok (.branch e.left e.right) s := by rw [visit_entry he, hk]
    have h1 : (writeBit true s).node = s.node := writeSeq_node [true] s
    simp only [List.length_cons] at hl
    have hlen : (turn :: way).length + levels = way.length + levels + 1 := by simp; omega
    rw [hlen]
    cases turn with
    | none =>
      obtain ⟨parent, hp0, hp1, hr⟩ := ih levels (d + 1) e.left n k (writeBit true s) (by rw [h1]; exact hway) hf
        (by omega)
      refine ⟨parent, by simp, fun _ => ?_, fun er t ht => ?_⟩
      · cases way with
        | nil => exact hp0 rfl
        | cons b way => exact ⟨e, he, hk, by rw [h1] at hp1; exact hp1 (by simp)⟩
      · simp only [serNode, bind_apply, hv, update_apply, hr er t (by simpa [descentBits, writeSeq] using ht)]
    | some l =>
      obtain ⟨hleft, hright⟩ := hway
      have hll := serNode_holds l (way.length + levels) e.left n (writeBit true s) (by rw [h1]; exact hleft)
        (by have := hf.1; omega)
      have h2 : (writeSeq (desc l) (writeBit true s)).node = s.node := by rw [writeSeq_node, h1]
      obtain ⟨parent, hp0, hp1, hr⟩ := ih levels (d + 1) e.right n k (writeSeq (desc l) (writeBit true s))
        (by rw [h2]; exact hright) hf.2 (by omega)
      refine ⟨parent, by simp, fun _ => ?_, fun er t ht => ?_⟩
      · cases way with
        | nil => exact hp0 rfl
        | cons b way => exact ⟨e, he, hk, hleft, by rw [h2] at hp1; exact hp1 (by simp)⟩
      · simp only [serNode, bind_apply, hv, update_apply, hll,
          hr er t (by simpa [descentBits, writeSeq, writeSeq_append] using ht)]

/-! ### BUILD_TABLE -/

/-- The leaves of a list, one after the other, as BUILD_TABLE enters them. -/
def tblLeaves : List (Sym × List Bool) → Act Unit
  | [] => pure ()
  | e :: rest => do
    tblLeaf e.1 e.2
    tblLeaves rest

theorem tblLeaves_append (as bs : List (Sym × List Bool)) (s : State) :
    tblLeaves (as ++ bs) s = match tblLeaves as s with
      | .ok _ t => tblLeaves bs t
      | .error e t => .error e t := by
  induction as generalizing s with
  | nil => rfl
  | cons a as ih =>
    simp only [List.cons_append, tblLeaves, bind_apply]
    cases tblLeaf a.1 a.2 s with
    | ok u t => exact ih t
    | error e t => rfl

theorem tblLeaves_node {as : List (Sym × List Bool)} {s t : State} {u : Unit} (h : tblLeaves as s = .ok u t) :
    t.node = s.node := by
  induction as generalizing s with
  | nil => simp only [tblLeaves, pure_apply, EStateM.Result.ok.injEq] at h; rw [← h.2]
  | cons a as ih =>
    simp only [tblLeaves, bind_apply, tblLeaf] at h
    split at h
    · rename_i u' t' h'
      split at h'
      · cases h'
      · cases h'; exact (ih h : t.node = (setCodeword a.1 a.2 s).node)
    · cases h

/-- A tree's codewords below a path. -/
def Tree.codewordsAt (path : List Bool) (T : Tree) : List (Sym × List Bool) :=
  T.codewords.map fun e => (e.1, path ++ e.2)

theorem codewordsAt_branch (path : List Bool) (L R : Tree) :
    Tree.codewordsAt path (.branch L R) =
      Tree.codewordsAt (path ++ [false]) L ++ Tree.codewordsAt (path ++ [true]) R := by
  simp [Tree.codewordsAt, Tree.codewords, Function.comp_def]

/-- BUILD_TABLE's traversal of a tree enters its leaves left to right, each under its path (R140). -/
theorem tblNode_holds (T : Tree) : ∀ (levels : Nat) (n p : Idx) (path : List Bool) (s : State), Holds s.node n T →
    T.depth < levels → tblNode levels n p path s = tblLeaves (Tree.codewordsAt path T) s := by
  induction T with
  | eom =>
    intro levels n p path s h hd
    obtain ⟨k, rfl⟩ : ∃ k, levels = k + 1 := ⟨levels - 1, by omega⟩
    rcases visit_holds h with ⟨-, hv⟩ | ⟨v, hT, -⟩ | ⟨L, R, l, r, hT, -⟩
    · simp only [tblNode, bind_apply, hv, Tree.codewordsAt, Tree.codewords, List.map, tblLeaves, List.append_nil]
      cases tblLeaf Config.eom path s <;> rfl
    · cases hT
    · cases hT
  | byte v =>
    intro levels n p path s h hd
    obtain ⟨k, rfl⟩ : ∃ k, levels = k + 1 := ⟨levels - 1, by omega⟩
    rcases visit_holds h with ⟨hT, -⟩ | ⟨w, hT, hv⟩ | ⟨L, R, l, r, hT, -⟩
    · cases hT
    · cases hT
      simp only [tblNode, bind_apply, hv, Tree.codewordsAt, Tree.codewords, List.map, tblLeaves, List.append_nil,
        symOfByte]
      cases tblLeaf (BitVec.setWidth 9 v) path s <;> rfl
    · cases hT
  | branch L R ihL ihR =>
    intro levels n p path s h hd
    obtain ⟨k, rfl⟩ : ∃ k, levels = k + 1 := ⟨levels - 1, by omega⟩
    simp only [Tree.depth] at hd
    rcases visit_holds h with ⟨hT, -⟩ | ⟨v, hT, -⟩ | ⟨L', R', l, r, hT, hv, hL, hR⟩
    · cases hT
    · cases hT
    · cases hT
      have hl := ihL k l n (path ++ [false]) s hL (by omega)
      simp only [tblNode, bind_apply, hv, hl, codewordsAt_branch, tblLeaves_append]
      cases ht : tblLeaves (Tree.codewordsAt (path ++ [false]) L) s with
      | ok u t => exact ihR k r n (path ++ [true]) t (by rw [tblLeaves_node ht]; exact hR) (by omega)
      | error e t => rfl

/-- BUILD_TABLE's traversal on a descent enters the leaves it passes and goes on at the descent's end; a raise there is the
traversal's (R140). -/
theorem tblNode_descent (m : Memory Node) (way : List (Option Tree)) :
    ∀ (levels d : Nat) (n p k : Idx) (path : List Bool), Descends m n way k → descentFits d way →
      d + way.length + levels = 257 →
      ∃ parent path' leaves, (way = [] → parent = p) ∧ (way ≠ [] → Descends m n way.dropLast parent) ∧
        leaves.map (·.1) = descentSymbols way ∧
        ∀ s t e u, s.node = m → tblLeaves leaves s = .ok () t → tblNode levels k parent path' t = .error e u →
          tblNode (way.length + levels) n p path s = .error e u := by
  induction way with
  | nil =>
    intro levels d n p k path h _ _
    cases h
    refine ⟨p, path, [], fun _ => rfl, fun h => absurd rfl h, rfl, fun s t e u _ h1 h2 => ?_⟩
    cases h1
    simpa using h2
  | cons turn way ih =>
    intro levels d n p k path h hf hl
    obtain ⟨e, he, hk, hway⟩ := h.branch
    have hv : ∀ s : State, s.node = m → visit n s = .ok (.branch e.left e.right) s := by
      intro s hs; rw [visit_entry (by rw [hs]; exact he), hk]
    simp only [List.length_cons] at hl
    have hlen : (turn :: way).length + levels = way.length + levels + 1 := by simp; omega
    rw [hlen]
    cases turn with
    | none =>
      obtain ⟨parent, path', leaves, hp0, hp1, hs, hr⟩ := ih levels (d + 1) e.left n k (path ++ [false]) hway hf
        (by omega)
      refine ⟨parent, path', leaves, by simp, fun _ => ?_, hs, fun s t er u hsm h1 h2 => ?_⟩
      · cases way with
        | nil => exact hp0 rfl
        | cons b way => exact ⟨e, he, hk, hp1 (by simp)⟩
      · simp only [tblNode, bind_apply, hv s hsm, hr s t er u hsm h1 h2]
    | some l =>
      obtain ⟨hleft, hright⟩ := hway
      obtain ⟨parent, path', leaves, hp0, hp1, hs, hr⟩ := ih levels (d + 1) e.right n k (path ++ [true]) hright hf.2
        (by omega)
      refine ⟨parent, path', Tree.codewordsAt (path ++ [false]) l ++ leaves, by simp, fun _ => ?_, ?_,
        fun s t er u hsm h1 h2 => ?_⟩
      · cases way with
        | nil => exact hp0 rfl
        | cons b way => exact ⟨e, he, hk, hleft, hp1 (by simp)⟩
      · simp [Tree.codewordsAt, descentSymbols, hs]
      · have hll := tblNode_holds l (way.length + levels) e.left n (path ++ [false]) s (by rw [hsm]; exact hleft)
          (by have := hf.1; omega)
        rw [tblLeaves_append] at h1
        cases hin : tblLeaves (Tree.codewordsAt (path ++ [false]) l) s with
        | error er' u' => rw [hin] at h1; cases h1
        | ok x v =>
          rw [hin] at h1
          simp only [tblNode, bind_apply, hv s hsm, hll, hin,
            hr v t er u (by rw [tblLeaves_node hin, hsm]) h1 h2]

/-! ### The decode walk -/

/-- What the node check gives at a leaf that holds a symbol. -/
def leafVisited (y : Sym) : Visited := if y = Config.eom then .eom else .byte (y.setWidth 8)

/-- The walk down the path of a leaf, with those bits at the head of IN: it ends at the leaf, one level deeper per bit,
and takes exactly those bits, so the rest of the last byte they came from stays in hand (R160, R162). -/
theorem walk_path (T : Tree) : ∀ (levels d : Nat) (n : Idx) (v : Visited) (s : State) (y : Sym)
    (path rest : List Bool), Holds s.node n T → visit n s = .ok v s → (y, path) ∈ T.codewords → path.length ≤ levels →
    pendingBits s = path ++ rest →
    ∃ t leaf, walk levels d n v s = .ok (leaf, d + path.length, leafVisited y) t ∧
      nodeOnPath s.node n path = some leaf ∧ pendingBits t = rest ∧
      t.inBitpos = s.inBitpos + BitVec.ofNat 32 path.length ∧
      t.inBuf.length = bitsLeft s.inBuf.length path.length ∧ SameButIn s t := by
  induction T with
  | eom =>
    intro levels d n v s y path rest h hv hmem hlen hp
    simp only [Tree.codewords, List.mem_singleton, Prod.mk.injEq] at hmem
    obtain ⟨rfl, rfl⟩ := hmem
    rcases visit_holds h with ⟨-, hv'⟩ | ⟨w, hT, -⟩ | ⟨L, R, l, r, hT, -⟩
    · rw [hv'] at hv; cases hv
      exact ⟨s, n, by cases levels <;> rfl, rfl, hp, by simp, by simp, .refl s⟩
    · cases hT
    · cases hT
  | byte b =>
    intro levels d n v s y path rest h hv hmem hlen hp
    simp only [Tree.codewords, List.mem_singleton, Prod.mk.injEq] at hmem
    obtain ⟨rfl, rfl⟩ := hmem
    rcases visit_holds h with ⟨hT, -⟩ | ⟨w, hT, hv'⟩ | ⟨L, R, l, r, hT, -⟩
    · cases hT
    · cases hT
      rw [hv'] at hv; cases hv
      have hy : leafVisited (BitVec.setWidth 9 b) = .byte b := by
        have h1 : BitVec.setWidth 9 b ≠ Config.eom := by
          intro h
          have := congrArg BitVec.toNat h
          simp [Config.eom] at this
          omega
        have h2 : BitVec.setWidth 8 (BitVec.setWidth 9 b) = b := by
          apply BitVec.eq_of_toNat_eq; simp
        simp [leafVisited, h1, h2]
      rw [hy]
      exact ⟨s, n, by cases levels <;> rfl, rfl, hp, by simp, by simp, .refl s⟩
    · cases hT
  | branch L R ihL ihR =>
    intro levels d n v s y path rest h hv hmem hlen hp
    obtain ⟨e, he, hk, hL, hR⟩ := h
    rw [visit_entry he, hk] at hv
    cases hv
    simp only [Tree.codewords, List.mem_append, List.mem_map, Prod.mk.injEq] at hmem
    obtain ⟨b, path', rfl, hsub⟩ : ∃ b path', path = b :: path' ∧
        ∃ T', (T' = if b then R else L) ∧ (y, path') ∈ T'.codewords := by
      rcases hmem with ⟨e', h1, h2, h3⟩ | ⟨e', h1, h2, h3⟩
      · exact ⟨false, e'.2, h3.symm, L, rfl, by rw [← h2]; exact h1⟩
      · exact ⟨true, e'.2, h3.symm, R, rfl, by rw [← h2]; exact h1⟩
    obtain ⟨T', hT', hmem'⟩ := hsub
    obtain ⟨k, rfl⟩ : ∃ k, levels = k + 1 := ⟨levels - 1, by simp at hlen; omega⟩
    obtain ⟨t, hr, hpt, hpos, hsame⟩ := readBit_pending (s := s) (b := b) (rest := path' ++ rest) hp
    have hnode : t.node = s.node := by unfold SameButIn at hsame; rw [hsame]
    have hchild : Holds t.node (if b then e.right else e.left) T' := by
      rw [hnode, hT']; cases b
      · exact hL
      · exact hR
    have hvis : ∃ v', visit (if b then e.right else e.left) t = .ok v' t := by
      rcases visit_holds hchild with ⟨-, h⟩ | ⟨w, -, h⟩ | ⟨_, _, l, r, -, h, -, -⟩ <;> exact ⟨_, h⟩
    obtain ⟨v', hv'⟩ := hvis
    have ih : ∃ u leaf, walk k (d + 1) (if b then e.right else e.left) v' t =
          .ok (leaf, d + 1 + path'.length, leafVisited y) u ∧
        nodeOnPath t.node (if b then e.right else e.left) path' = some leaf ∧ pendingBits u = rest ∧
        u.inBitpos = t.inBitpos + BitVec.ofNat 32 path'.length ∧
        u.inBuf.length = bitsLeft t.inBuf.length path'.length ∧ SameButIn t u := by
      have hk' : path'.length ≤ k := by simp at hlen; omega
      cases b with
      | false => subst hT'; exact ihL k (d + 1) _ v' t y path' rest hchild hv' hmem' hk' hpt
      | true => subst hT'; exact ihR k (d + 1) _ v' t y path' rest hchild hv' hmem' hk' hpt
    obtain ⟨u, leaf, hw, hpath, hpu, hposu, hlu, hsu⟩ := ih
    refine ⟨u, leaf, ?_, ?_, hpu, ?_, by rw [hlu, readBit_inBuf hr, bitsLeft_succ, List.length_cons],
      hsame.trans hsu⟩
    · rw [List.length_cons, show d + (path'.length + 1) = d + 1 + path'.length by omega]
      simp only [walk, bind_apply, hr, hv', hw]
    · rw [hnode] at hpath
      simp only [nodeOnPath, he, hk, if_true]; exact hpath
    · rw [hposu, hpos, List.length_cons, BitVec.add_assoc]; congr 1
      apply BitVec.eq_of_toNat_eq
      simp [BitVec.toNat_add, Nat.add_comm]

/-- The walk along a path that IN selects: it takes the path's bits and goes on with the node check of the entry the path
leads to (R160). -/
theorem walk_along (path : List Bool) : ∀ (levels d : Nat) (n k : Idx) (v : Visited) (s : State) (rest : List Bool),
    nodeOnPath s.node n path = some k → visit n s = .ok v s → pendingBits s = path ++ rest →
    ∃ t, pendingBits t = rest ∧ t.inBitpos = s.inBitpos + BitVec.ofNat 32 path.length ∧
      t.inBuf.length = bitsLeft s.inBuf.length path.length ∧ SameButIn s t ∧
      walk (path.length + levels) d n v s = match visit k t with
        | .ok v' u => walk levels (d + path.length) k v' u
        | .error e u => .error e u := by
  induction path with
  | nil =>
    intro levels d n k v s rest hn hv hp
    cases hn
    exact ⟨s, hp, by simp, by simp, .refl s, by simp [hv]⟩
  | cons b path ih =>
    intro levels d n k v s rest hn hv hp
    cases he : s.node.get n.toNat with
    | none => simp [nodeOnPath, he] at hn
    | some e =>
      by_cases hk : e.kind = .branch
      · rw [visit_entry he, hk] at hv
        cases hv
        simp only [nodeOnPath, he, hk, if_true] at hn
        obtain ⟨t, hr, hpt, hpos, hsame⟩ := readBit_pending (s := s) (b := b) (rest := path ++ rest) hp
        have hnode : t.node = s.node := by unfold SameButIn at hsame; rw [hsame]
        have hlen : (b :: path).length + levels = path.length + levels + 1 := by simp; omega
        rw [hlen]
        cases hv' : visit (if b then e.right else e.left) t with
        | error er u =>
          cases path with
          | nil =>
            cases hn
            exact ⟨t, hpt, hpos, readBit_inBuf hr, hsame, by simp only [walk, bind_apply, hr, hv']⟩
          | cons c path =>
            cases he' : s.node.get (if b then e.right else e.left).toNat with
            | none => simp [nodeOnPath, he'] at hn
            | some e' =>
              by_cases hk' : e'.kind = .branch
              · rw [visit_entry (by rw [hnode]; exact he'), hk'] at hv'; cases hv'
              · simp [nodeOnPath, he', hk'] at hn
        | ok v' u =>
          have hu : u = t := by have := endState_visit (if b then e.right else e.left) t; rwa [hv'] at this
          subst hu
          obtain ⟨w, h1, h2, h3, h4, h5⟩ := ih levels (d + 1) _ k v' u rest (by rw [hnode]; exact hn) hv' hpt
          refine ⟨w, h1, ?_, by rw [h3, readBit_inBuf hr, bitsLeft_succ, List.length_cons], hsame.trans h4, ?_⟩
          · rw [h2, hpos, List.length_cons, BitVec.add_assoc]; congr 1
            apply BitVec.eq_of_toNat_eq
            simp [BitVec.toNat_add, Nat.add_comm]
          · rw [List.length_cons, show d + (path.length + 1) = d + 1 + path.length by omega]
            simp only [walk, bind_apply, hr, hv', h5]
      · simp [nodeOnPath, he, hk] at hn

/-! ### A production -/

/-- The bits of a production (R96). -/
def Production.bits : Production → List Bool
  | .branch => [true]
  | .leafByte v => false :: true :: byteBits v
  | .leafEom => [false, false]

theorem treeBit_pending {s : State} {b : Bool} {rest : List Bool} (i : Idx) (h : pendingBits s = b :: rest) :
    ∃ t, treeBit i s = .ok b t ∧ pendingBits t = rest ∧ t.inBitpos = s.inBitpos + 1#32 ∧ SameButIn s t := by
  obtain ⟨t, hr, h1, h2, h3⟩ := readBit_pending h
  exact ⟨t, by simp [treeBit, hr], h1, h2, h3⟩

/-- A production at the head of IN is read whole, and its bits alone are taken (R121 to R124). -/
theorem readProduction_pending (i : Idx) (prod : Production) {s : State} {rest : List Bool}
    (h : pendingBits s = prod.bits ++ rest) :
    ∃ t, readProduction i s = .ok prod t ∧ pendingBits t = rest ∧
      t.inBitpos = s.inBitpos + BitVec.ofNat 32 prod.bits.length ∧ SameButIn s t := by
  have add (x : Word) (m n : Nat) : x + BitVec.ofNat 32 m + BitVec.ofNat 32 n = x + BitVec.ofNat 32 (m + n) := by
    rw [BitVec.add_assoc]; congr 1
    apply BitVec.eq_of_toNat_eq; simp [BitVec.toNat_add]
  cases prod with
  | branch =>
    obtain ⟨t, h1, h2, h3, h4⟩ := treeBit_pending i (s := s) h
    exact ⟨t, by simp [readProduction, h1], h2, h3, h4⟩
  | leafEom =>
    obtain ⟨t, h1, h2, h3, h4⟩ := treeBit_pending i (s := s) h
    obtain ⟨u, k1, k2, k3, k4⟩ := treeBit_pending i (s := t) h2
    exact ⟨u, by simp [readProduction, h1, k1], k2, by rw [k3, h3]; exact add _ 1 1, h4.trans k4⟩
  | leafByte v =>
    obtain ⟨t, h1, h2, h3, h4⟩ := treeBit_pending i (s := s) h
    obtain ⟨u, k1, k2, k3, k4⟩ := treeBit_pending i (s := t) h2
    obtain ⟨w, l1, l2, l3, l4⟩ := readBitsFrom_pending (byteBits v) 0 u rest k2
    have hv : BitVec.ofNat 8 (bitsNat 0 (byteBits v)) = v := bitsByte_byteBits v
    refine ⟨w, ?_, l2, ?_, (h4.trans k4).trans l4⟩
    · simp only [readProduction, bind_apply, h1]
      simp only [Bool.false_eq_true, if_false, bind_apply, k1, if_true, readBits]
      rw [length_byteBits] at l1
      rw [l1]
      simp [hv]
    · rw [l3, k3, h3, show (1#32 : Word) = BitVec.ofNat 32 1 from rfl, add, add]; rfl

end Sys2Proof.Machine
end

