-- ==== Sys2Proof/Tests/Slice0.lean ====
section
/-! SUPPORT. Tests of the model, with expected values from spec/95_test_vectors.md or worked out by hand from the rule each
one names; the smoke test of the well-formedness checks; and for every statement with hypotheses a state that meets
them. -/

namespace Sys2Proof.Tests

open Sys2Proof Sys2Proof.Machine

/-! ### Helpers -/

/-- The state an outcome gives, the reset state where it gives none. -/
def nextOf (o : Host.Outcome State Fault Refusal) : State :=
  match o with
  | .next t => t
  | .fault _ => State.reset
  | .refused _ => State.reset

/-- Whether an outcome is a refusal for this reason. -/
def refusedBy (r : Refusal) (o : Host.Outcome State Fault Refusal) : Bool :=
  match o with
  | .next _ => false
  | .fault _ => false
  | .refused r' => r == r'

/-- One step of the core with this command word accepted. -/
def run (w : Word) (s : State) : State := nextOf (step { s with cur := some w })

/-- One host write of this register. -/
def wr (off : Nat) (w : Word) (s : State) : State := nextOf (step { s with agenda := [.access (.write off 4 w)] })

/-- STATUS, ERRINFO and RESULT. -/
def view (s : State) : List Word := [readReg 0x08 s, readReg 0x3C s, readReg 0x10 s]

/-- Tree t1 of 95_test_vectors.md, as the node words the host writes. -/
def t1 : Memory Node :=
  [(0, nodeOfWord 0x00801002#32), (1, nodeOfWord 0x00000000#32), (2, nodeOfWord 0x01003002#32),
    (3, nodeOfWord 0x00000105#32), (4, nodeOfWord 0x00000109#32)]

/-- The code table of t1 (vector E1). -/
def table1 : Memory (List Bool) := [(0x41, [true, false]), (0x42, [true, true]), (256, [false])]

/-- The cycle of vector T14. -/
def cycle : Memory Node := [(0, nodeOfWord 0x00000002#32)]

/-- t1 as a tree. -/
def tree1 : Tree := .branch .eom (.branch (.byte 0x41#8) (.byte 0x42#8))

/-- A machine with t1 loaded at ROOT = 0. -/
def loaded : State := { State.reset with node := t1 }

/-- t1 loaded and its table built. -/
def built : State := { loaded with tbl := table1, tableValid := true }

/-- A machine with these bytes on IN. -/
def fed (bytes : List Byte) (s : State) : State := { s with inQ := bytes }

/-- A machine with an error recorded. -/
def failed : State := { State.reset with err := { set := true, code := .illegalCmd, op := 0xC#4, value := 0xC#28 } }

/-- A complete tree of EOM leaves. -/
def full : Nat → Tree
  | 0 => .eom
  | n + 1 => .branch (full n) (full n)

/-! ### Well-formedness: each check refuses an ill-formed term (R91, R61, R10) -/

theorem test_rsvd0_refused : cmdWellFormed 0x00000016#32 = false ∧ decodeWord 0x00000016#32 = .error .rsvd0 := by
  decide

theorem test_rsvd1_refused : cmdWellFormed 0x00010001#32 = false ∧ decodeWord 0x00010001#32 = .error .rsvd1 := by
  decide

theorem test_reserved_op_refused :
    cmdWellFormed 0x0000000C#32 = false ∧ decodeWord 0x0000000C#32 = .error .reservedOp ∧
      cmdWellFormed 0x0000000F#32 = false ∧ decodeWord 0x0000000F#32 = .error .reservedOp := by decide

theorem test_arg_refused : cmdWellFormed 0x00004103#32 = false ∧ decodeWord 0x00004103#32 = .error .argNotZero := by
  decide

theorem test_accesses_refused :
    accessAdmitted 0x08 2 = false ∧ accessAdmitted 0x0A 4 = false ∧ accessAdmitted 0x100 4 = false ∧
      accessAdmitted 0xFC 4 = true := by decide

theorem test_access_refusals :
    refusedBy .accessWidth (step { State.reset with agenda := [.access (.read 0x08 2)] }) = true ∧
      refusedBy .accessMisaligned (step { State.reset with agenda := [.access (.read 0x0A 4)] }) = true ∧
      refusedBy .accessOutsideWindow (step { State.reset with agenda := [.access (.read 0x100 4)] }) = true := by
  decide

theorem test_invalid_trees_refused :
    (Tree.branch (.byte 1#8) (.byte 2#8)).valid = false ∧ (Tree.branch .eom .eom).valid = false ∧
      (Tree.branch (.byte 1#8) (.branch (.byte 1#8) .eom)).valid = false ∧ tree1.valid = true := by decide

theorem test_truncated_production_refused :
    decode (.bits [false]) = .error .exhausted ∧ decode (.bits [false, true, true]) = .error .exhausted ∧
      decode (.bits []) = .error .exhausted := by decide

/-! ### Decoding: one word per constructor, from the word column of R92 and the bits column of R96 -/

theorem test_decode_nop : decodeWord 0x00000000#32 = .ok .nop := by decide
theorem test_decode_clrErr : decodeWord 0x00000001#32 = .ok .clrErr := by decide
theorem test_decode_softReset : decodeWord 0x00000002#32 = .ok .softReset := by decide
theorem test_decode_serTree : decodeWord 0x00000003#32 = .ok .serTree := by decide
theorem test_decode_desTree : decodeWord 0x00000004#32 = .ok .desTree := by decide
theorem test_decode_buildTable : decodeWord 0x00000005#32 = .ok .buildTable := by decide
theorem test_decode_encSym :
    decodeWord 0b00000000000000000100000100000110#32 = .ok (.encSym 0x41#8) ∧
      decodeWord 0x0000FF06#32 = .ok (.encSym 0xFF#8) := by decide
theorem test_decode_encEom : decodeWord 0x00000007#32 = .ok .encEom := by decide
theorem test_decode_encPad : decodeWord 0x00000008#32 = .ok .encPad := by decide
theorem test_decode_decSym : decodeWord 0x00000009#32 = .ok .decSym := by decide
theorem test_decode_encStream : decodeWord 0x0000000A#32 = .ok .encStream := by decide
theorem test_decode_decStream : decodeWord 0x0000000B#32 = .ok .decStream := by decide
theorem test_decode_branch : decode (.bits [true]) = .ok .branch := by decide
theorem test_decode_leafByte :
    decode (.bits [false, true, true, false, false, false, false, false, true, false]) = .ok (.leafByte 0x82#8) := by
  decide
theorem test_decode_leafEom : decode (.bits [false, false]) = .ok .leafEom := by decide

/-- The description of t1 is the 24 bits `95 05 42`. -/
theorem test_desc_t1 : desc tree1 = bytesBits [0x95#8, 0x05#8, 0x42#8] := by decide

/-! ### Instructions -/

/-- K1. -/
theorem test_nop : view (run 0x0#32 State.reset) = [0x30#32, 0#32, 0#32] := by decide +kernel

/-- A3: CLR_ERR after a dropped word. -/
theorem test_clrErr :
    view (wr 0x04 0x0#32 failed) = [0x72#32, 0xC000000C#32, 0#32] ∧
      view (run 0x1#32 { failed with dropped := true }) = [0x30#32, 0#32, 0#32] := by decide +kernel

/-- K5: SOFT_RESET loses the bits of `outAcc` and sends nothing. -/
theorem test_softReset :
    run 0x2#32 { loaded with outAcc := [false, false], outBitpos := 2#32 } = State.reset := by decide +kernel

/-- T1. -/
theorem test_serTree :
    (run 0x3#32 loaded).outEv = [.byte 0x95#8, .byte 0x05#8, .byte 0x42#8] ∧
      readReg 0x34 (run 0x3#32 loaded) = 24#32 ∧ readReg 0x08 (run 0x3#32 loaded) = 0x30#32 := by decide +kernel

/-- T12 and T13: the right child is absent, or of the reserved kind. -/
theorem test_serTree_faults :
    view (run 0x3#32 { loaded with node := t1.take 2 }) = [0x312#32, 0x30000002#32, 0#32] ∧
      errCodeWord (run 0x3#32 { loaded with node := t1.take 2 ++ [(2, nodeOfWord 3#32)] }) = 9#32 := by decide +kernel

/-- V2. -/
theorem test_desTree :
    let s := run 0x4#32 (fed [0x95#8, 0x05#8, 0x42#8, 0xB0#8] State.reset)
    s.node.map (fun e => (e.1, nodeWord e.2)) =
        [(0, 0x00801402#32), (1, 0x00000400#32), (2, 0x01003402#32), (3, 0x00000505#32), (4, 0x00000509#32)] ∧
      readReg 0x20 s = 5#32 ∧ readReg 0x30 s = 24#32 ∧ readReg 0x08 s = 0x30#32 ∧ s.inQ = [0xB0#8] := by
  decide +kernel

/-- T7 and T8: a description that ends early, and one that nests too deep. -/
theorem test_desTree_errors :
    view (run 0x4#32 (fed [0x95#8] State.reset)) = [0x32#32, 0x40000003#32, 0#32] ∧
      view (run 0x4#32 (fed (List.replicate 33 0xFF#8) State.reset)) = [0x7022#32, 0x40000100#32, 0#32] := by
  decide +kernel

/-- E1, with the readback of the codeword of 0x41. -/
theorem test_buildTable :
    let s := run 0x5#32 loaded
    s.tbl = table1 ∧ readReg 0x08 s = 0x38#32 ∧ readReg 0x28 (wr 0x24 0x041#32 s) = 0x80000002#32 ∧
      readReg 0x2C (wr 0x24 0x041#32 s) = 0x80000000#32 := by decide +kernel

/-- E8: a byte leaf alone has no end of message; E9: a cycle. -/
theorem test_buildTable_errors :
    view (run 0x5#32 { State.reset with node := [(0, nodeOfWord 0x105#32)] }) = [0x32#32, 0x500001FF#32, 0#32] ∧
      view (run 0x5#32 { State.reset with node := cycle }) = [0x32#32, 0x50000000#32, 0#32] := by decide +kernel

/-- E10. -/
theorem test_encSym :
    (run 0x4106#32 built).outAcc = [true, false] ∧ view (run 0x4106#32 built) = [0x218#32, 0#32, 0#32] := by
  decide +kernel

/-- E13 and E11. -/
theorem test_encSym_errors :
    view (run 0x4306#32 built) = [0x3A#32, 0x60000043#32, 0#32] ∧
      view (run 0x4106#32 loaded) = [0x32#32, 0x60000000#32, 0#32] := by decide +kernel

/-- R142's worked example, and E12. -/
theorem test_encEom :
    (run 0x7#32 built).outAcc = [false] ∧ view (run 0x7#32 loaded) = [0x32#32, 0x70000000#32, 0#32] := by
  decide +kernel

/-- E16. -/
theorem test_encPad :
    let s := run 0x8#32 { State.reset with outAcc := [true, false, true, true, false], outBitpos := 5#32 }
    s.outEv = [.byte 0xB0#8, .flush] ∧ readReg 0x34 s = 8#32 ∧ readReg 0x08 s = 0x30#32 := by decide +kernel

/-- D1: the state V2 leaves, with one byte on IN. -/
theorem test_decSym :
    let s := run 0x9#32 (fed [0xB0#8] loaded)
    view s = [0x6020#32, 0#32, 0x80020041#32] ∧ readReg 0x38 s = 3#32 := by decide +kernel

/-- D3 and D4: end of message drops the padding bits, and a further DEC_SYM is an error; a path that ends with its byte
leaves the next byte on IN (R160). -/
theorem test_decSym_eom :
    let s := run 0x9#32 { loaded with inBuf := [false, false, false, false], inBitpos := 28#32, inPhase := .flowing }
    view s = [0x34#32, 0#32, 0x80010100#32] ∧ readReg 0x30 s = 32#32 ∧
      view (run 0x9#32 s) = [0x36#32, 0x90000000#32, 0x80010100#32] ∧
      (run 0x9#32 (fed [0xFF#8] { loaded with inBuf := [false], inPhase := .flowing })).inQ = [0xFF#8] := by
  decide +kernel

/-- E18, which is V1. -/
theorem test_encStream :
    let s := run 0xA#32 (fed [0x41#8, 0x42#8] loaded)
    s.outEv = [.byte 0x95#8, .byte 0x05#8, .byte 0x42#8, .byte 0xB0#8, .flush] ∧ readReg 0x08 s = 0x38#32 ∧
      readReg 0x30 s = 16#32 ∧ readReg 0x34 s = 32#32 := by decide +kernel

/-- E26: the second byte has no leaf. -/
theorem test_encStream_lookup :
    let s := run 0xA#32 (fed [0x41#8, 0x43#8] loaded)
    s.outEv = [.byte 0x95#8, .byte 0x05#8, .byte 0x42#8] ∧ s.outAcc = [true, false] ∧
      view s = [0x21A#32, 0xA0000043#32, 0#32] := by decide +kernel

/-- D11: nonzero padding and a trailing byte. -/
theorem test_decStream :
    let s := run 0xB#32 (fed [0x95#8, 0x05#8, 0x42#8, 0xB7#8, 0xFF#8] State.reset)
    s.outEv = [.byte 0x41#8, .byte 0x42#8, .flush] ∧ view s = [0x34#32, 0#32, 0x80010100#32] ∧ s.inQ = [0xFF#8] ∧
      readReg 0x30 s = 32#32 ∧ readReg 0x34 s = 16#32 := by decide +kernel

/-- D8: the last byte is missing. -/
theorem test_decStream_truncated :
    let s := run 0xB#32 (fed [0x95#8, 0x05#8, 0x42#8] State.reset)
    s.outEv = [] ∧ view s = [0x32#32, 0xB0000000#32, 0#32] ∧ readReg 0x20 s = 5#32 := by decide +kernel

/-- The root of a description that begins with bit 1 (R122). -/
theorem test_branch :
    let s := nextOf (exec .branch { State.reset with inBuf := [true, false], inPhase := .flowing })
    s.node = [(0, { kind := .branch, byte := 0#8, left := 1#10, right := 0#10 })] ∧ s.inBuf = [false] ∧
      s.desStack.length = 2 := by decide +kernel

/-- A right subtree that is a byte leaf: its branch's RIGHT is this entry (R121, R123). -/
theorem test_leafByte :
    let s := nextOf (exec (.leafByte 0x82#8) { State.reset with
      node := [(0, { kind := .branch, byte := 0#8, left := 1#10, right := 0#10 })], nodeCount := 2#11,
      desStack := [{ depth := 1, parent := 0#10, right := true }],
      inBuf := [false, true, true, false, false, false, false, false, true, false] })
    s.node = [(0, { kind := .branch, byte := 0#8, left := 1#10, right := 2#10 }),
        (2, { kind := .byte, byte := 0x82#8, left := 0#10, right := 0#10 })] ∧ s.desStack = [] ∧ s.inBuf = [] := by
  decide +kernel

/-- LEAF_EOM alone is the one-leaf tree (R124); with the store full it is CAPACITY. -/
theorem test_leafEom :
    (nextOf (exec .leafEom { State.reset with inBuf := [false, false] })).node =
        [(0, { kind := .eom, byte := 0#8, left := 0#10, right := 0#10 })] ∧
      (nextOf (exec .leafEom { State.reset with inBuf := [false, false], nodeCount := 1024#11 })).err =
        { set := true, code := .capacity, op := 0x4#4, value := 0#28 } := by decide +kernel

/-! ### The window, acceptance, reset -/

/-- A1 and A4. -/
theorem test_illegal_command :
    view (wr 0x04 0xC#32 State.reset) = [0x32#32, 0xC000000C#32, 0#32] ∧
      view (wr 0x04 0x4103#32 State.reset) = [0x32#32, 0x30004103#32, 0#32] := by decide +kernel

/-- A node word reads back with V set (R41); a ROOT write re-arms the decoder (D17). -/
theorem test_register_writes :
    readReg 0x1C (wr 0x1C 0x00801002#32 State.reset) = 0x00801402#32 ∧
      readReg 0x08 (wr 0x14 0#32 { loaded with eomSeen := true }) = 0x30#32 := by decide +kernel

/-- S2: hardware reset while the ENC_STREAM of E21 runs, after its first six port events. -/
theorem test_hardware_reset :
    let s := nextOf (step { fed [0x41#8, 0x41#8, 0x41#8, 0x41#8] loaded with
      cur := some 0xA#32, agenda := [.reset 6] })
    s.outEv = [.byte 0x95#8, .byte 0x05#8, .byte 0x42#8] ∧ s.inQ = [0x41#8] ∧ view s = [0x30#32, 0#32, 0#32] := by
  decide +kernel

/-- The very next step runs what is placed for it. -/
theorem test_withFetchWord :
    errCodeWord (nextOf (step (State.reset.withFetchWord 32 0x4106))) = 0xB#32 ∧
      (nextOf (step (State.reset.withFetchWord 16 0x141))).node =
        [(0, { kind := .byte, byte := 0x41#8, left := 0#10, right := 0#10 })] := by decide +kernel

/-- The node words and the command words of programs P1 and P2. -/
theorem test_host_programs :
    (nodeStmts 2#10 .branch 0#8 3#10 4#10).map busAction =
        [some (.write 0x18 4 2#32), some (.write 0x1C 4 0x01003002#32)] ∧
      (nodeStmts 3#10 .byte 0x41#8 0#10 0#10).map busAction =
        [some (.write 0x18 4 3#32), some (.write 0x1C 4 0x00000105#32)] ∧
      (decodeStepsStmts 0 12).filterMap busAction =
        [.write 0x04 4 0x4#32, .read 0x08 4, .write 0x04 4 0x9#32, .read 0x08 4, .read 0x08 4, .read 0x10 4] ∧
      htcPart ((nodeStmts 2#10 .branch 0#8 3#10 4#10).filterMap busAction) = [0x01003002#32] ∧
      commandWord (.encSym 0x41#8) = some 0x00004106#32 := by decide +kernel

/-- P1 after its loads: the fail branch makes no action, and CMD's word is all of the HTC part. -/
theorem test_encoding_P1 :
    let actions := encodeProgram 9 (cmdStmts 0 0xA#32 ++
        [.rd 1 0x08, .bf 1 0x2#32 0x2#32 7, .rd 2 0x34, .halt, .rd 3 0x0C, .halt]) (fed [0x41#8, 0x42#8] loaded)
    actions = [.write 0x04 4 0xA#32, .read 0x08 4, .read 0x08 4, .read 0x34 4] ∧ htcPart actions = [0xA#32] := by
  decide +kernel

/-- P2 from its second round on: each round of the loop makes its actions again. -/
theorem test_encoding_P2_rounds :
    busActions 17 { loaded with
        inBuf := [true, true, false, false, false, false], inPhase := .flowing
        host := { prog := decodeStepsStmts 0 12 ++ [.rd 3 0x30, .halt], next := 3, vars := [], data := none } } =
      [.write 0x04 4 0x9#32, .read 0x08 4, .read 0x08 4, .read 0x10 4,
        .write 0x04 4 0x9#32, .read 0x08 4, .read 0x08 4, .read 0x10 4, .read 0x30 4] := by decide +kernel

/-- A host program's write while BUSY = 1 is dropped (R202). -/
theorem test_host_write_while_busy :
    let s := nextOf (step { State.reset with
      cur := some 0x3#32, agenda := [.host], host := { State.reset.host with prog := [.wr 0x14 5#32] } })
    s.root = 0#10 ∧ s.dropped = true ∧ s.host.next = 1 := by decide +kernel

/-! ### Witnesses: for every statement with hypotheses, states and operands that meet them -/

/-- The node store of `loaded` holds t1. -/
theorem holds_tree1 : Holds loaded.node loaded.root tree1 :=
  ⟨_, rfl, rfl, ⟨_, rfl, rfl⟩, _, rfl, rfl, ⟨_, rfl, rfl, rfl⟩, _, rfl, rfl, rfl⟩

/-- Every execution has its next state. -/
theorem exec_eq (i : Instr) (s : State) : exec i s = .next (nextOf (exec i s)) := by
  obtain ⟨t, h⟩ := exec_next i s
  rw [h]
  rfl

theorem witness_WellFormedWordsAreTheEncodingsOfCommands : decodeWord 0x0000FF06#32 = .ok (.encSym 0xFF#8) := by decide

theorem witness_DescriptionIsSelfDelimiting : tree1.depth < 3 := by decide

/-- The least valid tree, and one with byte leaves. -/
theorem witness_DescriptionLength : Tree.eom.valid = true ∧ tree1.valid = true := by decide

theorem witness_StepRunsTheAcceptedCommand :
    ∃ s : State, s.cur = some 0xB#32 ∧ s.desStack = [] ∧ decodeWord 0xB#32 = .ok .decStream ∧ s.agenda = [.core] ∧
      exec .decStream { s with agenda := [] } = .next (nextOf (exec .decStream { s with agenda := [] })) :=
  ⟨{ State.reset with cur := some 0xB#32, agenda := [.core] }, rfl, rfl, by decide, rfl, exec_eq _ _⟩

/-- A description whose root is being read, under a command word. -/
def reading (w : Word) (bits : List Bool) : State :=
  { State.reset with cur := some w, desStack := [rootFrame], inBuf := bits, inPhase := .flowing }

/-- Each clause: more subtrees to come; DES_TREE at its last production; DEC_STREAM at its last production. -/
theorem witness_StepRunsTheNextProduction :
    (decodeProduction (pendingBits (reading 0x4#32 [true])) = .ok (.branch, []) ∧
      (nextOf (exec .branch (reading 0x4#32 [true]))).desStack ≠ []) ∧
    (decodeProduction (pendingBits (reading 0x4#32 [false, false])) = .ok (.leafEom, []) ∧
      (nextOf (exec .leafEom (reading 0x4#32 [false, false]))).desStack = [] ∧
      (nextOf (exec .leafEom (reading 0x4#32 [false, false]))).cur = some 0x4#32) ∧
    ((nextOf (exec .leafEom (reading 0xB#32 [false, false]))).desStack = [] ∧
      (nextOf (exec .leafEom (reading 0xB#32 [false, false]))).cur = some 0xB#32) ∧
    ((nextOf (exec .leafEom { reading 0x4#32 [false, false] with nodeCount := 1024#11 })).desStack = [] ∧
      (nextOf (exec .leafEom { reading 0x4#32 [false, false] with nodeCount := 1024#11 })).cur = none) := by
  decide +kernel

/-- Each clause: busy; an error and a word that does not pass; an ill-formed word; an accepted word, without and with an
error. -/
theorem witness_CommandAcceptance :
    ((reading 0x4#32 []).cur ≠ none) ∧
    (failed.cur = none ∧ failed.desStack = [] ∧ failed.err.set = true ∧ (0x3#32 : Word) ≠ 0x1#32 ∧ (0x3#32 : Word) ≠ 0x2#32) ∧
    (State.reset.cur = none ∧ State.reset.err.set = false ∧ cmdWellFormed 0xC#32 = false) ∧
    (State.reset.err.set = false ∧ cmdWellFormed 0xB#32 = true) ∧
    (failed.err.set = true ∧ cmdWellFormed 0x1#32 = true ∧ cmdWellFormed 0x2#32 = true) := by decide

/-- Each clause, at the last offset of the window. -/
theorem witness_WritesWhileBusyAreDropped :
    ∃ s t u : State, s.cur ≠ none ∧ t.cur ≠ none ∧ u.cur ≠ none ∧ 0xFC % 4 = 0 ∧ 0xFC < 0x100 ∧
      s.agenda = [.access (.write 0xFC 4 1#32)] ∧ t.agenda = [.busWrite (Config.htcBase + 0xFC) 4 1#32] ∧
      u.agenda = [.host] ∧ u.host.prog[u.host.next]? = some (.wr 0xFC 1#32) :=
  ⟨{ reading 0x4#32 [] with agenda := [.access (.write 0xFC 4 1#32)] },
    { reading 0x4#32 [] with agenda := [.busWrite (Config.htcBase + 0xFC) 4 1#32] },
    { reading 0x4#32 [] with agenda := [.host], host := { State.reset.host with prog := [.wr 0xFC 1#32] } },
    by decide, by decide, by decide, by decide, by decide, rfl, rfl, rfl, rfl⟩

/-- Each clause, at the bounds of its offsets. -/
theorem witness_HostReads :
    State.reset.cur = none ∧ (reading 0x4#32 []).cur ≠ none ∧ 0x08 % 4 = 0 ∧ 0x00 % 4 = 0 ∧ 0x40 % 4 = 0 ∧
      0x40 ≤ 0xFC ∧ 0xFC % 4 = 0 ∧ 0xFC < 0x100 ∧
      ({ State.reset.host with prog := [.rd 0 0x08] } : HostAgent).prog[0]? = some (.rd 0 0x08) := by decide

/-- Each clause: an offset of the window, the first bus address behind it, inadmissible accesses, and a host program's. -/
theorem witness_OnlyAdmissibleAccessesReachTheWindow :
    0xFF < 0x100 ∧ Config.htcBase + 0x100 ≤ Config.htcBase + 0x100 ∧ accessAdmitted 0x00 1 = false ∧
      accessAdmitted 0xFD 4 = false ∧ accessAdmitted 0x100 4 = false ∧
      ({ State.reset.host with prog := [.rd 0 0x100] } : HostAgent).prog[0]? = some (.rd 0 0x100) :=
  ⟨by decide, Nat.le_refl _, by decide, by decide, by decide, rfl⟩

theorem witness_StatusWordFields :
    (List.replicate 8 true).length ≤ 8 ∧ (List.replicate 7 true).length ≤ 7 := by decide

theorem witness_NodeDataWrite :
    ∃ s : State, s.agenda = [.access (.write 0x1C 4 0xFFFFFFFF#32)] ∧ s.cur = none :=
  ⟨{ loaded with agenda := [.access (.write 0x1C 4 0xFFFFFFFF#32)] }, rfl, rfl⟩

/-- The last clause at the first and the last offset of the window. -/
theorem witness_RootAndSelectorWrites_others :
    0x00 ∉ [0x04, 0x14, 0x18, 0x1C, 0x24] ∧ 0xFC ∉ [0x04, 0x14, 0x18, 0x1C, 0x24] ∧ 0xFC % 4 = 0 ∧ 0xFC < 0x100 ∧
      ∃ s : State, s.cur = none ∧ s.agenda = [.access (.write 0xFC 4 1#32)] :=
  ⟨by decide, by decide, by decide, by decide, { loaded with agenda := [.access (.write 0xFC 4 1#32)] }, rfl, rfl⟩

/-- An error recorded; each KIND at an entry that NODE_ADDR selects. -/
theorem witness_RegisterReadback :
    failed.err.code = .illegalCmd ∧
      ∀ k ∈ [Kind.eom, .byte, .branch, .reserved], ∃ n, Memory.get [(0, nodeOfWord 0#32), (1, nodeOfWord 1#32),
        (2, nodeOfWord 2#32), (3, nodeOfWord 3#32)] (kindBits k).toNat = some n ∧ n.kind = k := by
  refine ⟨rfl, ?_⟩
  intro k hk
  cases k <;> exact ⟨_, rfl, by decide⟩

theorem witness_RootAndSelectorWrites :
    ∃ s t u : State, s.cur = none ∧ t.cur = none ∧ u.cur = none ∧
      s.agenda = [.access (.write 0x14 4 0xFFFFFFFF#32)] ∧ t.agenda = [.access (.write 0x18 4 0xFFFFFFFF#32)] ∧
      u.agenda = [.access (.write 0x24 4 0xFFFFFFFF#32)] :=
  ⟨{ loaded with agenda := [.access (.write 0x14 4 0xFFFFFFFF#32)] },
    { loaded with agenda := [.access (.write 0x18 4 0xFFFFFFFF#32)] },
    { loaded with agenda := [.access (.write 0x24 4 0xFFFFFFFF#32)] }, rfl, rfl, rfl, rfl, rfl, rfl⟩

/-- Each clause: symbol 256 selected, and symbol 257. -/
theorem witness_TableReadback :
    (256#9).toNat ≤ 256 ∧ built.tbl.get (256#9).toNat = some [false] ∧ 256 < (257#9).toNat := by decide

/-- An idle core, and one that runs a command with port events to make. -/
theorem witness_HardwareReset :
    ∃ s t u : State, s.agenda = [.reset 0] ∧ s.cur = none ∧ t.agenda = [.reset 3] ∧ t.cur = some 0xA#32 ∧
      coreStep { t with agenda := [], portLog := [] } = .next u ∧ u.portLog.length = 6 :=
  ⟨{ loaded with agenda := [.reset 0] }, { fed [0x41#8] loaded with agenda := [.reset 3], cur := some 0xA#32 },
    nextOf (exec .encStream { fed [0x41#8] loaded with cur := some 0xA#32 }), rfl, rfl, rfl, rfl,
    exec_eq .encStream { fed [0x41#8] loaded with cur := some 0xA#32 }, by decide +kernel⟩

theorem witness_SerTreeWritesTheDescription :
    Holds loaded.node loaded.root tree1 ∧ tree1.depth ≤ 256 ∧ loaded.outAcc.length ≤ 7 :=
  ⟨holds_tree1, by decide, by decide⟩

/-- At ROOT: no valid entry; the reserved kind. -/
theorem witness_TraversalFaults_root :
    State.reset.node.get State.reset.root.toNat = none ∧
      ∃ e, Memory.get [(0, nodeOfWord 3#32)] 0 = some e ∧ e.kind = .reserved :=
  ⟨by decide, ⟨_, rfl, by decide⟩⟩

/-- A descent that goes round the cycle of T14 leads to ROOT again, at any depth. -/
theorem cycle_descends (n : Nat) : Descends cycle 0#10 (List.replicate n none) 0#10 := by
  induction n with
  | zero => rfl
  | succ n ih => exact ⟨_, rfl, by decide, ih⟩

/-- On a descent: T12's and T13's entry 2, behind a left subtree; and the cycle of T14 at depth 257. -/
theorem witness_TraversalFaults_descent :
    (Descends (t1.take 2) 0#10 [some .eom] 2#10 ∧ RefusedNode (t1.take 2) 2#10 .nodeUninit ∧
      descentFits 0 [some .eom] ∧ (descentSymbols [some .eom]).Nodup) ∧
    RefusedNode (t1.take 2 ++ [(2, nodeOfWord 3#32)]) 2#10 .nodeKind ∧
    (Descends cycle 0#10 (List.replicate 257 none) 0#10 ∧ (List.replicate 257 (none : Option Tree)).length = 257 ∧
      Descends cycle 0#10 ((List.replicate 257 none).take 256) 0#10) :=
  ⟨⟨⟨_, rfl, by decide, ⟨_, rfl, by decide⟩, rfl⟩, .inl ⟨by decide, rfl⟩, ⟨by decide, trivial⟩, by decide⟩,
    .inr ⟨_, rfl, by decide, rfl⟩, cycle_descends 257, List.length_replicate,
    by rw [List.take_replicate]; exact cycle_descends 256⟩

/-- On a path: an entry of T12 that is not valid, and a branch at depth 256 on the cycle of T14 (D14). -/
theorem witness_TraversalFaults_path :
    (nodeOnPath (t1.take 2) 0#10 [true] = some 2#10 ∧ RefusedNode (t1.take 2) 2#10 .nodeUninit) ∧
      nodeOnPath cycle 0#10 (List.replicate 256 false) = some 0#10 ∧
      (∃ e, cycle.get 0 = some e ∧ e.kind = .branch) ∧
      pendingBits { State.reset with inBuf := List.replicate 256 false } = List.replicate 256 false ++ [] :=
  ⟨⟨by decide, .inl ⟨by decide, rfl⟩⟩, by decide +kernel, ⟨_, rfl, by decide⟩, rfl⟩

theorem witness_DesTreeLoadsTheTree :
    pendingBits (fed [0x95#8, 0x05#8, 0x42#8, 0xB0#8] State.reset) = desc tree1 ++ byteBits 0xB0#8 ∧
      tree1.depth ≤ 256 ∧ tree1.size ≤ 1024 := by decide

theorem witness_DesTreeTruncated :
    pendingBits (fed [0x95#8, 0x05#8] State.reset) ++ byteBits 0x42#8 = desc tree1 ∧ byteBits 0x42#8 ≠ [] := by decide

/-- The way down 256 left branches, and one on which exactly 1024 nodes are read. -/
def deep : List (Option Tree) := List.replicate 257 none

/-- The greatest number of nodes that still ends in DEPTH. -/
def wide : List (Option Tree) := [some (full 8), some (full 7), some .eom] ++ List.replicate 254 none

/-- The DEPTH clause: ways of 257 branches with at most 1024 nodes. -/
theorem witness_DesTreeBounds_depth :
    deep.length = 257 ∧ descentNodes deep ≤ 1024 ∧ wide.length = 257 ∧ descentNodes wide = 1024 ∧
      descentFits 0 deep ∧ descentFits 0 wide ∧
      pendingBits { State.reset with inBuf := descentBits wide } = descentBits wide ++ [] := by
  have h : ∀ n d, descentFits d (List.replicate n none) := by
    intro n
    induction n with
    | zero => intro d; trivial
    | succ n ih => intro d; exact ih (d + 1)
  refine ⟨by decide +kernel, by decide +kernel, by decide +kernel, by decide +kernel, h _ _,
    ⟨by decide +kernel, by decide +kernel, by decide, h _ _⟩, ?_⟩
  rfl

/-- The CAPACITY clause. -/
theorem witness_DesTreeBounds_capacity :
    pendingBits { State.reset with inBuf := desc (full 10) } = desc (full 10) ++ [] ∧ (full 10).depth ≤ 256 ∧
      1024 < (full 10).size := by
  refine ⟨rfl, ?_, ?_⟩
  · decide +kernel
  · decide +kernel

theorem witness_SerTreeAfterDesTreeWritesTheBitsRead :
    ∃ s t v : State, s.err.set = false ∧ exec .desTree s = .next t ∧ t.err.set = false ∧ v.node = t.node ∧
      v.root = t.root ∧ v.outAcc.length ≤ 7 :=
  ⟨fed [0x95#8, 0x05#8, 0x42#8] State.reset, _, nextOf (exec .desTree (fed [0x95#8, 0x05#8, 0x42#8] State.reset)), rfl,
    exec_eq _ _, by decide +kernel, rfl, rfl, by decide +kernel⟩

/-- At the greatest depth and the last entry. -/
def lastNode (bits : List Bool) : State :=
  { State.reset with nodeCount := 1023#11, desStack := [{ depth := 256, parent := 0#10, right := true }], inBuf := bits }

theorem witness_BranchProduction :
    ((lastNode [true]).desStack.headD rootFrame).depth ≤ 256 ∧ (lastNode [true]).nodeCount.toNat < 1024 ∧
      pendingBits (lastNode [true]) = true :: [] := by decide

theorem witness_LeafProductions :
    ((lastNode []).desStack.headD rootFrame).depth ≤ 256 ∧ (lastNode []).nodeCount.toNat < 1024 ∧
      pendingBits (lastNode (false :: true :: byteBits 0xFF#8)) = false :: true :: (byteBits 0xFF#8 ++ []) ∧
      pendingBits (lastNode [false, false]) = false :: false :: [] := by decide

theorem witness_ProductionStepsAgreeWithDesTree :
    ∃ s : State, s.cur = some 0x4#32 ∧ s.desStack = [] ∧ s.agenda = [] ∧ s.inQ = [0x95#8, 0x05#8, 0x42#8] :=
  ⟨fed [0x95#8, 0x05#8, 0x42#8] { State.reset with cur := some 0x4#32 }, rfl, rfl, rfl, rfl⟩

theorem witness_BuildTableOfAValidTree :
    Holds loaded.node loaded.root tree1 ∧ tree1.depth ≤ 256 ∧ tree1.valid = true :=
  ⟨holds_tree1, by decide, by decide⟩

/-- Each clause: a tree without end of message (E8), and one with a second leaf for a symbol (E7). -/
theorem witness_BuildTableOfAnInvalidTree :
    Holds (layout 0 (.byte 0x41#8)) 0#10 (.byte 0x41#8) ∧ (Tree.byte 0x41#8).valid = false ∧
      Holds (layout 0 (.branch .eom .eom)) 0#10 (.branch .eom .eom) ∧ (Tree.branch .eom .eom).valid = false ∧
      State.reset.inBuf = [] ∧ State.reset.outAcc = [] :=
  ⟨⟨_, rfl, rfl, rfl⟩, by decide, ⟨_, rfl, rfl, ⟨_, rfl, rfl⟩, _, rfl, rfl⟩, by decide, rfl, rfl⟩

theorem witness_BuiltTableIsPrefixFree :
    ∃ t : State, exec .buildTable loaded = .next t ∧ t.tableValid = true ∧ (0x41 : Nat) ≠ 256 ∧
      t.tbl.get 0x41 = some [true, false] ∧ t.tbl.get 256 = some [false] :=
  ⟨_, exec_eq _ _, by decide +kernel, by decide, by decide +kernel, by decide +kernel⟩

/-- Each clause, with seven bits in hand. -/
theorem witness_EncSymAndEncEomWriteTheCodeword :
    (List.replicate 7 false).length ≤ 7 ∧ built.tableValid = true ∧
      built.tbl.get (0x41#8 : Byte).toNat = some [true, false] ∧ built.tbl.get 256 = some [false] := by decide

/-- Each clause. -/
theorem witness_EncSymAndEncEomErrors :
    loaded.tableValid = false ∧ built.tableValid = true ∧ built.tbl.get (0x43#8 : Byte).toNat = none := by decide

theorem witness_EncPadAlignsAndFlushes : (List.replicate 7 true).length ≤ 7 := by decide

theorem witness_EncStreamWritesTheCompressedStream :
    Holds loaded.node loaded.root tree1 ∧ tree1.depth ≤ 256 ∧ tree1.valid = true ∧ loaded.inBuf = [] ∧
      loaded.outAcc = [] ∧ pendingBits (fed [0x41#8, 0x42#8] loaded) = bytesBits [0x41#8, 0x42#8] ∧
      streamBits tree1 [0x41#8, 0x42#8] = some (desc tree1 ++ [true, false, true, true] ++ [false]) :=
  ⟨holds_tree1, by decide, by decide, rfl, rfl, by decide, by decide⟩

theorem witness_EncStreamLookupError :
    Holds loaded.node loaded.root tree1 ∧ tree1.depth ≤ 256 ∧ tree1.valid = true ∧
      pendingBits (fed [0x41#8, 0x43#8] loaded) = bytesBits ([0x41#8] ++ 0x43#8 :: []) ∧
      codewordsOf tree1 [0x41#8] = some [true, false] ∧ tree1.codeword (symOfByte 0x43#8) = none :=
  ⟨holds_tree1, by decide, by decide, by decide, by decide, by decide⟩

theorem witness_StepCommandsSendTheSameEvents :
    ∃ s s' t u : State, s.err.set = false ∧ s.inBuf = [] ∧ s.outAcc = [] ∧ pendingBits s = bytesBits [0x41#8] ∧
      exec .encStream s = .next t ∧ t.err.set = false ∧
      s' = { s with inBuf := s'.inBuf, inBitpos := s'.inBitpos, inQ := s'.inQ, inPhase := s'.inPhase } ∧
      execAll (stepEncode [0x41#8]) s' = .next u ∧ u.err.set = false :=
  ⟨fed [0x41#8] loaded, loaded, _, nextOf (execAll (stepEncode [0x41#8]) loaded), rfl, rfl, rfl, by decide,
    exec_eq _ _, by decide +kernel, rfl, rfl, by decide +kernel⟩

/-- Each clause: a byte leaf; the end-of-message leaf with bits behind it; and one whose path ends with its byte. -/
theorem witness_DecSymDecodesOneLeaf :
    Holds loaded.node loaded.root tree1 ∧ (0x41#9, [true, false]) ∈ tree1.codewords ∧
      (256#9, [false]) ∈ tree1.codewords ∧ (∀ v, tree1 ≠ .byte v) ∧ loaded.eomSeen = false ∧
      pendingBits (fed [0xB0#8] loaded) = [true, false] ++ [true, true, false, false, false, false] ∧
      pendingBits (fed [0x00#8] loaded) = [false] ++ List.replicate 7 false ∧ 7 = bitsLeft 0 1 ∧
      pendingBits (fed [0xFF#8] { loaded with inBuf := [false], inPhase := .flowing }) =
        [false] ++ List.replicate 8 true ∧ 0 = bitsLeft 1 1 :=
  ⟨holds_tree1, by decide, by decide, (by intro v h; cases h), rfl, by decide, by decide, by decide, by decide,
    by decide⟩

/-- IN that is empty, and IN that ends after one bit. -/
theorem witness_DecSymEndOfStream :
    Holds loaded.node loaded.root tree1 ∧ (0x41#9, [true, false]) ∈ tree1.codewords ∧ loaded.eomSeen = false ∧
      pendingBits loaded ++ [true, false] = [true, false] ∧
      pendingBits { loaded with inBuf := [true] } ++ [false] = [true, false] :=
  ⟨holds_tree1, by decide, rfl, by decide, by decide⟩

/-- Each clause. -/
theorem witness_DecodeAndStreamStartChecks :
    ({ loaded with eomSeen := true } : State).eomSeen = true ∧ loaded.eomSeen = false ∧
      Holds (layout 0 (.byte 0x41#8)) 0#10 (.byte 0x41#8) ∧ ({ loaded with inBuf := [true] } : State).inBuf ≠ [] ∧
      ({ loaded with outAcc := [true] } : State).outAcc ≠ [] :=
  ⟨rfl, rfl, ⟨_, rfl, rfl, rfl⟩, by decide, by decide⟩

theorem witness_DecStreamDecompresses :
    tree1.depth ≤ 256 ∧ tree1.size ≤ 1024 ∧ tree1.valid = true ∧
      streamBits tree1 [0x41#8, 0x42#8] = some (desc tree1 ++ [true, false, true, true, false]) ∧
      tree1.codeword 256#9 = some [false] ∧
      pendingBits (fed [0x95#8, 0x05#8, 0x42#8, 0xB7#8, 0xFF#8] State.reset) =
        (desc tree1 ++ [true, false, true, true, false]) ++ ([true, true, true] ++ byteBits 0xFF#8) := by decide

theorem witness_StreamRoundTrip :
    Holds loaded.node loaded.root tree1 ∧ tree1.valid = true ∧
      (∀ b ∈ [0x41#8, 0x42#8], (tree1.codeword (symOfByte b)).isSome = true) ∧ loaded.inBuf = [] ∧
      loaded.outAcc = [] ∧ pendingBits (fed [0x41#8, 0x42#8] loaded) = bytesBits [0x41#8, 0x42#8] ∧
      State.reset.inBuf = [] ∧ State.reset.outAcc = [] :=
  ⟨holds_tree1, by decide, by decide, rfl, rfl, by decide, rfl, rfl⟩

theorem witness_TruncationIsDetected :
    ∃ t : State, exec .encStream (fed [0x41#8, 0x42#8] loaded) = .next t ∧
      t.outEv = [] ++ [0x95#8, 0x05#8, 0x42#8, 0xB0#8].map OutEvent.byte ++ [.flush] ∧
      pendingBits (fed [0x95#8, 0x05#8, 0x42#8] State.reset) =
        bytesBits [0x95#8, 0x05#8, 0x42#8, 0xB0#8].dropLast :=
  ⟨_, exec_eq _ _, by decide +kernel, by decide⟩

theorem witness_StreamLoopsEnd :
    (pendingBits State.reset).length < 1 ∧ loaded.inBuf = [] ∧ (fed [0x41#8] loaded).inQ.length < 2 := by decide

/-- Any instruction from any state, here each family once. -/
theorem witness_FramesOfCommands :
    (∃ t, exec .serTree loaded = .next t) ∧ (∃ t, exec .buildTable loaded = .next t) ∧
      (∃ t, exec (.encSym 0x41#8) built = .next t) ∧ (∃ t, exec .decSym loaded = .next t) ∧
      (∃ t, exec .desTree State.reset = .next t) ∧ (∃ t, exec .encStream loaded = .next t) ∧
      (∃ t, exec .decStream State.reset = .next t) ∧ (∃ t, exec .branch (reading 0x4#32 [true]) = .next t) :=
  ⟨exec_next _ _, exec_next _ _, exec_next _ _, exec_next _ _, exec_next _ _, exec_next _ _, exec_next _ _,
    exec_next _ _⟩

theorem witness_PortsConserveBytes :
    ∃ t, exec .encStream (fed [0x41#8] loaded) = .next t ∧ t.portLog ≠ [] :=
  ⟨_, exec_eq _ _, by decide +kernel⟩

/-- The same run meets the hypotheses of `ErrorsAreThoseOfTheCommand`, up to `StoreInv`. -/
theorem witness_ARaiseSendsNoFlush :
    ∃ t, exec .decStream (fed [0x95#8, 0x05#8, 0x42#8] State.reset) = .next t ∧ State.reset.err.set = false ∧
      t.err.set = true :=
  ⟨_, exec_eq _ _, rfl, by decide +kernel⟩

/-- The stores of the reset state are in form. -/
theorem storeInv_fed (bytes : List Byte) : StoreInv (fed bytes State.reset) :=
  ⟨rfl, rfl, Nat.zero_le _, (by intro k cw h; cases h), fun _ => rfl, (by intro h; cases h)⟩

theorem witness_ErrorsAreThoseOfTheCommand :
    ∃ t, opcode .decStream = some 0xB#4 ∧ StoreInv (fed [0x95#8, 0x05#8, 0x42#8] State.reset) ∧
      exec .decStream (fed [0x95#8, 0x05#8, 0x42#8] State.reset) = .next t ∧ t.err.set = true :=
  ⟨_, rfl, storeInv_fed _, exec_eq _ _, by decide +kernel⟩

/-- An error recorded, and CLR_ERR accepted. -/
theorem witness_ErrorStaysUntilAcknowledged :
    ∃ s t : State, ErrorInv s ∧ SequencerInv s ∧ step s = .next t ∧ s.err.set = true := by
  refine ⟨{ failed with cur := some 0x1#32 }, _, ⟨?_, ?_⟩, ⟨?_, ?_⟩, rfl, rfl⟩
  · intro h; cases h
  · intro _; exact .inr (.inl rfl)
  · intro w h; cases h; decide
  · intro h; exact absurd rfl h

theorem witness_EndOfStreamIsFinal :
    ∃ s t : State, s.inPhase = .eos ∧ step s = .next t :=
  ⟨{ loaded with inPhase := .eos, cur := some 0x9#32 }, _, rfl, exec_eq .decSym _⟩

/-- The environment's clauses: presenting while fresh, and not; delivering before `EOS`, and after it. -/
theorem witness_EndOfStreamIsFinal_environment :
    ∃ s t u v : State, s.agenda = [.present [1#8]] ∧ s.inPhase = .fresh ∧ t.agenda = [.present [1#8]] ∧
      t.inPhase ≠ .fresh ∧ u.agenda = [.deliver [1#8]] ∧ u.inPhase ≠ .eos ∧ v.agenda = [.deliver [1#8]] ∧
      v.inPhase = .eos :=
  ⟨{ loaded with agenda := [.present [1#8]] }, { loaded with agenda := [.present [1#8]], inPhase := .flowing },
    { loaded with agenda := [.deliver [1#8]], inPhase := .flowing },
    { loaded with agenda := [.deliver [1#8]], inPhase := .eos }, rfl, rfl, rfl, by decide, rfl, by decide, rfl, rfl⟩

theorem witness_SelectorsDoNotInfluenceInstructions :
    ∃ t, Instr.encStream ≠ .softReset ∧ exec .encStream (fed [0x41#8] loaded) = .next t :=
  ⟨_, by decide, exec_eq _ _⟩

/-- The machine with ENC_SYM accepted, the table of t1 built and five bits in each cursor. -/
def working : State :=
  { built with
    cur := some 0x4106#32, inBuf := [true, false, true, false, true], inBitpos := 3#32,
    outAcc := [true, false, true, false, true], outBitpos := 5#32, inPhase := .flowing, inQ := [0xFF#8] }

/-- One state that meets every invariant, and takes a step. -/
theorem witness_invariants :
    CursorInv working ∧ StoreInv working ∧ ErrorInv working ∧ SequencerInv working ∧ TableInv working ∧
      ∃ t, step working = .next t := by
  refine ⟨⟨by decide, by decide, by decide, by decide, ?_⟩, ⟨by decide, by decide, by decide, ?_, ?_, ?_⟩, ⟨?_, ?_⟩,
    ⟨?_, ?_⟩, ⟨?_, ?_⟩, ⟨_, exec_eq (.encSym 0x41#8) _⟩⟩
  · intro h; cases h
  · intro k cw h
    have h' : Memory.get table1 k = some cw := h
    simp only [table1, Memory.get] at h'
    split at h'
    · cases h'; decide
    · split at h'
      · cases h'; decide
      · split at h'
        · cases h'; decide
        · cases h'
  · intro h; cases h
  · intro _; decide
  · intro _; rfl
  · intro h; cases h
  · intro w h; cases h; decide
  · intro h; exact absurd rfl h
  · intro _
    have h : (match buildTableBody working with
        | .ok _ t => decide (t = working)
        | .error _ _ => false) = true := by decide +kernel
    cases hb : buildTableBody working with
    | ok u t =>
      rw [hb] at h
      have ht : t = working := of_decide_eq_true h
      exact ⟨t, rfl, by rw [ht]⟩
    | error e t => rw [hb] at h; cases h
  · intro h; exact absurd rfl h

/-- By default with an empty agenda, and on the host's event. -/
theorem witness_HostStatements :
    ∃ s t : State, s.cur = none ∧ s.agenda = [] ∧ s.host.prog[s.host.next]? = some (.rd 0 0x3C) ∧
      accessAdmitted 0x3C 4 = true ∧ t.agenda = [.host] ∧ t.host.prog[t.host.next]? = some .halt :=
  ⟨{ State.reset with host := { State.reset.host with prog := [.rd 0 0x3C] } },
    { State.reset with agenda := [.host], host := { State.reset.host with prog := [.halt] } }, rfl, rfl, rfl,
    by decide, rfl, rfl⟩

/-- A host program with one statement of each form. -/
theorem witness_HostStatements_forms :
    ∀ st ∈ [HostStmt.wr 0x14 0#32, .rd 0 0x08, .bf 0 1#32 1#32 0, .bnf 0 1#32 1#32 0, .jmp 0, .halt],
      ∃ s : State, s.cur = none ∧ s.agenda = [] ∧ s.host.prog[s.host.next]? = some st := by
  intro st _
  exact ⟨{ State.reset with host := { State.reset.host with prog := [st] } }, rfl, rfl, rfl⟩

end Sys2Proof.Tests
end

section
/-! SUPPORT. What one step of the machine can do, said once: which agent moves, what a host write does, how a command
and a production end, and what the core's step does to the sequencer and the error record. -/

namespace Sys2Proof.Machine

/-! ### The agents -/

/-- What a host write of an admitted offset can do to HTC (R61, R201, R202). -/
inductive Written (s : State) : State → Prop where
  | nothing : Written s s
  | dropped : Written s (drop s)
  | accepted (w : Word) (idle : s.cur = none) (wf : cmdWellFormed w = true)
      (pass : s.err.set = true → passesError w = true) : Written s (accept w s)
  | illegal (w : Word) (idle : s.cur = none) (noError : s.err.set = false) : Written s (illegalCommand w s)
  | root (w : Word) : Written s (writeRoot w s)
  | nodeAddr (w : Word) : Written s (writeNodeAddr w s)
  | nodeData (w : Word) : Written s (writeNodeData w s)
  | tblSel (w : Word) : Written s (writeTblSel w s)

/-- The words that pass while ERR = 1 are those of CLR_ERR and SOFT_RESET (R201). -/
theorem passesError_iff {w : Word} : passesError w = true ↔ w = 0x00000001#32 ∨ w = 0x00000002#32 := by
  simp [passesError]

theorem cmdWrite_written {s : State} (w : Word) (hc : s.cur = none) : Written s (cmdWrite w s) := by
  unfold cmdWrite
  by_cases hdrop : (s.err.set && !passesError w) = true
  · rw [if_pos hdrop]; exact .dropped
  rw [if_neg hdrop]
  have hpass : s.err.set = true → passesError w = true := by simpa using hdrop
  by_cases hwf : cmdWellFormed w = true
  · rw [if_pos hwf]; exact .accepted w hc hwf hpass
  rw [if_neg hwf]
  refine .illegal w hc (Bool.eq_false_iff.mpr fun herr => hwf ?_)
  rcases passesError_iff.mp (hpass herr) with rfl | rfl <;> decide

theorem busWrite_written (off : Nat) (w : Word) (s : State) : Written s (busWrite off w s) := by
  cases hb : busy s with
  | true => rw [busWrite_busy off w hb]; exact .dropped
  | false =>
    rw [busWrite_idle off w hb]
    have hc : s.cur = none := by simpa [busy] using hb
    unfold writeReg
    split
    · exact cmdWrite_written w hc
    · exact .root w
    · exact .nodeAddr w
    · exact .nodeData w
    · exact .tblSel w
    · exact .nothing

/-- A host read advances the model's counter at most (R250). -/
theorem busRead_state (off : Nat) (s : State) : ∃ n, (busRead off s).2 = { s with freeCtr := n } := by
  unfold busRead
  split
  · exact ⟨s.freeCtr, rfl⟩
  split
  · exact ⟨s.freeCtr, rfl⟩
  split
  · exact ⟨s.freeCtr, rfl⟩
  · exact ⟨s.freeCtr + 1, by dsimp only; split <;> rfl⟩

/-- What a step of an agent other than the core does (R4): the host reads or goes on in its program, or writes; the
environment presents or delivers bytes. -/
inductive AgentMove (s : State) : State → Prop where
  | host (h : HostAgent) (n : Nat) : AgentMove s { s with host := h, freeCtr := n }
  | write (h : HostAgent) {t : State} (hw : Written { s with host := h } t) : AgentMove s t
  | present (bytes : List Byte) (hp : s.inPhase = .fresh) : AgentMove s { s with inQ := bytes }
  | deliver (bytes : List Byte) (hp : s.inPhase ≠ .eos) : AgentMove s { s with inQ := s.inQ ++ bytes }

/-- The outcome is a refusal, or a move of an agent other than the core. -/
def RefusedOrMoved (s : State) (o : Host.Outcome State Fault Refusal) : Prop :=
  (∃ r, o = .refused r) ∨ ∃ t, o = .next t ∧ AgentMove s t

theorem accessStep_moves (a : Access) (h : HostAgent) (s : State) :
    RefusedOrMoved s (accessStep a { s with host := h }) := by
  cases a with
  | read off width =>
    cases hr : accessRefusal off width with
    | some r => exact .inl ⟨r, by simp only [accessStep, hr]⟩
    | none =>
      obtain ⟨n, hn⟩ := busRead_state off { s with host := h }
      refine .inr ⟨giveData (busRead off { s with host := h }), by simp only [accessStep, hr], ?_⟩
      rw [giveData, hn]
      exact .host _ n
  | write off width w =>
    cases hr : accessRefusal off width with
    | some r => exact .inl ⟨r, by simp only [accessStep, hr]⟩
    | none => exact .inr ⟨_, by simp only [accessStep, hr], .write h (busWrite_written off w _)⟩

theorem busStep_moves (addr : Nat) (access : Nat → Access) (s : State) :
    RefusedOrMoved s (busStep addr access s) := by
  unfold busStep
  cases windowOffset addr with
  | none => exact .inl ⟨_, rfl⟩
  | some off => exact accessStep_moves (access off) s.host s

theorem hostStep_moves (s : State) : RefusedOrMoved s (hostStep s) := by
  unfold hostStep
  split
  · exact .inr ⟨_, rfl, .host s.host s.freeCtr⟩
  · exact .inr ⟨_, rfl, .host s.host s.freeCtr⟩
  · exact accessStep_moves _ _ s
  · rename_i var off _
    cases accessRefusal off 4 with
    | some r => exact .inl ⟨r, rfl⟩
    | none =>
      obtain ⟨n, hn⟩ := busRead_state off (hostGoto (s.host.next + 1) s)
      refine .inr ⟨_, rfl, ?_⟩
      rw [setHostVar, giveData, hn]
      exact .host _ n
  · exact .inr ⟨_, rfl, .host _ s.freeCtr⟩
  · exact .inr ⟨_, rfl, .host _ s.freeCtr⟩
  · exact .inr ⟨_, rfl, .host _ s.freeCtr⟩

theorem presentStep_moves (bytes : List Byte) (s : State) : RefusedOrMoved s (presentStep bytes s) := by
  unfold presentStep
  split
  · exact .inr ⟨_, rfl, .present bytes ‹_›⟩
  · exact .inl ⟨_, rfl⟩

theorem deliverStep_moves (bytes : List Byte) (s : State) : RefusedOrMoved s (deliverStep bytes s) := by
  unfold deliverStep
  split
  · exact .inl ⟨_, rfl⟩
  · exact .inr ⟨_, rfl, .deliver bytes ‹_›⟩

/-- Everything a step can be, `rest` being the agenda that is left: the core's step, a hardware reset, or a refusal or a
move of another agent. -/
theorem step_cases (s : State) : ∃ rest,
    step s = coreStep { s with agenda := rest } ∨
      (∃ k, s.agenda = .reset k :: rest ∧ step s = .next (hardReset k { s with agenda := rest })) ∨
      RefusedOrMoved { s with agenda := rest } (step s) := by
  cases ha : s.agenda with
  | nil =>
    refine ⟨s.agenda, ?_⟩
    rcases Option.eq_none_or_eq_some s.cur with hc | ⟨w, hc⟩
    · exact .inr (.inr (step_idle ha hc ▸ hostStep_moves s))
    · exact .inl (step_busy ha hc)
  | cons e rest =>
    refine ⟨rest, ?_⟩
    rw [step_event ha]
    cases e with
    | core => exact .inl rfl
    | host => exact .inr (.inr (hostStep_moves _))
    | access a => exact .inr (.inr (accessStep_moves a s.host _))
    | busRead addr width => exact .inr (.inr (busStep_moves addr _ _))
    | busWrite addr width w => exact .inr (.inr (busStep_moves addr _ _))
    | reset k => exact .inr (.inl ⟨k, rfl, rfl⟩)
    | present bytes => exact .inr (.inr (presentStep_moves bytes _))
    | deliver bytes => exact .inr (.inr (deliverStep_moves bytes _))

/-- Who made a step that has a next state. -/
theorem step_next {s t : State} (h : step s = .next t) : ∃ rest,
    coreStep { s with agenda := rest } = .next t ∨
      (∃ k, s.agenda = .reset k :: rest ∧ t = hardReset k { s with agenda := rest }) ∨
      AgentMove { s with agenda := rest } t := by
  obtain ⟨rest, hr | ⟨k, ha, hr⟩ | ⟨r, hr⟩ | ⟨u, hr, hm⟩⟩ := step_cases s <;> rw [hr] at h
  · exact ⟨rest, .inl h⟩
  · cases h; exact ⟨rest, .inr (.inl ⟨k, ha, rfl⟩)⟩
  · cases h
  · cases h; exact ⟨rest, .inr (.inr hm)⟩

/-! ### Commands and productions -/

/-- The action of an instruction's pseudocode. -/
def instrBody : Instr → Act Unit
  | .nop => pure ()
  | .clrErr => update clearError
  | .softReset => update resetState
  | .serTree => serTreeBody
  | .desTree => desTreeBody
  | .buildTable => buildTableBody
  | .encSym arg => encSymBody (symOfByte arg)
  | .encEom => encSymBody Config.eom
  | .encPad => encPadBody
  | .decSym => decSymBody
  | .encStream => encStreamBody
  | .decStream => decStreamBody
  | .branch => branchBody
  | .leafByte v => leafByteBody v
  | .leafEom => leafEomBody

/-- A command runs its action and ends with its OP (R92, R201). -/
theorem exec_command {i : Instr} {op : BitVec 4} (h : opcode i = some op) (s : State) :
    exec i s = .next (settle op (instrBody i s)) := by
  cases i <;> cases h <;> rfl

/-- A production runs its action, and the command that reads the description goes on or ends with its raise. -/
theorem exec_production {i : Instr} (h : opcode i = none) (s : State) :
    exec i s = .next (settleProduction (instrBody i s)) := by
  cases i <;> cases h <;> rfl

/-- Only commands have a word (R92). -/
theorem opcode_of_decodeWord {w : Word} {i : Instr} (h : decodeWord w = .ok i) : ∃ op, opcode i = some op := by
  unfold decodeWord at h
  repeat' split at h
  all_goals cases h <;> exact ⟨_, rfl⟩

/-- Only productions are read from a description (R96). -/
theorem opcode_of_decodeProduction {bs rest : List Bool} {i : Instr} (h : decodeProduction bs = .ok (i, rest)) :
    opcode i = none := by
  unfold decodeProduction at h
  repeat' split at h
  all_goals cases h <;> rfl

/-- A well-formed word spells a command (R91). -/
theorem decodeWord_of_wellFormed {w : Word} (h : cmdWellFormed w = true) : ∃ i, decodeWord w = .ok i := by
  simp only [cmdWellFormed, Bool.and_eq_true, Bool.or_eq_true, beq_iff_eq, decide_eq_true_eq] at h
  obtain ⟨⟨⟨h4, h16⟩, hop⟩, harg⟩ := h
  unfold decodeWord
  rw [if_neg (not_not_intro h4), if_neg (not_not_intro h16), if_neg (Nat.not_lt.mpr hop)]
  by_cases h6 : w.extractLsb' 0 4 = 0x6#4
  · rw [if_pos h6]; exact ⟨_, rfl⟩
  rw [if_neg h6, if_neg (not_not_intro (harg.resolve_left h6))]
  have hne : (w.extractLsb' 0 4).toNat ≠ 6 := fun h => h6 (BitVec.eq_of_toNat_eq h)
  generalize (w.extractLsb' 0 4).toNat = op at hop hne
  have hrange : op ≤ 5 ∨ (7 ≤ op ∧ op ≤ 11) := by omega
  rcases hrange with h5 | ⟨h7, h11⟩ <;> interval_cases op <;> exact ⟨_, rfl⟩

/-- How a command ends: completed, and before that with an error recorded where its action raised (R201, R203). -/
theorem settle_cases (op : BitVec 4) (r : EStateM.Result Err State Unit) :
    settle op r = complete (endState r) ∨ ∃ e, settle op r = complete (recordError op e (endState r)) := by
  cases r with
  | ok u t => exact .inl rfl
  | error e t => exact .inr ⟨e, rfl⟩

/-- How a production ends: the command goes on, or it ends as DES_TREE's raise ends it (R121, R203). -/
theorem settleProduction_cases (r : EStateM.Result Err State Unit) :
    settleProduction r = endState r ∨
      ∃ op e, settleProduction r = complete (recordError op e { desCleanup (endState r) with desStack := [] }) := by
  cases r with
  | ok u t => exact .inl rfl
  | error e t => exact .inr ⟨_, e, rfl⟩

/-! ### The core -/

/-- What the core's step can be: it waits, runs the command of its word, or reads on in a description (R201, R54). -/
theorem coreStep_next {s t : State} (h : coreStep s = .next t) :
    (s.cur = none ∧ t = s) ∨
      (s.cur ≠ none ∧ s.desStack = [] ∧ ∃ i op, opcode i = some op ∧ t = settle op (instrBody i s)) ∨
      (s.cur ≠ none ∧ s.desStack ≠ [] ∧ productionStep s = .next t) := by
  cases hc : s.cur with
  | none => rw [coreStep_idle hc] at h; cases h; exact .inl ⟨rfl, rfl⟩
  | some w =>
    by_cases hd : s.desStack = []
    · cases hw : decodeWord w with
      | error e => simp [coreStep, hc, hd, hw] at h
      | ok i =>
        obtain ⟨op, hop⟩ := opcode_of_decodeWord hw
        rw [coreStep_command hc hd hw, exec_command hop] at h
        cases h
        exact .inr (.inl ⟨by simp, hd, i, op, hop, rfl⟩)
    · exact .inr (.inr ⟨by simp, hd, coreStep_production hc hd ▸ h⟩)

/-- What reads the next production: a production's action, or the checks alone where IN ends inside it. -/
def TakesProduction (x : Act Unit) : Prop := (∃ i, opcode i = none ∧ x = instrBody i) ∨ x = exhaustedBody

/-- What one production of a description does: it is read and settled, and after the last one the command goes on. -/
theorem productionStep_cases (s : State) :
    ∃ x, TakesProduction x ∧ (productionStep s = .next (settleProduction (x s)) ∨
      ((settleProduction (x s)).desStack = [] ∧ productionStep s = finishDescription (settleProduction (x s)))) := by
  unfold productionStep
  cases hp : decodeProduction (pendingBits s) with
  | error e => exact ⟨exhaustedBody, .inr rfl, .inl rfl⟩
  | ok r =>
    obtain ⟨i, rest⟩ := r
    have hi := opcode_of_decodeProduction hp
    refine ⟨instrBody i, .inl ⟨i, hi, rfl⟩, ?_⟩
    dsimp only
    rw [exec_production hi]
    dsimp only
    split
    · exact .inr ⟨‹_›, rfl⟩
    · exact .inl rfl

/-- How a description that is read goes on (R121, R161). -/
theorem finishDescription_next {s t : State} (h : finishDescription s = .next t) :
    (s.cur = none ∧ t = s) ∨ t = complete s ∨ t = settle 0xB#4 (decStreamTail s) := by
  unfold finishDescription at h
  split at h
  · cases h; exact .inl ⟨‹_›, rfl⟩
  · split at h
    · cases h; exact .inr (.inl rfl)
    · split at h
      · cases h; exact .inr (.inr rfl)
      · cases h

end Sys2Proof.Machine
end

section
/-! SUPPORT. What every instruction changes, for any relation that its smallest actions keep to: a relation is checked
on `ReadBit`, `WriteBit` and the single updates, and then holds between start and end of every command and production.
-/

namespace Sys2Proof.Machine

variable {R : State → State → Prop} {P : State → Prop}

/-- A relation that allows what one production of a description does: reading, allocation, and writes of the node store
and of the traversal stack. -/
structure AdmitsTdes (R : State → State → Prop) : Prop extends Frame R where
  read : Changes R readBit
  alloc : Changes R allocNode
  setNode : ∀ i n s, R s (setNode i n s)
  setRight : ∀ i s, R s (setRight i s)
  stack : ∀ k s, R s { s with desStack := k }

/-- A relation that allows what the encoder and the decoder do with the ports, the cursors and the decode registers. -/
structure AdmitsPorts (R : State → State → Prop) : Prop extends Frame R where
  read : Changes R readBit
  write : ∀ b s, R s (writeBit b s)
  flush : ∀ s, R s (flush s)
  result : ∀ s, R s { s with result := Result.zero }
  decNode : ∀ n s, R s (setDecNode n s)
  arrive : ∀ n d sym s, R s (arrive n d sym s)

/-- A relation that allows what the commands other than CLR_ERR and SOFT_RESET do; building the table and reading a
description count as one action each. -/
structure Admits (R : State → State → Prop) : Prop extends AdmitsPorts R where
  build : Changes R buildTableBody
  des : Changes R desTreeBody

/-- A wider relation allows what a narrower one does. -/
theorem AdmitsPorts.mono {S : State → State → Prop} (h : AdmitsPorts R) (hS : Frame S) (hRS : ∀ s t, R s t → S s t) :
    AdmitsPorts S where
  toFrame := hS
  read := h.read.mono hRS
  write b s := hRS _ _ (h.write b s)
  flush s := hRS _ _ (h.flush s)
  result s := hRS _ _ (h.result s)
  decNode n s := hRS _ _ (h.decNode n s)
  arrive n d sym s := hRS _ _ (h.arrive n d sym s)

/-- A body with a cleanup changes no more than both do. -/
theorem Changes.withCleanup (hR : Frame R) {x : Act Unit} {c : State → State} (hx : Changes R x)
    (hc : ∀ s, R s (c s)) : Changes R (Machine.withCleanup c x) := by
  intro s
  have h := hx s
  rw [withCleanup_apply]
  cases hxs : x s with
  | ok u t => rw [hxs] at h; exact h
  | error e t => rw [hxs] at h; exact hR.trans h (hc t)

/-! ### Reading, writing and the node check -/

theorem readBitsFrom_within (hR : Frame R) (hread : Changes R readBit) (n : Nat) :
    ∀ acc, Changes R (readBitsFrom n acc) := by
  induction n with
  | zero => exact fun acc => Changes.pure hR _
  | succ n ih =>
    refine fun acc => Changes.bind hR hread fun r => ?_
    cases r with
    | none => exact Changes.pure hR _
    | some b => exact ih _

theorem treeBit_within (hR : Frame R) (hread : Changes R readBit) (i : Idx) : Changes R (treeBit i) := by
  refine Changes.bind hR hread fun r => ?_
  cases r with
  | none => exact Changes.raise hR _ _
  | some b => exact Changes.pure hR _

theorem readProduction_within (hR : Frame R) (hread : Changes R readBit) (i : Idx) :
    Changes R (readProduction i) := by
  refine Changes.bind hR (treeBit_within hR hread i) fun t => ?_
  cases t with
  | true => exact Changes.pure hR _
  | false =>
    refine Changes.bind hR (treeBit_within hR hread i) fun t2 => ?_
    cases t2 with
    | false => exact Changes.pure hR _
    | true =>
      refine Changes.bind hR (readBitsFrom_within hR hread 8 0) fun r => ?_
      cases r with
      | none => exact Changes.raise hR _ _
      | some v => exact Changes.pure hR _

theorem skipBits_within (hR : Frame R) (hread : Changes R readBit) (i : Idx) (n : Nat) :
    Changes R (skipBits i n) := by
  induction n with
  | zero => exact Changes.pure hR _
  | succ n ih => exact Changes.bind hR (treeBit_within hR hread i) fun _ => ih

theorem writeSeq_within (hR : Frame R) (hwrite : ∀ b s, R s (writeBit b s)) (bs : List Bool) :
    ∀ s, R s (writeSeq bs s) := by
  induction bs with
  | nil => exact hR.refl
  | cons b bs ih => exact fun s => hR.trans (hwrite b s) (ih _)

theorem padOut_within (hR : Frame R) (hwrite : ∀ b s, R s (writeBit b s)) (n : Nat) : ∀ s, R s (padOut n s) := by
  induction n with
  | zero => exact hR.refl
  | succ n ih =>
    intro s
    unfold padOut
    split
    · exact hR.refl s
    · exact hR.trans (hwrite false s) (ih _)

/-! ### A description -/

namespace AdmitsTdes

variable (h : AdmitsTdes R)
include h

theorem desNode (levels : Nat) : ∀ p, Changes R (desNode levels p) := by
  induction levels with
  | zero => exact fun p => Changes.raise h.toFrame _ _
  | succ levels ih =>
    refine fun p => Changes.bind h.toFrame h.alloc fun i => ?_
    refine Changes.bind h.toFrame (readProduction_within h.toFrame h.read i) fun prod => ?_
    refine Changes.bind h.toFrame (Changes.update (h.setNode i _)) fun _ => ?_
    cases prod with
    | branch =>
      exact Changes.bind h.toFrame (ih i) fun _ =>
        Changes.bind h.toFrame (Changes.update (h.setRight i)) fun _ => ih i
    | leafByte v => exact Changes.pure h.toFrame _
    | leafEom => exact Changes.pure h.toFrame _

/-- DES_TREE adds what it does before it reads, and its cleanup. -/
theorem desTreeBody (hstart : ∀ s, R s (desStart s)) (hclean : ∀ s, R s (desCleanup s)) :
    Changes R desTreeBody :=
  Changes.bind h.toFrame (Changes.update hstart) fun _ =>
    Changes.withCleanup h.toFrame (h.desNode _ _) hclean

theorem desFrame (frame : DesFrame) : Changes R (desFrame frame) := by
  have halloc : Changes R (desAlloc frame) := by
    unfold desAlloc
    split
    · exact Changes.raise h.toFrame _ _
    · exact Changes.bind h.toFrame h.alloc fun i => Changes.pure h.toFrame _
  intro s
  unfold Machine.desFrame
  split
  · exact h.trans (h.setRight _ s) (halloc _)
  · exact halloc s

theorem desEnter : Changes R desEnter := by
  intro s
  unfold Machine.desEnter
  split
  · exact h.desFrame _ s
  · exact h.trans (h.stack _ s) (h.desFrame _ _)

/-- Every way of reading the next production. -/
theorem production {x : Act Unit} (hx : TakesProduction x) : Changes R x := by
  have skip := skipBits_within h.toFrame h.read
  rcases hx with ⟨i, hi, rfl⟩ | rfl
  · cases i with
    | branch =>
      exact Changes.bind h.toFrame h.desEnter fun ⟨d, i⟩ => Changes.bind h.toFrame (skip i 1) fun _ =>
        Changes.bind h.toFrame (Changes.update (h.setNode i _)) fun _ => Changes.update fun s => h.stack _ s
    | leafByte v =>
      exact Changes.bind h.toFrame h.desEnter fun ⟨d, i⟩ => Changes.bind h.toFrame (skip i 10) fun _ =>
        Changes.update (h.setNode i _)
    | leafEom =>
      exact Changes.bind h.toFrame h.desEnter fun ⟨d, i⟩ => Changes.bind h.toFrame (skip i 2) fun _ =>
        Changes.update (h.setNode i _)
    | _ => cases hi
  · exact Changes.bind h.toFrame h.desEnter fun ⟨d, i⟩ =>
      Changes.bind h.toFrame (readProduction_within h.toFrame h.read i) fun _ => Changes.pure h.toFrame _

end AdmitsTdes

/-! ### The commands -/

namespace AdmitsPorts

variable (h : AdmitsPorts R)
include h

theorem serNode (levels : Nat) : ∀ n p, Changes R (serNode levels n p) := by
  have bit (b : Bool) : Changes R (update (writeBit b)) := Changes.update (h.write b)
  induction levels with
  | zero => exact fun n p => Changes.raise h.toFrame _ _
  | succ levels ih =>
    refine fun n p => Changes.bind h.toFrame (visit_changes h.toFrame n) fun v => ?_
    cases v with
    | branch l r =>
      exact Changes.bind h.toFrame (bit true) fun _ => Changes.bind h.toFrame (ih l n) fun _ => ih r n
    | byte b =>
      exact Changes.bind h.toFrame (bit false) fun _ => Changes.bind h.toFrame (bit true) fun _ =>
        Changes.update (writeSeq_within h.toFrame h.write _)
    | eom => exact Changes.bind h.toFrame (bit false) fun _ => bit false

theorem serTreeBody : Changes R serTreeBody := Changes.withState fun _ => h.serNode _ _ _

theorem encSymBody (sym : Sym) : Changes R (encSymBody sym) := by
  intro s
  unfold Machine.encSymBody
  split
  · exact h.refl s
  · split
    · exact h.refl s
    · exact writeSeq_within h.toFrame h.write _ s

theorem encPadBody : Changes R encPadBody :=
  Changes.update fun s => h.trans (padOut_within h.toFrame h.write 8 s) (h.flush _)

theorem requireAligned : Changes R requireAligned := by
  refine Changes.withState fun s => ?_
  split
  · exact Changes.raise h.toFrame _ _
  · exact Changes.pure h.toFrame _

theorem encLoop (fuel : Nat) : Changes R (encLoop fuel) := by
  induction fuel with
  | zero => exact Changes.pure h.toFrame _
  | succ fuel ih =>
    refine Changes.bind h.toFrame h.read fun b0 => ?_
    cases b0 with
    | none => exact Changes.pure h.toFrame _
    | some b0 =>
      refine Changes.bind h.toFrame (readBitsFrom_within h.toFrame h.read 7 0) fun r => ?_
      cases r with
      | none => exact Changes.pure h.toFrame _
      | some r => exact Changes.bind h.toFrame (h.encSymBody _) fun _ => ih

theorem walk (levels : Nat) : ∀ d n v, Changes R (walk levels d n v) := by
  have stop (n : Idx) (c : ErrCode) :
      Changes R (do update (setDecNode n); raise c (n.setWidth 28) : Act (Idx × Nat × Visited)) :=
    Changes.bind h.toFrame (Changes.update (h.decNode n)) fun _ => Changes.raise h.toFrame _ _
  induction levels with
  | zero =>
    intro d n v
    cases v with
    | branch l r => exact stop n _
    | byte b => exact Changes.pure h.toFrame _
    | eom => exact Changes.pure h.toFrame _
  | succ levels ih =>
    intro d n v
    cases v with
    | byte b => exact Changes.pure h.toFrame _
    | eom => exact Changes.pure h.toFrame _
    | branch l r =>
      refine Changes.bind h.toFrame h.read fun b => ?_
      cases b with
      | none => exact stop n _
      | some b => exact Changes.bind h.toFrame (visit_changes h.toFrame _) fun v' => ih _ _ _

theorem decWalk : Changes R decWalk := by
  refine Changes.bind h.toFrame (Changes.withState fun s => ?_) fun _ =>
    Changes.bind h.toFrame (Changes.update h.result) fun _ =>
      Changes.bind h.toFrame (Changes.withState fun s => Changes.pure h.toFrame _) fun root =>
        Changes.bind h.toFrame (visit_changes h.toFrame root) fun v => ?_
  · split
    · exact Changes.raise h.toFrame _ _
    · exact Changes.pure h.toFrame _
  · have leave (n : Idx) (d : Nat) (sym : Sym) : Changes R (do update (Machine.arrive n d sym); pure sym : Act Sym) :=
      Changes.bind h.toFrame (Changes.update (h.arrive n d sym)) fun _ => Changes.pure h.toFrame _
    cases v with
    | byte b => exact Changes.raise h.toFrame _ _
    | _ =>
      refine Changes.bind h.toFrame (h.walk _ _ _ _) fun ⟨n, d, leaf⟩ => ?_
      cases leaf <;> exact leave n d _

theorem decLoop (fuel : Nat) : Changes R (decLoop fuel) := by
  induction fuel with
  | zero => exact Changes.pure h.toFrame _
  | succ fuel ih =>
    refine Changes.bind h.toFrame h.decWalk fun sym => ?_
    split
    · exact Changes.pure h.toFrame _
    · exact Changes.bind h.toFrame (Changes.update (writeSeq_within h.toFrame h.write _)) fun _ => ih

theorem decStreamTail : Changes R decStreamTail :=
  Changes.bind h.toFrame (Changes.withState fun _ => h.decLoop _) fun _ => Changes.update h.flush

end AdmitsPorts

namespace Admits

variable (h : Admits R)
include h

theorem encStreamBody : Changes R encStreamBody :=
  Changes.bind h.toFrame h.requireAligned fun _ => Changes.bind h.toFrame h.build fun _ =>
    Changes.bind h.toFrame h.serTreeBody fun _ =>
      Changes.bind h.toFrame (Changes.withState fun _ => h.encLoop _) fun _ =>
        Changes.bind h.toFrame (h.encSymBody _) fun _ => h.encPadBody

/-- Every command but CLR_ERR and SOFT_RESET. -/
theorem command {i : Instr} {op : BitVec 4} (hi : opcode i = some op) (hc : i ≠ .clrErr) (hr : i ≠ .softReset) :
    Changes R (instrBody i) := by
  cases i with
  | nop => exact Changes.pure h.toFrame _
  | clrErr => exact absurd rfl hc
  | softReset => exact absurd rfl hr
  | serTree => exact h.serTreeBody
  | desTree => exact h.des
  | buildTable => exact h.build
  | encSym arg => exact h.encSymBody _
  | encEom => exact h.encSymBody _
  | encPad => exact h.encPadBody
  | decSym => exact Changes.bind h.toFrame h.decWalk fun _ => Changes.pure h.toFrame _
  | encStream => exact h.encStreamBody
  | decStream =>
    exact Changes.bind h.toFrame h.requireAligned fun _ => Changes.bind h.toFrame h.des fun _ => h.decStreamTail
  | branch => cases hi
  | leafByte v => cases hi
  | leafEom => cases hi

end Admits

end Sys2Proof.Machine
end

section
/-! SUPPORT. What building the table and reading a description change, and what the core's step does to the sequencer
and the error record (10_state.md rules R27, R33 and R50). -/

namespace Sys2Proof.Machine

/-! ### The frames of BUILD_TABLE and DES_TREE -/

/-- Nothing but the code table and TABLE_VALID differs. -/
def SameButTable (s t : State) : Prop := t = { s with tbl := t.tbl, tableValid := t.tableValid }

theorem SameButTable.trans {s t u : State} (h₁ : SameButTable s t) (h₂ : SameButTable t u) : SameButTable s u := by
  unfold SameButTable at *; rw [h₂, h₁]

theorem frameTable : Frame SameButTable := ⟨fun _ => rfl, SameButTable.trans⟩

theorem SameButTbl.table {s t : State} (h : SameButTbl s t) : SameButTable s t := by
  unfold SameButTbl SameButTable at *; rw [h]

theorem tblCheckEom_changes : Changes SameButTable tblCheckEom := by
  intro s
  unfold tblCheckEom
  split <;> rfl

/-- BUILD_TABLE changes the table and TABLE_VALID only. -/
theorem buildTableBody_changes : Changes SameButTable buildTableBody := by
  have hinv (s : State) : SameButTable s (invalidateTable s) := rfl
  have hwalk : Changes SameButTable (do
      withState fun s => tblNode (Config.maxDepth + 1) s.root 0#10 []
      tblCheckEom) :=
    Changes.bind frameTable
      (Changes.withState fun _ => (tblNode_changes _ _ _ _).mono fun _ _ => SameButTbl.table) fun _ =>
        tblCheckEom_changes
  exact Changes.bind frameTable (Changes.update hinv) fun _ =>
    Changes.bind frameTable (Changes.withCleanup frameTable hwalk hinv) fun _ => Changes.update fun _ => rfl

/-- Nothing but what DES_TREE writes differs: the node store, NODE_COUNT, ROOT, the table, EOM_SEEN and the IN cursor.
-/
def SameButLoad (s t : State) : Prop :=
  t = { s with
    node := t.node, nodeCount := t.nodeCount, root := t.root, tbl := t.tbl, tableValid := t.tableValid,
    eomSeen := t.eomSeen, inBuf := t.inBuf, inBitpos := t.inBitpos, inQ := t.inQ, inPhase := t.inPhase,
    portLog := t.portLog }

theorem SameButLoad.trans {s t u : State} (h₁ : SameButLoad s t) (h₂ : SameButLoad t u) : SameButLoad s u := by
  unfold SameButLoad at *; rw [h₂, h₁]

theorem frameLoad : Frame SameButLoad := ⟨fun _ => rfl, SameButLoad.trans⟩

theorem SameButDes.load {s t : State} (h : SameButDes s t) : SameButLoad s t := by
  unfold SameButDes SameButLoad at *; rw [h]

/-- DES_TREE changes the tree, the table, EOM_SEEN and the IN cursor only. -/
theorem desTreeBody_changes : Changes SameButLoad desTreeBody :=
  Changes.bind frameLoad (Changes.update fun _ => rfl) fun _ =>
    Changes.withCleanup frameLoad ((desNode_changes _ _).mono fun _ _ => SameButDes.load) fun _ => rfl

/-! ### The sequencer and the error record -/

/-- The sequencer and the error record are the same. -/
def SameSequencer (s t : State) : Prop := t.cur = s.cur ∧ t.err = s.err

/-- The sequencer, the error record and the traversal stack are the same. -/
def SameControl (s t : State) : Prop := SameSequencer s t ∧ t.desStack = s.desStack

theorem frameSequencer : Frame SameSequencer :=
  ⟨fun _ => ⟨rfl, rfl⟩, fun h₁ h₂ => ⟨h₂.1.trans h₁.1, h₂.2.trans h₁.2⟩⟩

theorem frameControl : Frame SameControl :=
  ⟨fun s => ⟨frameSequencer.refl s, rfl⟩, fun h₁ h₂ => ⟨frameSequencer.trans h₁.1 h₂.1, h₂.2.trans h₁.2⟩⟩

/-- A state with the same three fields has the same control. -/
theorem SameControl.of_eq {s t u : State} (h : t = u) (hu : SameControl s u) : SameControl s t := h ▸ hu

/-- No command but CLR_ERR and SOFT_RESET touches the sequencer, the error record or the traversal stack: only its
completion does. -/
theorem admits_sameControl : Admits SameControl where
  toFrame := frameControl
  read s := .of_eq (readBit_changes s) ⟨⟨rfl, rfl⟩, rfl⟩
  write b s := .of_eq (writeBit_sameButOut b s) ⟨⟨rfl, rfl⟩, rfl⟩
  flush _ := ⟨⟨rfl, rfl⟩, rfl⟩
  result _ := ⟨⟨rfl, rfl⟩, rfl⟩
  decNode _ _ := ⟨⟨rfl, rfl⟩, rfl⟩
  arrive n d sym s := .of_eq (arrive_sameButDec n d sym s) ⟨⟨rfl, rfl⟩, rfl⟩
  build s := .of_eq (buildTableBody_changes s) ⟨⟨rfl, rfl⟩, rfl⟩
  des s := .of_eq (desTreeBody_changes s) ⟨⟨rfl, rfl⟩, rfl⟩

/-- No production touches the sequencer or the error record before it is settled. -/
theorem admitsTdes_sameSequencer : AdmitsTdes SameSequencer where
  toFrame := frameSequencer
  read s := (admits_sameControl.read s).1
  alloc s := (SameControl.of_eq (allocNode_changes s) ⟨⟨rfl, rfl⟩, rfl⟩).1
  setNode _ _ _ := ⟨rfl, rfl⟩
  setRight i s := (SameControl.of_eq (setRight_sameButDes i s) ⟨⟨rfl, rfl⟩, rfl⟩).1
  stack _ _ := ⟨rfl, rfl⟩

/-- A step has completed: the core is idle, no description is being read, and the error record is the old one, a new
error or clear. -/
def Completed (s t : State) : Prop :=
  t.cur = none ∧ t.desStack = [] ∧ (t.err = s.err ∨ t.err.set = true ∨ t.err = ErrRecord.clear)

/-- Settling an action that leaves control alone completes the command. -/
theorem completed_settle {s : State} (op : BitVec 4) {r : EStateM.Result Err State Unit}
    (h : SameControl s (endState r)) (hd : s.desStack = []) : Completed s (settle op r) := by
  obtain ⟨⟨-, herr⟩, hstack⟩ := h
  rcases settle_cases op r with hr | ⟨e, hr⟩ <;> rw [hr]
  · exact ⟨rfl, hstack.trans hd, .inl herr⟩
  · exact ⟨rfl, hstack.trans hd, .inr (.inl rfl)⟩

/-- A command completes. -/
theorem completed_command {i : Instr} {op : BitVec 4} (hi : opcode i = some op) {s : State} (hd : s.desStack = []) :
    Completed s (settle op (instrBody i s)) := by
  by_cases hclr : i = .clrErr
  · subst hclr; exact ⟨rfl, hd, .inr (.inr rfl)⟩
  by_cases hreset : i = .softReset
  · subst hreset; exact ⟨rfl, rfl, .inr (.inr rfl)⟩
  exact completed_settle op (admits_sameControl.command hi hclr hreset s) hd

/-- Reading a production leaves the sequencer and the error record alone, or ends the command. -/
theorem settleProduction_control {x : Act Unit} (hx : TakesProduction x) (s : State) :
    SameSequencer s (settleProduction (x s)) ∨ Completed s (settleProduction (x s)) := by
  rcases settleProduction_cases (x s) with hr | ⟨op, e, hr⟩ <;> rw [hr]
  · exact .inl (admitsTdes_sameSequencer.production hx s)
  · exact .inr ⟨rfl, rfl, .inr (.inl rfl)⟩

/-- What the core's step does to the sequencer and the error record: it waits, completes, or goes on reading a
description. -/
theorem coreStep_control {s t : State} (h : coreStep s = .next t) :
    (s.cur = none ∧ t = s) ∨ (s.cur ≠ none ∧ Completed s t) ∨ (s.desStack ≠ [] ∧ SameSequencer s t) := by
  rcases coreStep_next h with hidle | ⟨hc, hd, i, op, hi, rfl⟩ | ⟨hc, hd, hp⟩
  · exact .inl hidle
  · exact .inr (.inl ⟨hc, completed_command hi hd⟩)
  obtain ⟨x, hx, hnext | ⟨hstack, hfin⟩⟩ := productionStep_cases s
  · rw [hnext] at hp
    cases hp
    rcases settleProduction_control hx s with hsame | hdone
    · exact .inr (.inr ⟨hd, hsame⟩)
    · exact .inr (.inl ⟨hc, hdone⟩)
  rw [hfin] at hp
  have hu := settleProduction_control hx s
  generalize settleProduction (x s) = u at hstack hp hu
  have herr : u.err = s.err ∨ u.err.set = true ∨ u.err = ErrRecord.clear := by
    rcases hu with ⟨-, he⟩ | ⟨-, -, he⟩
    · exact .inl he
    · exact he
  refine .inr (.inl ⟨hc, ?_⟩)
  rcases finishDescription_next hp with ⟨hidle, rfl⟩ | rfl | rfl
  · exact ⟨hidle, hstack, herr⟩
  · exact ⟨rfl, hstack, herr⟩
  · obtain ⟨hcur, hstack', htail⟩ := completed_settle 0xB#4 (admits_sameControl.decStreamTail u) hstack
    refine ⟨hcur, hstack', ?_⟩
    rcases htail with he | he
    · rwa [he]
    · exact .inr he

/-- Hardware reset leaves the core as SOFT_RESET does, whatever port events it lets stand (R240). -/
theorem hardReset_eq (k : Nat) (s : State) :
    ∃ u, hardReset k s = { resetState u with portLog := (commandEvents s).take k } := ⟨_, rfl⟩

/-! ### The invariants of the error record and the sequencer -/

/-- ErrorInv after completion. -/
theorem ErrorInv.completed {s t : State} (hs : ErrorInv s) (ht : Completed s t) : ErrorInv t := by
  obtain ⟨hcur, -, herr⟩ := ht
  refine ⟨fun hset => ?_, fun _ => .inl hcur⟩
  rcases herr with he | he | he
  · rw [he]; exact hs.1 (he ▸ hset)
  · rw [he] at hset; cases hset
  · exact he

/-- ErrorInv reads the sequencer and the error record only. -/
theorem ErrorInv.same {s t : State} (hs : ErrorInv s) (h : SameSequencer s t) : ErrorInv t := by
  obtain ⟨hcur, herr⟩ := h
  unfold ErrorInv
  rw [hcur, herr]
  exact hs

theorem ErrorInv.written {s t : State} (hs : ErrorInv s) (h : Written s t) : ErrorInv t := by
  cases h with
  | accepted w idle wf pass => exact ⟨hs.1, fun hset => by simpa [passesError_iff] using pass hset⟩
  | illegal w idle noError => exact ⟨fun hset => (by cases hset), fun _ => .inl idle⟩
  | _ => exact hs.same ⟨rfl, rfl⟩

theorem ErrorInv.moved {s t : State} (hs : ErrorInv s) (h : AgentMove s t) : ErrorInv t := by
  cases h with
  | write h hw => exact (hs.same ⟨rfl, rfl⟩ : ErrorInv { s with host := h }).written hw
  | _ => exact hs.same ⟨rfl, rfl⟩

/-- Settles O57: a completed command leaves the record or writes it whole, and only CLR_ERR and SOFT_RESET are accepted
while it is set. -/
theorem stepKeepsTheErrorRecord : Obligations.StepKeepsTheErrorRecord := by
  intro s t hs h
  obtain ⟨rest, hcore | ⟨k, -, rfl⟩ | hmove⟩ := step_next h
  · have hs' : ErrorInv { s with agenda := rest } := hs.same ⟨rfl, rfl⟩
    rcases coreStep_control hcore with ⟨-, rfl⟩ | ⟨-, hdone⟩ | ⟨-, hsame⟩
    · exact hs'
    · exact hs'.completed hdone
    · exact hs'.same hsame
  · obtain ⟨u, hu⟩ := hardReset_eq k { s with agenda := rest }
    rw [hu]
    exact ⟨fun _ => rfl, fun hset => by cases hset⟩
  · exact (hs.same ⟨rfl, rfl⟩ : ErrorInv { s with agenda := rest }).moved hmove

/-- SequencerInv reads the sequencer and the traversal stack only. -/
theorem SequencerInv.same {s t : State} (hs : SequencerInv s) (hcur : t.cur = s.cur) (hd : t.desStack = s.desStack) :
    SequencerInv t := by
  unfold SequencerInv
  rw [hcur, hd]
  exact hs

/-- SequencerInv holds of an idle core that reads no description. -/
theorem SequencerInv.idle {t : State} (hcur : t.cur = none) (hd : t.desStack = []) : SequencerInv t :=
  ⟨fun w hw => (by rw [hcur] at hw; cases hw), fun h => absurd hd h⟩

/-- With the core idle no description is being read. -/
theorem SequencerInv.no_description {s : State} (hs : SequencerInv s) (hc : s.cur = none) : s.desStack = [] := by
  by_contra hd
  rcases hs.2 hd with h | h <;> rw [hc] at h <;> cases h

theorem SequencerInv.written {s t : State} (hs : SequencerInv s) (h : Written s t) : SequencerInv t := by
  cases h with
  | accepted w idle wf pass =>
    exact ⟨fun w' hw => by cases hw; exact wf, fun hd => absurd (hs.no_description idle) hd⟩
  | _ => exact hs.same rfl rfl

theorem SequencerInv.moved {s t : State} (hs : SequencerInv s) (h : AgentMove s t) : SequencerInv t := by
  cases h with
  | write h hw => exact (hs.same rfl rfl : SequencerInv { s with host := h }).written hw
  | _ => exact hs.same rfl rfl

theorem SequencerInv.coreStep {s t : State} (hs : SequencerInv s) (h : coreStep s = .next t) : SequencerInv t := by
  rcases coreStep_control h with ⟨-, rfl⟩ | ⟨-, hcur, hstack, -⟩ | ⟨hd, hcur, -⟩
  · exact hs
  · exact .idle hcur hstack
  · exact ⟨hcur ▸ hs.1, fun _ => hcur ▸ hs.2 hd⟩

theorem SequencerInv.step {s t : State} (hs : SequencerInv s) (h : step s = .next t) : SequencerInv t := by
  obtain ⟨rest, hcore | ⟨k, -, rfl⟩ | hmove⟩ := step_next h
  · exact SequencerInv.coreStep (s := { s with agenda := rest }) (hs.same rfl rfl) hcore
  · obtain ⟨u, hu⟩ := hardReset_eq k { s with agenda := rest }
    rw [hu]
    exact .idle rfl rfl
  · exact (hs.same rfl rfl : SequencerInv { s with agenda := rest }).moved hmove

theorem finishDescription_safe {s : State}
    (hs : s.cur = none ∨ s.cur = some 0x00000004#32 ∨ s.cur = some 0x0000000B#32) :
    safe (finishDescription s) = true := by
  rcases hs with h | h | h <;> simp [finishDescription, h, safe, runCommand]

theorem productionStep_safe {s : State} (hs : s.cur = some 0x00000004#32 ∨ s.cur = some 0x0000000B#32) :
    safe (productionStep s) = true := by
  obtain ⟨x, hx, hp | ⟨-, hp⟩⟩ := productionStep_cases s <;> rw [hp]
  · rfl
  · refine finishDescription_safe ?_
    rcases settleProduction_control hx s with ⟨hcur, -⟩ | ⟨hcur, -, -⟩ <;> rw [hcur]
    · exact .inr hs
    · exact .inl rfl

/-- The core does not fault on an accepted word (R50). -/
theorem SequencerInv.coreStep_safe {s : State} (hs : SequencerInv s) : safe (Machine.coreStep s) = true := by
  rcases Option.eq_none_or_eq_some s.cur with hc | ⟨w, hc⟩
  · rw [coreStep_idle hc]; rfl
  by_cases hd : s.desStack = []
  · obtain ⟨i, hi⟩ := decodeWord_of_wellFormed (hs.1 w hc)
    obtain ⟨t, ht⟩ := exec_next i s
    rw [coreStep_command hc hd hi, ht]
    rfl
  · rw [coreStep_production hc hd]
    exact productionStep_safe (hs.2 hd)

/-- Settles O58: acceptance puts only well-formed words into the sequencer, which all spell commands, and a
description is only read on under the command that began it. -/
theorem stepKeepsTheSequencer : Obligations.StepKeepsTheSequencer := by
  refine fun s hs => ⟨fun t => hs.step, ?_⟩
  obtain ⟨rest, hcore | ⟨k, -, hr⟩ | ⟨r, hr⟩ | ⟨t, hr, -⟩⟩ := step_cases s
  · rw [hcore]
    exact SequencerInv.coreStep_safe (s := { s with agenda := rest }) (hs.same rfl rfl)
  all_goals rw [hr]; rfl

/-! ### A recorded error -/

/-- While an error is recorded the core waits, or runs CLR_ERR or SOFT_RESET, which clear it (R201, R206). -/
theorem coreStep_clears_error {s t : State} (he : ErrorInv s) (hs : SequencerInv s) (h : coreStep s = .next t)
    (hset : s.err.set = true) :
    t.err = s.err ∨ (t.err = ErrRecord.clear ∧ (s.cur = some 0x00000001#32 ∨ s.cur = some 0x00000002#32)) := by
  rcases he.2 hset with hc | hcur
  · rw [coreStep_idle hc] at h; cases h; exact .inl rfl
  have hd : s.desStack = [] := by
    by_contra hd
    rcases hcur with hc | hc <;> rcases hs.2 hd with h' | h' <;> rw [hc] at h' <;> cases h'
  refine .inr ⟨?_, hcur⟩
  rcases hcur with hc | hc
  · rw [coreStep_command hc hd (i := .clrErr) rfl] at h; cases h; rfl
  · rw [coreStep_command hc hd (i := .softReset) rfl] at h; cases h; rfl

/-- A host access leaves a recorded error: the word it would report is dropped (R201). -/
theorem err_written {s t : State} (h : Written s t) (hset : s.err.set = true) : t.err = s.err := by
  cases h with
  | illegal w idle noError => rw [noError] at hset; cases hset
  | _ => rfl

theorem err_moved {s t : State} (h : AgentMove s t) (hset : s.err.set = true) : t.err = s.err := by
  cases h with
  | write h hw => exact err_written (s := { s with host := h }) hw hset
  | _ => rfl

/-- Settles O51: with an error recorded only CLR_ERR and SOFT_RESET run and no host access records another one. -/
theorem errorStaysUntilAcknowledged : Obligations.ErrorStaysUntilAcknowledged := by
  intro s t he hs h hset
  obtain ⟨rest, hcore | ⟨k, ha, rfl⟩ | hmove⟩ := step_next h
  · have he' : ErrorInv { s with agenda := rest } := he.same ⟨rfl, rfl⟩
    rcases coreStep_clears_error he' (hs.same rfl rfl) hcore hset with hsame | ⟨hclear, hcur⟩
    · exact .inl hsame
    · exact .inr ⟨hclear, hcur.imp_right .inl⟩
  · exact .inr ⟨rfl, .inr (.inr ⟨k, rest, ha⟩)⟩
  · exact .inl (err_moved (s := { s with agenda := rest }) hmove hset)

end Sys2Proof.Machine
end

section
/-! SUPPORT. Invariants of the core: what every action keeps, the core's step keeps; the bit cursors (10_state.md
rules R46, R47, R51 and R52) and the stores (R29, R39, R40 and R45). -/

namespace Sys2Proof.Machine

/-! ### Keeping a predicate -/

/-- If the first state has the property, so has the second. -/
def Preserves (P : State → Prop) (s t : State) : Prop := P s → P t

theorem framePreserves (P : State → Prop) : Frame (Preserves P) := ⟨fun _ h => h, fun h₁ h₂ h => h₂ (h₁ h)⟩

/-- A property that every action of the core keeps, and every way a command or a production ends. -/
structure CoreKeeps (P : State → Prop) : Prop where
  admits : Admits (Preserves P)
  tdes : AdmitsTdes (Preserves P)
  complete : ∀ s, P s → P (complete s)
  recordError : ∀ op e s, P s → P (recordError op e s)
  clearError : ∀ s, P s → P (clearError s)
  resetState : ∀ s, P s → P (resetState s)
  desCleanup : ∀ s, P s → P (desCleanup s)

namespace CoreKeeps

variable {P : State → Prop} (h : CoreKeeps P) {s t : State}
include h

theorem settle (op : BitVec 4) {r : EStateM.Result Err State Unit} (hr : P (endState r)) : P (settle op r) := by
  rcases settle_cases op r with he | ⟨e, he⟩ <;> rw [he]
  · exact h.complete _ hr
  · exact h.complete _ (h.recordError _ _ _ hr)

theorem command {i : Instr} {op : BitVec 4} (hi : opcode i = some op) (hs : P s) :
    P (Machine.settle op (instrBody i s)) := by
  refine h.settle op ?_
  by_cases hclr : i = .clrErr
  · subst hclr; exact h.clearError s hs
  by_cases hreset : i = .softReset
  · subst hreset; exact h.resetState s hs
  exact h.admits.command hi hclr hreset s hs

theorem production {x : Act Unit} (hx : TakesProduction x) (hs : P s) : P (settleProduction (x s)) := by
  have hend := h.tdes.production hx s hs
  rcases settleProduction_cases (x s) with he | ⟨op, e, he⟩ <;> rw [he]
  · exact hend
  · exact h.complete _ (h.recordError _ _ _ (h.tdes.stack _ _ (h.desCleanup _ hend)))

/-- The core's step keeps it. -/
theorem coreStep (hs : P s) (hstep : coreStep s = .next t) : P t := by
  rcases coreStep_next hstep with ⟨-, rfl⟩ | ⟨-, -, i, op, hi, rfl⟩ | ⟨-, -, hp⟩
  · exact hs
  · exact h.command hi hs
  obtain ⟨x, hx, hnext | ⟨-, hfin⟩⟩ := productionStep_cases s
  · rw [hnext] at hp; cases hp; exact h.production hx hs
  · rw [hfin] at hp
    have hu := h.production hx hs
    rcases finishDescription_next hp with ⟨-, rfl⟩ | rfl | rfl
    · exact hu
    · exact h.complete _ hu
    · exact h.settle _ (h.admits.decStreamTail _ hu)

end CoreKeeps

/-! ### The cursors -/

/-- The cursors and the IN port are the same. -/
def SameCursors (s t : State) : Prop :=
  t.inBuf = s.inBuf ∧ t.outAcc = s.outAcc ∧ t.inBitpos = s.inBitpos ∧ t.outBitpos = s.outBitpos ∧
    t.inPhase = s.inPhase ∧ t.inQ = s.inQ

/-- CursorInv reads the cursors and the IN port only. -/
theorem CursorInv.same {s t : State} (h : SameCursors s t) (hs : CursorInv s) : CursorInv t := by
  obtain ⟨hbuf, hacc, hin, hout, hphase, hq⟩ := h
  unfold CursorInv
  rw [hbuf, hacc, hin, hout, hphase, hq]
  exact hs

/-- A state equal to one with the same cursors. -/
theorem SameCursors.of_eq {s t u : State} (h : t = u) (hu : SameCursors s u) : SameCursors s t := h ▸ hu

/-- A count that grows by `n` does so modulo 8 too, also when it wraps. -/
theorem toNat_add_mod_eight (x : Word) {n : Nat} (hn : n < 2 ^ 32) :
    (x + BitVec.ofNat 32 n).toNat % 8 = (x.toNat % 8 + n) % 8 := by
  rw [BitVec.toNat_add, BitVec.toNat_ofNat, Nat.mod_eq_of_lt hn]
  omega

theorem CursorInv.takeBit {s : State} {b : Bool} {rest : List Bool} (hs : CursorInv s) (hb : s.inBuf = b :: rest) :
    CursorInv { s with inBuf := rest, inBitpos := s.inBitpos + 1#32 } := by
  obtain ⟨hbuf, hacc, hin, hout, heos⟩ := hs
  rw [hb, List.length_cons] at hbuf hin
  have hcount := toNat_add_mod_eight s.inBitpos (n := 1) (by decide)
  exact ⟨by dsimp only; omega, hacc, by dsimp only; omega, hout, heos⟩

theorem CursorInv.refill {s : State} {v : Byte} {vs : List Byte} {log : List PortEvent} (hs : CursorInv s)
    (hb : s.inBuf = []) :
    CursorInv { s with inBuf := byteBits v, inQ := vs, inPhase := .flowing, portLog := log } := by
  obtain ⟨-, hacc, hin, hout, -⟩ := hs
  rw [hb] at hin
  exact ⟨by simp, hacc, by simpa using hin, hout, fun h => by cases h⟩

/-- What `PortRead` can do (R62, R63): `EOS` again, the first `EOS`, or the next byte. -/
theorem portRead_cases (s : State) :
    portRead s = (none, s) ∨ (s.inQ = [] ∧ portRead s = (none, { s with inPhase := .eos })) ∨
      ∃ v vs, s.inQ = v :: vs ∧
        portRead s = (some v, { s with inQ := vs, inPhase := .flowing, portLog := s.portLog ++ [.took v] }) := by
  unfold portRead
  split
  · exact .inl rfl
  · exact .inr (.inl ⟨‹_›, rfl⟩)
  · exact .inr (.inr ⟨_, _, ‹_›, rfl⟩)

theorem readBit_keeps_cursors : Changes (Preserves CursorInv) readBit := by
  intro s hs
  cases hb : s.inBuf with
  | cons b rest => simp only [readBit, hb]; exact hs.takeBit hb
  | nil =>
    rcases portRead_cases s with hp | ⟨hq, hp⟩ | ⟨v, vs, -, hp⟩ <;> simp only [readBit, hb, hp]
    · exact hs
    · obtain ⟨hbuf, hacc, hin, hout, -⟩ := hs
      rw [hb] at hbuf hin
      exact ⟨hbuf, hacc, hin, hout, fun _ => hq⟩
    · exact (hs.refill hb).takeBit rfl

theorem writeBit_keeps_cursors (b : Bool) (s : State) : Preserves CursorInv s (writeBit b s) := by
  intro ⟨hbuf, hacc, hin, hout, heos⟩
  have hcount := toNat_add_mod_eight s.outBitpos (n := 1) (by decide)
  have hlen : (s.outAcc ++ [b]).length = s.outAcc.length + 1 := by simp
  unfold writeBit
  split
  · exact ⟨hbuf, by simp, hin, by simp; omega, heos⟩
  · exact ⟨hbuf, by dsimp only; omega, hin, by dsimp only; omega, heos⟩

theorem discardInput_keeps_cursors (s : State) : Preserves CursorInv s (discardInput s) := by
  intro ⟨hbuf, hacc, hin, hout, heos⟩
  have hcount := toNat_add_mod_eight s.inBitpos (n := s.inBuf.length) (by omega)
  exact ⟨by simp, hacc, by simp only [discardInput_inBitpos, discardInput_inBuf, List.length_nil]; omega, hout, heos⟩

theorem arrive_keeps_cursors (n : Idx) (d : Nat) (sym : Sym) (s : State) :
    Preserves CursorInv s (arrive n d sym s) := by
  intro hs
  have harrived : CursorInv { setDecNode n s with result := { valid := true, len := BitVec.ofNat 9 d, sym := sym } } :=
    hs.same ⟨rfl, rfl, rfl, rfl, rfl, rfl⟩
  unfold arrive
  split
  · exact (discardInput_keeps_cursors _ harrived).same ⟨rfl, rfl, rfl, rfl, rfl, rfl⟩
  · exact harrived

theorem admitsTdes_cursors : AdmitsTdes (Preserves CursorInv) where
  toFrame := framePreserves _
  read := readBit_keeps_cursors
  alloc s := by
    unfold allocNode
    split
    · exact fun hs => hs
    · exact CursorInv.same ⟨rfl, rfl, rfl, rfl, rfl, rfl⟩
  setNode _ _ _ := CursorInv.same ⟨rfl, rfl, rfl, rfl, rfl, rfl⟩
  setRight i s := by
    unfold setRight
    split
    · exact CursorInv.same ⟨rfl, rfl, rfl, rfl, rfl, rfl⟩
    · exact fun hs => hs
  stack _ _ := CursorInv.same ⟨rfl, rfl, rfl, rfl, rfl, rfl⟩

theorem admits_cursors : Admits (Preserves CursorInv) where
  toFrame := framePreserves _
  read := readBit_keeps_cursors
  write := writeBit_keeps_cursors
  flush _ := CursorInv.same ⟨rfl, rfl, rfl, rfl, rfl, rfl⟩
  result _ := CursorInv.same ⟨rfl, rfl, rfl, rfl, rfl, rfl⟩
  decNode _ _ := CursorInv.same ⟨rfl, rfl, rfl, rfl, rfl, rfl⟩
  arrive := arrive_keeps_cursors
  build s := CursorInv.same (.of_eq (buildTableBody_changes s) ⟨rfl, rfl, rfl, rfl, rfl, rfl⟩)
  des := admitsTdes_cursors.desTreeBody (fun _ => CursorInv.same ⟨rfl, rfl, rfl, rfl, rfl, rfl⟩) fun _ =>
    CursorInv.same ⟨rfl, rfl, rfl, rfl, rfl, rfl⟩

/-- After reset no bit is in hand, both counters are 0 and the IN port is fresh (R240). -/
theorem CursorInv.reset {t : State} (hbuf : t.inBuf = []) (hacc : t.outAcc = []) (hin : t.inBitpos = 0#32)
    (hout : t.outBitpos = 0#32) (hphase : t.inPhase = .fresh) : CursorInv t := by
  unfold CursorInv
  rw [hbuf, hacc, hin, hout, hphase]
  exact ⟨by decide, by decide, by decide, by decide, fun h => by cases h⟩

theorem coreKeeps_cursors : CoreKeeps CursorInv where
  admits := admits_cursors
  tdes := admitsTdes_cursors
  complete _ := CursorInv.same ⟨rfl, rfl, rfl, rfl, rfl, rfl⟩
  recordError _ _ _ := CursorInv.same ⟨rfl, rfl, rfl, rfl, rfl, rfl⟩
  clearError _ := CursorInv.same ⟨rfl, rfl, rfl, rfl, rfl, rfl⟩
  resetState _ _ := CursorInv.reset rfl rfl rfl rfl rfl
  desCleanup _ := CursorInv.same ⟨rfl, rfl, rfl, rfl, rfl, rfl⟩

/-- No host write touches a cursor. -/
theorem sameCursors_written {s t : State} (h : Written s t) : SameCursors s t := by
  cases h <;> exact ⟨rfl, rfl, rfl, rfl, rfl, rfl⟩

theorem CursorInv.moved {s t : State} (h : AgentMove s t) (hs : CursorInv s) : CursorInv t := by
  cases h with
  | host h n => exact hs.same ⟨rfl, rfl, rfl, rfl, rfl, rfl⟩
  | write h hw =>
    exact (hs.same ⟨rfl, rfl, rfl, rfl, rfl, rfl⟩ : CursorInv { s with host := h }).same (sameCursors_written hw)
  | present bytes hp =>
    obtain ⟨hbuf, hacc, hin, hout, -⟩ := hs
    exact ⟨hbuf, hacc, hin, hout, fun he => by rw [show s.inPhase = .eos from he] at hp; cases hp⟩
  | deliver bytes hp =>
    obtain ⟨hbuf, hacc, hin, hout, -⟩ := hs
    exact ⟨hbuf, hacc, hin, hout, fun he => absurd he hp⟩

/-- Settles O55: `ReadBit` and `WriteBit` move one bit and count one, the discard counts what it drops, and nothing else
touches a cursor. -/
theorem stepKeepsTheCursors : Obligations.StepKeepsTheCursors := by
  intro s t hs h
  obtain ⟨rest, hcore | ⟨k, -, rfl⟩ | hmove⟩ := step_next h
  · exact coreKeeps_cursors.coreStep (s := { s with agenda := rest })
      (hs.same ⟨rfl, rfl, rfl, rfl, rfl, rfl⟩) hcore
  · exact CursorInv.reset rfl rfl rfl rfl rfl
  · exact CursorInv.moved (s := { s with agenda := rest }) hmove (hs.same ⟨rfl, rfl, rfl, rfl, rfl, rfl⟩)

end Sys2Proof.Machine
end

section
/-! SUPPORT. The node store and the code table: what BUILD_TABLE can do, that every action keeps the stores in form
(10_state.md rules R29, R39, R40 and R45), and that a valid table is that of the tree (R29). -/

namespace Sys2Proof.Machine

/-- The node store, NODE_COUNT, ROOT, the code table and TABLE_VALID are the same. -/
def SameStores (s t : State) : Prop :=
  t.node = s.node ∧ t.nodeCount = s.nodeCount ∧ t.root = s.root ∧ t.tbl = s.tbl ∧ t.tableValid = s.tableValid

theorem frameStores : Frame SameStores where
  refl _ := ⟨rfl, rfl, rfl, rfl, rfl⟩
  trans := fun ⟨h₁, h₂, h₃, h₄, h₅⟩ ⟨k₁, k₂, k₃, k₄, k₅⟩ =>
    ⟨k₁.trans h₁, k₂.trans h₂, k₃.trans h₃, k₄.trans h₄, k₅.trans h₅⟩

theorem SameStores.of_eq {s t u : State} (h : t = u) (hu : SameStores s u) : SameStores s t := h ▸ hu

/-- Completion leaves the stores alone. -/
theorem sameStores_settle (op : BitVec 4) (r : EStateM.Result Err State Unit) :
    SameStores (endState r) (settle op r) := by
  rcases settle_cases op r with he | ⟨e, he⟩ <;> rw [he] <;> exact ⟨rfl, rfl, rfl, rfl, rfl⟩

/-- The encoder and the decoder leave the stores alone. -/
theorem admitsPorts_sameStores : AdmitsPorts SameStores where
  toFrame := frameStores
  read s := .of_eq (readBit_changes s) ⟨rfl, rfl, rfl, rfl, rfl⟩
  write b s := .of_eq (writeBit_sameButOut b s) ⟨rfl, rfl, rfl, rfl, rfl⟩
  flush _ := ⟨rfl, rfl, rfl, rfl, rfl⟩
  result _ := ⟨rfl, rfl, rfl, rfl, rfl⟩
  decNode _ _ := ⟨rfl, rfl, rfl, rfl, rfl⟩
  arrive n d sym s := .of_eq (arrive_sameButDec n d sym s) ⟨rfl, rfl, rfl, rfl, rfl⟩

/-! ### BUILD_TABLE -/

/-- The walk of BUILD_TABLE leaves the tree alone. -/
theorem SameButTbl.tree {s t : State} (h : SameButTbl s t) :
    t.node = s.node ∧ t.nodeCount = s.nodeCount ∧ t.root = s.root := by
  unfold SameButTbl at h
  rw [h]
  exact ⟨rfl, rfl, rfl⟩

/-- BUILD_TABLE of a walk that has entered every leaf, end of message among them (R140). -/
theorem buildTableBody_ok {s u : State}
    (hwalk : tblNode (Config.maxDepth + 1) s.root 0#10 [] (invalidateTable s) = .ok () u)
    (heom : (u.tbl.get 256).isSome = true) : buildTableBody s = .ok () { u with tableValid := true } := by
  obtain ⟨cw, hg⟩ := Option.isSome_iff_exists.mp heom
  have hcheck : tblCheckEom u = .ok () u := by
    unfold tblCheckEom
    rw [show Config.eom.toNat = 256 from rfl, hg]
  simp only [buildTableBody, bind_apply, update_apply, withCleanup_apply, withState_apply, invalidateTable_root, hwalk,
    hcheck]

/-- How BUILD_TABLE ends (R140): the walk has entered every leaf, end of message among them, and TABLE_VALID is set;
or it raises, with the table empty and invalid. -/
theorem buildTableBody_cases (s : State) :
    (∃ u, tblNode (Config.maxDepth + 1) s.root 0#10 [] (invalidateTable s) = .ok () u ∧
      (u.tbl.get 256).isSome = true ∧ buildTableBody s = .ok () { u with tableValid := true }) ∨
    ∃ e, buildTableBody s = .error e (invalidateTable s) := by
  have hwalk := tblNode_changes (Config.maxDepth + 1) s.root 0#10 [] (invalidateTable s)
  have hundo : ∀ u, SameButTbl (invalidateTable s) u → invalidateTable u = invalidateTable s := by
    intro u hu
    unfold SameButTbl at hu
    rw [hu]
    rfl
  cases ht : tblNode (Config.maxDepth + 1) s.root 0#10 [] (invalidateTable s) with
  | error e u =>
    rw [ht] at hwalk
    refine .inr ⟨e, ?_⟩
    simp only [buildTableBody, bind_apply, update_apply, withCleanup_apply, withState_apply, invalidateTable_root, ht,
      hundo u hwalk]
  | ok x u =>
    rw [ht] at hwalk
    by_cases heom : (u.tbl.get 256).isSome = true
    · exact .inl ⟨u, rfl, heom, buildTableBody_ok ht heom⟩
    have hcheck : tblCheckEom u = .error { code := .treeInvalid, value := 0x1FF#28 } u := by
      unfold tblCheckEom
      rw [show Config.eom.toNat = 256 from rfl, Option.not_isSome_iff_eq_none.mp heom]
      rfl
    refine .inr ⟨{ code := .treeInvalid, value := 0x1FF#28 }, ?_⟩
    simp only [buildTableBody, bind_apply, update_apply, withCleanup_apply, withState_apply, invalidateTable_root, ht,
      hcheck, hundo u hwalk]

/-! ### The form of the stores -/

/-- The code table is canonical, and no codeword is longer than MAX_DEPTH (R45). -/
def TableForm (s : State) : Prop :=
  Memory.wf Config.nsym s.tbl = true ∧ ∀ k cw, s.tbl.get k = some cw → cw.length ≤ Config.maxDepth

theorem tblLeaf_keeps_form {sym : Sym} {path : List Bool} (hs : sym.toNat < Config.nsym)
    (hp : path.length ≤ Config.maxDepth) : Changes (Preserves TableForm) (tblLeaf sym path) := by
  intro s ⟨hwf, hlen⟩
  unfold tblLeaf
  split
  · exact ⟨hwf, hlen⟩
  · refine ⟨setCodeword_wf path hs hwf, fun k cw hk => ?_⟩
    simp only [endState_ok, setCodeword, Memory.get_put] at hk
    split at hk
    · cases hk; exact hp
    · exact hlen k cw hk

theorem tblNode_keeps_form (levels : Nat) : ∀ n p path, path.length + levels ≤ Config.maxDepth + 1 →
    Changes (Preserves TableForm) (tblNode levels n p path) := by
  induction levels with
  | zero => exact fun n p path _ => Changes.raise (framePreserves _) _ _
  | succ levels ih =>
    intro n p path hpath
    have hlen : path.length ≤ Config.maxDepth := by omega
    have hbelow (b : Bool) : (path ++ [b]).length + levels ≤ Config.maxDepth + 1 := by
      rw [List.length_append, List.length_singleton]; omega
    refine Changes.bind (framePreserves _) (visit_changes (framePreserves _) n) fun v => ?_
    cases v with
    | branch l r =>
      exact Changes.bind (framePreserves _) (ih l n _ (hbelow false)) fun _ => ih r n _ (hbelow true)
    | byte b => exact tblLeaf_keeps_form (symOfByte_lt b) hlen
    | eom => exact tblLeaf_keeps_form (by decide) hlen

/-- StoreInv reads the stores only. -/
theorem StoreInv.same {s t : State} (h : SameStores s t) (hs : StoreInv s) : StoreInv t := by
  obtain ⟨hnode, hcount, -, htbl, hvalid⟩ := h
  unfold StoreInv
  rw [hnode, hcount, htbl, hvalid]
  exact hs

/-- StoreInv with another node store in form. -/
theorem StoreInv.nodes {s t : State} (hs : StoreInv s) (hnode : Memory.wf Config.nodeCap t.node = true)
    (hcount : t.nodeCount.toNat ≤ Config.nodeCap) (htbl : t.tbl = s.tbl) (hvalid : t.tableValid = s.tableValid) :
    StoreInv t := by
  obtain ⟨-, hwf, -, hlen, hinvalid, heom⟩ := hs
  unfold StoreInv
  rw [htbl, hvalid]
  exact ⟨hnode, hwf, hcount, hlen, hinvalid, heom⟩

/-- StoreInv with the table invalidated (R29). -/
theorem StoreInv.invalidated {t : State} (hnode : Memory.wf Config.nodeCap t.node = true)
    (hcount : t.nodeCount.toNat ≤ Config.nodeCap) (htbl : t.tbl = []) (hvalid : t.tableValid = false) :
    StoreInv t := by
  unfold StoreInv
  rw [htbl, hvalid]
  exact ⟨hnode, rfl, hcount, fun k cw h => (by cases h), fun _ => rfl, fun h => by cases h⟩

theorem buildTableBody_keeps_stores : Changes (Preserves StoreInv) buildTableBody := by
  intro s hs
  obtain ⟨hnode, -, hcount, -, -, -⟩ := hs
  rcases buildTableBody_cases s with ⟨u, hwalk, heom, hb⟩ | ⟨e, hb⟩ <;> rw [hb]
  · have hform := tblNode_keeps_form (Config.maxDepth + 1) s.root 0#10 [] (by simp) (invalidateTable s)
      ⟨rfl, fun k cw h => by cases h⟩
    have hsame := tblNode_changes (Config.maxDepth + 1) s.root 0#10 [] (invalidateTable s)
    rw [hwalk] at hform hsame
    obtain ⟨hwf, hlen⟩ := hform
    obtain ⟨hnode', hcount', -⟩ := SameButTbl.tree hsame
    exact ⟨hnode' ▸ hnode, hwf, hcount' ▸ hcount, hlen, fun h => (by cases h), fun _ => heom⟩
  · exact .invalidated hnode hcount rfl rfl

theorem allocNode_keeps_stores : Changes (Preserves StoreInv) allocNode := by
  intro s hs
  unfold allocNode
  split
  · exact hs
  · obtain ⟨hnode, -, hcount, -⟩ := id hs
    have hroom : s.nodeCount.toNat ≠ 1024 := fun h => ‹¬ s.nodeCount = 1024#11› (BitVec.eq_of_toNat_eq h)
    refine hs.nodes hnode ?_ rfl rfl
    simp only [Config.nodeCap, endState_ok, BitVec.toNat_add, BitVec.toNat_ofNat] at hcount ⊢
    omega

theorem setNode_keeps_stores (i : Idx) (n : Node) (s : State) : Preserves StoreInv s (setNode i n s) := by
  intro hs
  obtain ⟨hnode, -, hcount, -⟩ := id hs
  exact hs.nodes (setNode_wf i n hnode) hcount rfl rfl

theorem admitsTdes_stores : AdmitsTdes (Preserves StoreInv) where
  toFrame := framePreserves _
  read := admitsPorts_sameStores.read.mono fun _ _ => StoreInv.same
  alloc := allocNode_keeps_stores
  setNode := setNode_keeps_stores
  setRight i s := by
    unfold setRight
    split
    · exact setNode_keeps_stores _ _ s
    · exact fun hs => hs
  stack _ _ := StoreInv.same ⟨rfl, rfl, rfl, rfl, rfl⟩

theorem desCleanup_keeps_stores (s : State) : Preserves StoreInv s (desCleanup s) :=
  fun hs => hs.nodes rfl (Nat.zero_le _) rfl rfl

theorem admits_stores : Admits (Preserves StoreInv) where
  toAdmitsPorts := admitsPorts_sameStores.mono (framePreserves _) fun _ _ => StoreInv.same
  build := buildTableBody_keeps_stores
  des := admitsTdes_stores.desTreeBody (fun _ _ => .invalidated rfl (Nat.zero_le _) rfl rfl) desCleanup_keeps_stores

theorem coreKeeps_stores : CoreKeeps StoreInv where
  admits := admits_stores
  tdes := admitsTdes_stores
  complete _ := StoreInv.same ⟨rfl, rfl, rfl, rfl, rfl⟩
  recordError _ _ _ := StoreInv.same ⟨rfl, rfl, rfl, rfl, rfl⟩
  clearError _ := StoreInv.same ⟨rfl, rfl, rfl, rfl, rfl⟩
  resetState _ _ := .invalidated rfl (Nat.zero_le _) rfl rfl
  desCleanup := desCleanup_keeps_stores

theorem StoreInv.written {s t : State} (hs : StoreInv s) (h : Written s t) : StoreInv t := by
  obtain ⟨hnode, -, hcount, -⟩ := id hs
  cases h with
  | root w => exact .invalidated hnode hcount rfl rfl
  | nodeData w => exact .invalidated (setNode_wf _ _ hnode) hcount rfl rfl
  | _ => exact hs.same ⟨rfl, rfl, rfl, rfl, rfl⟩

theorem StoreInv.moved {s t : State} (hs : StoreInv s) (h : AgentMove s t) : StoreInv t := by
  cases h with
  | write h hw => exact (hs.same ⟨rfl, rfl, rfl, rfl, rfl⟩ : StoreInv { s with host := h }).written hw
  | _ => exact hs.same ⟨rfl, rfl, rfl, rfl, rfl⟩

/-- Settles O56: a store write is below its bound, allocation stops at NODE_CAP, and a table is entered with codewords
no longer than the levels of the walk, and valid only when the walk has ended. -/
theorem stepKeepsTheStores : Obligations.StepKeepsTheStores := by
  intro s t hs h
  obtain ⟨rest, hcore | ⟨k, -, rfl⟩ | hmove⟩ := step_next h
  · exact coreKeeps_stores.coreStep (s := { s with agenda := rest }) (hs.same ⟨rfl, rfl, rfl, rfl, rfl⟩) hcore
  · exact .invalidated rfl (Nat.zero_le _) rfl rfl
  · exact (hs.same ⟨rfl, rfl, rfl, rfl, rfl⟩ : StoreInv { s with agenda := rest }).moved hmove

end Sys2Proof.Machine
end

section
/-! SUPPORT. Actions that commute with a change of the state they do not look at. Two changes matter: another value in
every field but the node store and the code table, which BUILD_TABLE's walk does not see (10_state.md rule R29), and
other selectors or another traversal stack, which no command but SOFT_RESET sees (R37, R43). -/

namespace Sys2Proof.Machine

variable {α β : Type}

/-- The same end, with a value or a raise, and its state changed by `f`. -/
def mapEnd (f : State → State) : EStateM.Result Err State α → EStateM.Result Err State α
  | .ok a t => .ok a (f t)
  | .error e t => .error e (f t)

@[simp] theorem mapEnd_ok (f : State → State) (a : α) (t : State) :
    mapEnd f (.ok a t : EStateM.Result Err State α) = .ok a (f t) := rfl

@[simp] theorem mapEnd_error (f : State → State) (e : Err) (t : State) :
    mapEnd f (.error e t : EStateM.Result Err State α) = .error e (f t) := rfl

/-- The action does the same before and after `f`. -/
def Commutes (f : State → State) (x : Act α) : Prop := ∀ s, x (f s) = mapEnd f (x s)

namespace Commutes

variable {f : State → State}

theorem bind {x : Act α} {g : α → Act β} (hx : Commutes f x) (hg : ∀ a, Commutes f (g a)) : Commutes f (x >>= g) := by
  intro s
  rw [bind_apply, bind_apply, hx s]
  cases x s with
  | ok a t => exact hg a t
  | error e t => rfl

theorem pure (a : α) : Commutes f (Pure.pure a : Act α) := fun _ => rfl

theorem raise (c : ErrCode) (v : BitVec 28) : Commutes f (Machine.raise c v : Act α) := fun _ => rfl

theorem update {g : State → State} (hg : ∀ s, g (f s) = f (g s)) : Commutes f (Machine.update g) :=
  fun s => congrArg (EStateM.Result.ok ()) (hg s)

theorem withState {g : State → Act α} (hsame : ∀ s, g (f s) = g s) (hg : ∀ s, Commutes f (g s)) :
    Commutes f (Machine.withState g) := by
  intro s
  rw [withState_apply, withState_apply, hsame, hg]

theorem withCleanup {c : State → State} {x : Act Unit} (hc : ∀ s, c (f s) = f (c s)) (hx : Commutes f x) :
    Commutes f (Machine.withCleanup c x) := by
  intro s
  rw [withCleanup_apply, withCleanup_apply, hx s]
  cases x s with
  | ok u t => rfl
  | error e t => exact congrArg (EStateM.Result.error e) (hc t)

/-- The node check looks at the node store only. -/
theorem visit (hnode : ∀ s, (f s).node = s.node) (n : Idx) : Commutes f (Machine.visit n) := by
  intro s
  cases hg : s.node.get n.toNat with
  | none => rw [visit_none hg, visit_none (by rw [hnode]; exact hg), mapEnd_error]
  | some e =>
    rw [visit_entry hg, visit_entry (by rw [hnode]; exact hg)]
    cases e.kind <;> rfl

/-- BUILD_TABLE's walk looks at the node store and the code table only. -/
theorem tblNode (hnode : ∀ s, (f s).node = s.node) (htbl : ∀ s, (f s).tbl = s.tbl)
    (hset : ∀ sym path s, setCodeword sym path (f s) = f (setCodeword sym path s)) (levels : Nat) :
    ∀ n p path, Commutes f (Machine.tblNode levels n p path) := by
  have hleaf (sym : Sym) (path : List Bool) : Commutes f (tblLeaf sym path) := by
    intro s
    unfold tblLeaf
    rw [htbl]
    cases s.tbl.get sym.toNat with
    | none => exact congrArg (EStateM.Result.ok ()) (hset sym path s)
    | some cw => rfl
  induction levels with
  | zero => exact fun n p path => raise _ _
  | succ levels ih =>
    intro n p path
    refine bind (visit hnode n) fun v => ?_
    cases v with
    | branch l r => exact bind (ih l n _) fun _ => ih r n _
    | byte b => exact hleaf _ _
    | eom => exact hleaf _ _

end Commutes

/-! ### A valid table is that of the tree -/

/-- `c` with the node store and the code table of `s`. -/
def withStoresOf (c s : State) : State := { c with node := s.node, tbl := s.tbl }

/-- BUILD_TABLE looks at the node store and ROOT only: from another state with the same tree it builds the same table.
-/
theorem buildTableBody_sameTree {s s' t : State} (hnode : s'.node = s.node) (hroot : s'.root = s.root)
    (h : buildTableBody s = .ok () t) : ∃ t', buildTableBody s' = .ok () t' ∧ t'.tbl = t.tbl := by
  obtain ⟨u, hwalk, heom, hb⟩ := (buildTableBody_cases s).resolve_right (by rintro ⟨e, he⟩; rw [h] at he; cases he)
  rw [h] at hb
  cases hb
  have hstart : invalidateTable s' = withStoresOf (invalidateTable s') (invalidateTable s) := by
    unfold withStoresOf
    rw [invalidateTable_node, ← hnode]
    rfl
  have hwalk' : tblNode (Config.maxDepth + 1) s'.root 0#10 [] (invalidateTable s') =
      .ok () (withStoresOf (invalidateTable s') u) := by
    have hcomm := Commutes.tblNode (f := withStoresOf (invalidateTable s')) (fun _ => rfl) (fun _ => rfl)
      (fun _ _ _ => rfl) (Config.maxDepth + 1) s.root 0#10 [] (invalidateTable s)
    rw [hwalk, ← hstart] at hcomm
    rw [hroot, hcomm, mapEnd_ok]
  exact ⟨_, buildTableBody_ok hwalk' heom, rfl⟩

/-- The first half of TableInv: a valid table is the one BUILD_TABLE would build now (R29). -/
def TableOfTree (s : State) : Prop := s.tableValid = true → ∃ t, buildTableBody s = .ok () t ∧ t.tbl = s.tbl

/-- TableOfTree reads the stores only. -/
theorem TableOfTree.same {s t : State} (h : SameStores s t) (hs : TableOfTree s) : TableOfTree t := by
  obtain ⟨hnode, -, hroot, htbl, hvalid⟩ := h
  intro ht
  obtain ⟨u, hu, hutbl⟩ := hs (hvalid ▸ ht)
  obtain ⟨v, hv, hvtbl⟩ := buildTableBody_sameTree hnode hroot hu
  exact ⟨v, hv, by rw [hvtbl, hutbl, htbl]⟩

/-- TableOfTree asks nothing of an invalid table. -/
theorem TableOfTree.invalid {t : State} (h : t.tableValid = false) : TableOfTree t :=
  fun ht => by rw [h] at ht; cases ht

theorem buildTableBody_tableOfTree (s : State) : TableOfTree (endState (buildTableBody s)) := by
  rcases buildTableBody_cases s with ⟨u, hwalk, -, hb⟩ | ⟨e, hb⟩
  · intro _
    have hsame := tblNode_changes (Config.maxDepth + 1) s.root 0#10 [] (invalidateTable s)
    rw [hwalk] at hsame
    obtain ⟨hnode, -, hroot⟩ := SameButTbl.tree hsame
    obtain ⟨v, hv, hvtbl⟩ := buildTableBody_sameTree (s' := { u with tableValid := true }) hnode hroot hb
    rw [hb]
    exact ⟨v, hv, hvtbl⟩
  · rw [hb]
    exact .invalid rfl

/-- DES_TREE leaves the table invalid, with or without an error (R121). -/
theorem desTreeBody_invalidates (s : State) : (endState (desTreeBody s)).tableValid = false := by
  have hnode := desNode_changes (Config.maxDepth + 1) 0#10 (desStart s)
  rw [desTreeBody, bind_apply, update_apply]
  dsimp only
  rw [withCleanup_apply]
  cases hd : desNode (Config.maxDepth + 1) 0#10 (desStart s) with
  | ok u t => rw [hd] at hnode; exact congrArg State.tableValid hnode
  | error e t => rw [hd] at hnode; exact congrArg State.tableValid hnode

theorem admits_tableOfTree : Admits (Preserves TableOfTree) where
  toAdmitsPorts := admitsPorts_sameStores.mono (framePreserves _) fun _ _ => TableOfTree.same
  build s _ := buildTableBody_tableOfTree s
  des s _ := .invalid (desTreeBody_invalidates s)

/-- A command keeps a valid table the table of the tree. -/
theorem tableOfTree_command {i : Instr} {op : BitVec 4} (hi : opcode i = some op) {s : State} (hs : TableOfTree s) :
    TableOfTree (settle op (instrBody i s)) := by
  by_cases hreset : i = .softReset
  · subst hreset; exact .invalid rfl
  have hend : TableOfTree (endState (instrBody i s)) := by
    by_cases hclr : i = .clrErr
    · subst hclr; exact TableOfTree.same (s := s) (t := clearError s) ⟨rfl, rfl, rfl, rfl, rfl⟩ hs
    · exact admits_tableOfTree.command hi hclr hreset s hs
  exact TableOfTree.same (sameStores_settle op _) hend

/-- TABLE_VALID is the same. -/
def SameTableValid (s t : State) : Prop := t.tableValid = s.tableValid

theorem frameTableValid : Frame SameTableValid := ⟨fun _ => rfl, fun h₁ h₂ => h₂.trans h₁⟩

theorem SameTableValid.of_eq {s t u : State} (h : t = u) (hu : SameTableValid s u) : SameTableValid s t := h ▸ hu

/-- Reading a description leaves TABLE_VALID alone: the command that reads it has made it 0 before. -/
theorem admitsTdes_sameTableValid : AdmitsTdes SameTableValid where
  toFrame := frameTableValid
  read := admitsPorts_sameStores.read.mono fun _ _ ⟨_, _, _, _, hvalid⟩ => hvalid
  alloc s := .of_eq (allocNode_changes s) rfl
  setNode _ _ _ := rfl
  setRight i s := .of_eq (setRight_sameButDes i s) rfl
  stack _ _ := rfl

theorem settleProduction_tableValid {x : Act Unit} (hx : TakesProduction x) (s : State) :
    (settleProduction (x s)).tableValid = s.tableValid := by
  rcases settleProduction_cases (x s) with he | ⟨op, e, he⟩ <;> rw [he]
  · exact admitsTdes_sameTableValid.production hx s
  · exact admitsTdes_sameTableValid.production hx s

/-- While a description is being read TABLE_VALID does not change (R121). -/
theorem productionStep_tableValid {s t : State} (h : productionStep s = .next t) : t.tableValid = s.tableValid := by
  obtain ⟨x, hx, hnext | ⟨-, hfin⟩⟩ := productionStep_cases s
  · rw [hnext] at h; cases h; exact settleProduction_tableValid hx s
  · rw [hfin] at h
    rw [← settleProduction_tableValid hx s]
    generalize settleProduction (x s) = u at h
    rcases finishDescription_next h with ⟨-, rfl⟩ | rfl | rfl
    · rfl
    · rfl
    · obtain ⟨-, -, -, -, htail⟩ :=
        frameStores.trans (admitsPorts_sameStores.decStreamTail u) (sameStores_settle 0xB#4 _)
      exact htail

/-- TableInv of a state with the same stores and traversal stack. -/
theorem TableInv.same {s t : State} (hs : TableInv s) (h : SameStores s t) (hd : t.desStack = s.desStack) :
    TableInv t := by
  obtain ⟨htree, hstack⟩ := hs
  refine ⟨TableOfTree.same h htree, fun hne => ?_⟩
  obtain ⟨-, -, -, -, hvalid⟩ := h
  rw [hvalid]
  exact hstack (hd ▸ hne)

/-- TableInv of a state with TABLE_VALID = 0. -/
theorem TableInv.invalid {t : State} (h : t.tableValid = false) : TableInv t := ⟨TableOfTree.invalid h, fun _ => h⟩

theorem TableInv.coreStep {s t : State} (hs : TableInv s) (h : coreStep s = .next t) : TableInv t := by
  rcases coreStep_next h with ⟨-, rfl⟩ | ⟨-, hd, i, op, hi, rfl⟩ | ⟨-, hd, hp⟩
  · exact hs
  · obtain ⟨-, hstack, -⟩ := completed_command hi hd
    exact ⟨tableOfTree_command hi hs.1, fun hne => absurd hstack hne⟩
  · exact .invalid ((productionStep_tableValid hp).trans (hs.2 hd))

theorem TableInv.written {s t : State} (hs : TableInv s) (h : Written s t) : TableInv t := by
  cases h with
  | root w => exact .invalid rfl
  | nodeData w => exact .invalid rfl
  | _ => exact hs.same ⟨rfl, rfl, rfl, rfl, rfl⟩ rfl

theorem TableInv.moved {s t : State} (hs : TableInv s) (h : AgentMove s t) : TableInv t := by
  cases h with
  | write h hw => exact (hs.same ⟨rfl, rfl, rfl, rfl, rfl⟩ rfl : TableInv { s with host := h }).written hw
  | _ => exact hs.same ⟨rfl, rfl, rfl, rfl, rfl⟩ rfl

/-- Settles O54: every write of the node store or of ROOT invalidates the table or happens while it is invalid, and
BUILD_TABLE looks at nothing else. -/
theorem stepKeepsTheTableOfTheTree : Obligations.StepKeepsTheTableOfTheTree := by
  intro s t _ hs h
  obtain ⟨rest, hcore | ⟨k, -, rfl⟩ | hmove⟩ := step_next h
  · exact TableInv.coreStep (s := { s with agenda := rest }) (hs.same ⟨rfl, rfl, rfl, rfl, rfl⟩ rfl) hcore
  · exact .invalid rfl
  · exact (hs.same ⟨rfl, rfl, rfl, rfl, rfl⟩ rfl : TableInv { s with agenda := rest }).moved hmove

end Sys2Proof.Machine
end

section
/-! SUPPORT. NODE_ADDR, TBL_SEL and the traversal stack, which no action of a command looks at (10_state.md rules R37,
R43 and R54). -/

namespace Sys2Proof.Machine

/-- Other selectors, and the traversal stack changed by `k`. -/
def aside (a : Idx) (sel : TblSel) (k : List DesFrame → List DesFrame) (s : State) : State :=
  { s with nodeAddr := a, tblSel := sel, desStack := k s.desStack }

section
variable {a : Idx} {sel : TblSel} {k : List DesFrame → List DesFrame}

/-! ### Reading a description -/

theorem readBit_aside : Commutes (aside a sel k) readBit := by
  intro s
  cases hb : s.inBuf with
  | cons b rest => simp only [readBit, show (aside a sel k s).inBuf = b :: rest from hb, hb]; rfl
  | nil =>
    simp only [readBit, show (aside a sel k s).inBuf = [] from hb, hb]
    cases hp : s.inPhase <;> cases hq : s.inQ <;>
      simp only [portRead, show (aside a sel k s).inPhase = _ from hp, show (aside a sel k s).inQ = _ from hq, hp,
        hq] <;>
      rfl

theorem readBitsFrom_aside (n : Nat) : ∀ acc, Commutes (aside a sel k) (readBitsFrom n acc) := by
  induction n with
  | zero => exact fun acc => .pure _
  | succ n ih =>
    refine fun acc => .bind (readBit_aside) fun r => ?_
    cases r with
    | none => exact .pure _
    | some b => exact ih _

theorem treeBit_aside (i : Idx) : Commutes (aside a sel k) (treeBit i) := by
  refine .bind (readBit_aside) fun r => ?_
  cases r with
  | none => exact .raise _ _
  | some b => exact .pure _

theorem readProduction_aside (i : Idx) : Commutes (aside a sel k) (readProduction i) := by
  refine .bind (treeBit_aside i) fun t => ?_
  cases t with
  | true => exact .pure _
  | false =>
    refine .bind (treeBit_aside i) fun t2 => ?_
    cases t2 with
    | false => exact .pure _
    | true =>
      refine .bind (readBitsFrom_aside 8 0) fun r => ?_
      cases r with
      | none => exact .raise _ _
      | some v => exact .pure _

theorem skipBits_aside (i : Idx) (n : Nat) : Commutes (aside a sel k) (skipBits i n) := by
  induction n with
  | zero => exact .pure _
  | succ n ih => exact .bind (treeBit_aside i) fun _ => ih

theorem allocNode_aside : Commutes (aside a sel k) allocNode := by
  intro s
  unfold allocNode
  by_cases hc : s.nodeCount = 1024#11
  · rw [if_pos hc, if_pos (show (aside a sel k s).nodeCount = 1024#11 from hc)]; rfl
  · rw [if_neg hc, if_neg (show ¬ (aside a sel k s).nodeCount = 1024#11 from hc)]; rfl

theorem setRight_aside (i : Idx) (s : State) : setRight i (aside a sel k s) = aside a sel k (setRight i s) := by
  unfold setRight
  cases hg : s.node.get i.toNat with
  | none => simp only [show (aside a sel k s).node.get i.toNat = none from hg]
  | some e => simp only [show (aside a sel k s).node.get i.toNat = some e from hg]; rfl

theorem desNode_aside (levels : Nat) : ∀ p, Commutes (aside a sel k) (desNode levels p) := by
  induction levels with
  | zero => exact fun p => .raise _ _
  | succ levels ih =>
    refine fun p => .bind (allocNode_aside) fun i => .bind (readProduction_aside i) fun prod =>
      .bind (.update fun _ => rfl) fun _ => ?_
    cases prod with
    | branch => exact .bind (ih i) fun _ => .bind (.update (setRight_aside i)) fun _ => ih i
    | leafByte v => exact .pure _
    | leafEom => exact .pure _

theorem desTreeBody_aside : Commutes (aside a sel k) desTreeBody :=
  .bind (.update fun _ => rfl) fun _ => .withCleanup (fun _ => rfl) (desNode_aside _ _)

theorem desFrame_aside (frame : DesFrame) : Commutes (aside a sel k) (desFrame frame) := by
  have halloc : Commutes (aside a sel k) (desAlloc frame) := by
    unfold desAlloc
    split
    · exact .raise _ _
    · exact .bind (allocNode_aside) fun _ => .pure _
  intro s
  unfold desFrame
  split
  · rw [setRight_aside]; exact halloc _
  · exact halloc s

/-! ### The encoder and the decoder -/

theorem visit_aside (n : Idx) : Commutes (aside a sel k) (visit n) :=
  Commutes.visit (f := aside a sel k) (fun _ => rfl) n

theorem tblNode_aside (levels : Nat) (n p : Idx) (path : List Bool) :
    Commutes (aside a sel k) (tblNode levels n p path) :=
  Commutes.tblNode (f := aside a sel k) (fun _ => rfl) (fun _ => rfl) (fun _ _ _ => rfl) levels n p path

theorem writeBit_aside (b : Bool) (s : State) : writeBit b (aside a sel k s) = aside a sel k (writeBit b s) := by
  unfold writeBit
  by_cases h : (s.outAcc ++ [b]).length = 8
  · rw [if_pos h, if_pos (show ((aside a sel k s).outAcc ++ [b]).length = 8 from h)]; rfl
  · rw [if_neg h, if_neg (show ¬ ((aside a sel k s).outAcc ++ [b]).length = 8 from h)]; rfl

theorem writeSeq_aside (bs : List Bool) : ∀ s, writeSeq bs (aside a sel k s) = aside a sel k (writeSeq bs s) := by
  induction bs with
  | nil => exact fun _ => rfl
  | cons b bs ih => intro s; rw [writeSeq, writeBit_aside, ih]; rfl

theorem padOut_aside (n : Nat) : ∀ s, padOut n (aside a sel k s) = aside a sel k (padOut n s) := by
  induction n with
  | zero => exact fun _ => rfl
  | succ n ih =>
    intro s
    unfold padOut
    by_cases h : s.outAcc = []
    · rw [if_pos h, if_pos (show (aside a sel k s).outAcc = [] from h)]
    · rw [if_neg h, if_neg (show ¬ (aside a sel k s).outAcc = [] from h), writeBit_aside, ih]

theorem serNode_aside (levels : Nat) : ∀ n p, Commutes (aside a sel k) (serNode levels n p) := by
  have bit (b : Bool) : Commutes (aside a sel k) (update (writeBit b)) := .update (writeBit_aside b)
  induction levels with
  | zero => exact fun n p => .raise _ _
  | succ levels ih =>
    refine fun n p => .bind (visit_aside n) fun v => ?_
    cases v with
    | branch l r => exact .bind (bit true) fun _ => .bind (ih l n) fun _ => ih r n
    | byte b => exact .bind (bit false) fun _ => .bind (bit true) fun _ => .update (writeSeq_aside _)
    | eom => exact .bind (bit false) fun _ => bit false

theorem serTreeBody_aside : Commutes (aside a sel k) serTreeBody :=
  .withState (fun _ => rfl) fun _ => serNode_aside _ _ _

theorem buildTableBody_aside : Commutes (aside a sel k) buildTableBody := by
  have hcheck : Commutes (aside a sel k) tblCheckEom := by
    intro s
    unfold tblCheckEom
    cases hg : s.tbl.get Config.eom.toNat with
    | none => simp only [show (aside a sel k s).tbl.get Config.eom.toNat = none from hg]; rfl
    | some cw => simp only [show (aside a sel k s).tbl.get Config.eom.toNat = some cw from hg]; rfl
  have hwalk : Commutes (aside a sel k) (do
      withState fun s => tblNode (Config.maxDepth + 1) s.root 0#10 []
      tblCheckEom) :=
    .bind (.withState (fun _ => rfl) fun _ => tblNode_aside _ _ _ _)
      fun _ => hcheck
  exact .bind (.update fun _ => rfl) fun _ => .bind (.withCleanup (fun _ => rfl) hwalk) fun _ => .update fun _ => rfl

theorem encSymBody_aside (sym : Sym) : Commutes (aside a sel k) (encSymBody sym) := by
  intro s
  unfold encSymBody
  by_cases hv : s.tableValid = false
  · rw [if_pos hv, if_pos (show (aside a sel k s).tableValid = false from hv)]; rfl
  rw [if_neg hv, if_neg (show ¬ (aside a sel k s).tableValid = false from hv)]
  cases hg : s.tbl.get sym.toNat with
  | none => simp only [show (aside a sel k s).tbl.get sym.toNat = none from hg]; rfl
  | some cw =>
    simp only [show (aside a sel k s).tbl.get sym.toNat = some cw from hg]
    exact congrArg (EStateM.Result.ok ()) (writeSeq_aside cw s)

theorem encPadBody_aside : Commutes (aside a sel k) encPadBody :=
  .update fun s => by rw [padOut_aside]; rfl

theorem requireAligned_aside : Commutes (aside a sel k) requireAligned := by
  refine .withState (fun _ => rfl) fun s => ?_
  split
  · exact .raise _ _
  · exact .pure _

theorem encLoop_aside (fuel : Nat) : Commutes (aside a sel k) (encLoop fuel) := by
  induction fuel with
  | zero => exact .pure _
  | succ fuel ih =>
    refine .bind (readBit_aside) fun b0 => ?_
    cases b0 with
    | none => exact .pure _
    | some b0 =>
      refine .bind (readBitsFrom_aside 7 0) fun r => ?_
      cases r with
      | none => exact .pure _
      | some r => exact .bind (encSymBody_aside _) fun _ => ih

theorem encStreamBody_aside : Commutes (aside a sel k) encStreamBody :=
  .bind (requireAligned_aside) fun _ => .bind (buildTableBody_aside) fun _ =>
    .bind (serTreeBody_aside) fun _ =>
      .bind (.withState (fun _ => rfl) fun _ => encLoop_aside _) fun _ =>
        .bind (encSymBody_aside _) fun _ => encPadBody_aside

theorem walk_aside (levels : Nat) : ∀ d n v, Commutes (aside a sel k) (walk levels d n v) := by
  have stop (n : Idx) (c : ErrCode) :
      Commutes (aside a sel k) (do update (setDecNode n); raise c (n.setWidth 28) : Act (Idx × Nat × Visited)) :=
    .bind (.update fun _ => rfl) fun _ => .raise _ _
  induction levels with
  | zero =>
    intro d n v
    cases v with
    | branch l r => exact stop n _
    | byte b => exact .pure _
    | eom => exact .pure _
  | succ levels ih =>
    intro d n v
    cases v with
    | byte b => exact .pure _
    | eom => exact .pure _
    | branch l r =>
      refine .bind (readBit_aside) fun b => ?_
      cases b with
      | none => exact stop n _
      | some b => exact .bind (visit_aside _) fun v' => ih _ _ _

theorem arrive_aside (n : Idx) (d : Nat) (sym : Sym) (s : State) :
    arrive n d sym (aside a sel k s) = aside a sel k (arrive n d sym s) := by
  unfold arrive
  split <;> rfl

theorem decWalk_aside : Commutes (aside a sel k) decWalk := by
  refine .bind (.withState (fun _ => rfl) fun s => ?_) fun _ => .bind (.update fun _ => rfl) fun _ =>
    .bind (.withState (fun _ => rfl) fun s => .pure _) fun root => .bind (visit_aside root) fun v => ?_
  · split
    · exact .raise _ _
    · exact .pure _
  · have leave (n : Idx) (d : Nat) (sym : Sym) :
        Commutes (aside a sel k) (do update (arrive n d sym); pure sym : Act Sym) :=
      .bind (.update (arrive_aside n d sym)) fun _ => .pure _
    cases v with
    | byte b => exact .raise _ _
    | _ =>
      refine .bind (walk_aside _ _ _ _) fun ⟨n, d, leaf⟩ => ?_
      cases leaf <;> exact leave n d _

theorem decLoop_aside (fuel : Nat) : Commutes (aside a sel k) (decLoop fuel) := by
  induction fuel with
  | zero => exact .pure _
  | succ fuel ih =>
    refine .bind (decWalk_aside) fun sym => ?_
    split
    · exact .pure _
    · exact .bind (.update (writeSeq_aside _)) fun _ => ih

theorem decStreamTail_aside : Commutes (aside a sel k) decStreamTail :=
  .bind (.withState (fun _ => rfl) fun _ => decLoop_aside _) fun _ => .update fun _ => rfl

/-- Every command but SOFT_RESET. -/
theorem command_aside {i : Instr} {op : BitVec 4} (hi : opcode i = some op) (hr : i ≠ .softReset) :
    Commutes (aside a sel k) (instrBody i) := by
  cases i with
  | nop => exact .pure _
  | clrErr => exact .update fun _ => rfl
  | softReset => exact absurd rfl hr
  | serTree => exact serTreeBody_aside
  | desTree => exact desTreeBody_aside
  | buildTable => exact buildTableBody_aside
  | encSym arg => exact encSymBody_aside _
  | encEom => exact encSymBody_aside _
  | encPad => exact encPadBody_aside
  | decSym => exact .bind (decWalk_aside) fun _ => .pure _
  | encStream => exact encStreamBody_aside
  | decStream =>
    exact .bind (requireAligned_aside) fun _ => .bind (desTreeBody_aside) fun _ =>
      decStreamTail_aside
  | branch => cases hi
  | leafByte v => cases hi
  | leafEom => cases hi

/-- A production with the traversal stack it stands on. -/
theorem production_aside {i : Instr} (hi : opcode i = none) : Commutes (aside a sel id) (instrBody i) := by
  have henter : Commutes (aside a sel id) desEnter := by
    intro s
    unfold desEnter
    cases hd : s.desStack with
    | nil =>
      simp only [show (aside a sel id s).desStack = [] from hd]
      exact desFrame_aside (a := a) (sel := sel) (k := id) rootFrame s
    | cons frame rest =>
      simp only [show (aside a sel id s).desStack = frame :: rest from hd]
      exact desFrame_aside (a := a) (sel := sel) (k := id) frame { s with desStack := rest }
  cases i with
  | branch =>
    exact .bind henter fun ⟨d, i⟩ => .bind (skipBits_aside i 1) fun _ =>
      .bind (.update fun _ => rfl) fun _ => .update fun _ => rfl
  | leafByte v =>
    exact .bind henter fun ⟨d, i⟩ => .bind (skipBits_aside i 10) fun _ => .update fun _ => rfl
  | leafEom =>
    exact .bind henter fun ⟨d, i⟩ => .bind (skipBits_aside i 2) fun _ => .update fun _ => rfl
  | _ => cases hi

/-- An instruction but SOFT_RESET does the same with other selectors, and keeps them. -/
theorem exec_aside {i : Instr} {s t : State} (hr : i ≠ .softReset) (h : exec i s = .next t) :
    exec i (aside a sel id s) = .next (aside a sel id t) := by
  cases hi : opcode i with
  | some op =>
    rw [exec_command hi] at h ⊢
    cases h
    rw [command_aside hi hr s]
    cases instrBody i s <;> rfl
  | none =>
    rw [exec_production hi] at h ⊢
    cases h
    rw [production_aside hi s]
    cases instrBody i s <;> rfl

end

/-- Settles O53: every action commutes with a change of the selectors; that they are kept is the case of a change to the
values they have. -/
theorem selectorsDoNotInfluenceInstructions : Obligations.SelectorsDoNotInfluenceInstructions := by
  intro i s t a sel hr h
  have hown : exec i s = .next (aside s.nodeAddr s.tblSel id t) := exec_aside hr h
  rw [h] at hown
  injection hown with hkept
  have haddr : t.nodeAddr = s.nodeAddr := by rw [hkept]; rfl
  have hsel : t.tblSel = s.tblSel := by rw [hkept]; rfl
  exact ⟨haddr, hsel, exec_aside hr h⟩

end Sys2Proof.Machine
end

section
/-! SUPPORT. A description read production by production ends as DES_TREE's recursion does (10_state.md rule R54,
40_tree_codec.md rule R121): one production does what one node of the recursion does, and the traversal stack holds the
subtrees that the recursion still has to read. -/

namespace Sys2Proof.Machine

/-! ### Runs -/

/-- Some number of steps leads from the one state to the other. -/
def Leads (s t : State) : Prop := ∃ n, Host.Core.run Sys2Proof.core n s = .next t

theorem Leads.refl (s : State) : Leads s s := ⟨0, rfl⟩

theorem Leads.head {s t u : State} (h : step s = .next t) (ht : Leads t u) : Leads s u := by
  obtain ⟨n, hn⟩ := ht
  have hs : Sys2Proof.core.step s = .next t := h
  exact ⟨n + 1, by simp only [Host.Core.run, hs]; exact hn⟩

theorem Leads.trans {s t u : State} (h : Leads s t) (ht : Leads t u) : Leads s u := by
  obtain ⟨n, hn⟩ := h
  induction n generalizing s with
  | zero => cases hn; exact ht
  | succ n ih =>
    cases hs : Sys2Proof.core.step s with
    | next v => simp only [Host.Core.run, hs] at hn; exact .head hs (ih hn)
    | fault r => simp only [Host.Core.run, hs] at hn; cases hn
    | refused r => simp only [Host.Core.run, hs] at hn; cases hn

/-! ### One production -/

/-- The instruction of a production that was read. -/
def Production.instr : Production → Instr
  | .branch => .branch
  | .leafByte v => .leafByte v
  | .leafEom => .leafEom

/-- Bits read as a number are bits passed over. -/
theorem skipBits_of_readBitsFrom (i : Idx) (n : Nat) : ∀ {acc v : Nat} {s t : State},
    readBitsFrom n acc s = .ok (some v) t → skipBits i n s = .ok () t := by
  induction n with
  | zero => intro acc v s t h; cases h; rfl
  | succ n ih =>
    intro acc v s t h
    simp only [readBitsFrom, skipBits, treeBit, bind_apply] at h ⊢
    rcases readBit_cases s with ⟨b, rest, u, -, hb, -⟩ | ⟨-, hb⟩ <;> simp only [hb] at h ⊢
    · exact ih h
    · cases h

/-- A production's bits, read to tell which it is, are as many as its instruction passes over. -/
theorem skipBits_of_readProduction {i : Idx} {prod : Production} {s t : State} (h : readProduction i s = .ok prod t) :
    skipBits i prod.bits.length s = .ok () t := by
  simp only [readProduction, bind_apply] at h
  cases hb : treeBit i s with
  | error e u => simp [hb] at h
  | ok b u =>
    simp only [hb] at h
    cases b with
    | true => cases h; simp [Production.bits, skipBits, hb]
    | false =>
      simp only [Bool.false_eq_true, if_false, bind_apply] at h
      cases hb2 : treeBit i u with
      | error e w => simp [hb2] at h
      | ok b2 w =>
        simp only [hb2] at h
        cases b2 with
        | false =>
          cases h
          simp only [Production.bits, List.length_cons, List.length_nil, skipBits, bind_apply, hb, hb2, pure_apply]
        | true =>
          simp only [if_true, bind_apply, readBits] at h
          cases hv : readBitsFrom 8 0 w with
          | error e x => simp [hv] at h
          | ok v x =>
            simp only [hv] at h
            cases v with
            | none => cases h
            | some v =>
              cases h
              have hskip := skipBits_of_readBitsFrom i 8 hv
              simp only [Production.bits, List.length_cons, length_byteBits, skipBits, bind_apply, hb, hb2] at hskip ⊢
              exact hskip

/-- `ReadBits(n)` with fewer bits pending answers `EOS` (R66). -/
theorem readBitsFrom_short (n : Nat) : ∀ {acc : Nat} {s : State}, (pendingBits s).length < n →
    ∃ t, readBitsFrom n acc s = .ok none t := by
  induction n with
  | zero => intro acc s h; omega
  | succ n ih =>
    intro acc s h
    simp only [readBitsFrom, bind_apply]
    rcases readBit_cases s with ⟨b, rest, u, hp, hb, hpu, -⟩ | ⟨-, hb⟩ <;> rw [hb]
    · exact ih (by rw [hpu]; rw [hp] at h; simpa using h)
    · exact ⟨_, rfl⟩

theorem treeBit_eos {s : State} (i : Idx) (h : pendingBits s = []) :
    ∃ t, treeBit i s = .error { code := .eosTree, value := i.setWidth 28 } t := by
  simp only [treeBit, bind_apply, readBit_eos h]
  exact ⟨_, rfl⟩

/-- Where IN ends before a production is complete, reading it raises (R121). -/
theorem readProduction_exhausted {s : State} (i : Idx) {err : DecodeError}
    (h : decodeProduction (pendingBits s) = .error err) :
    ∃ t, readProduction i s = .error { code := .eosTree, value := i.setWidth 28 } t := by
  simp only [readProduction, bind_apply]
  match hp : pendingBits s with
  | [] =>
    obtain ⟨t, ht⟩ := treeBit_eos i hp
    exact ⟨t, by rw [ht]⟩
  | true :: rest => rw [hp] at h; cases h
  | [false] =>
    obtain ⟨u, hu, hpu, -⟩ := treeBit_pending i hp
    obtain ⟨t, ht⟩ := treeBit_eos i hpu
    exact ⟨t, by simp [hu, ht]⟩
  | false :: false :: rest => rw [hp] at h; cases h
  | false :: true :: rest =>
    obtain ⟨u, hu, hpu, -⟩ := treeBit_pending i hp
    obtain ⟨w, hw, hpw, -⟩ := treeBit_pending i hpu
    have hshort : rest.length < 8 := by
      by_contra hlong
      rw [hp, decodeProduction, if_pos (by omega)] at h
      cases h
    obtain ⟨t, ht⟩ := readBitsFrom_short 8 (acc := 0) (s := w) (by rw [hpw]; exact hshort)
    exact ⟨t, by simp [hu, hw, readBits, ht]⟩

/-- A whole production at the head of the bits, and its instruction. -/
theorem production_of_decode {bs rest : List Bool} {i : Instr} (h : decodeProduction bs = .ok (i, rest)) :
    ∃ prod : Production, i = prod.instr ∧ bs = prod.bits ++ rest := by
  match bs with
  | [] => cases h
  | true :: tail => cases h; exact ⟨.branch, rfl, rfl⟩
  | [false] => cases h
  | false :: false :: tail => cases h; exact ⟨.leafEom, rfl, rfl⟩
  | false :: true :: tail =>
    rw [decodeProduction] at h
    split at h
    · cases h
      refine ⟨.leafByte (bitsByte (tail.take 8)), rfl, ?_⟩
      rw [Production.bits, byteBits_bitsByte (by simpa using ‹8 ≤ tail.length›)]
      simp
    · cases h

/-! ### The stack and the recursion -/

section
variable (a : Idx) (sel : TblSel)

/-- A state of the recursion with selectors and a traversal stack beside it. -/
def stacked (stack : List DesFrame) (x : State) : State := aside a sel (fun _ => stack) x

/-- A right subtree begins by setting its parent's RIGHT (R121). -/
def enterSubtree (frame : DesFrame) (x : State) : State :=
  match frame.right with
  | true => setRight frame.parent x
  | false => x

/-- Entering the top of the stack is the checks and the allocation of the recursion's node. -/
theorem desEnter_stacked (frame : DesFrame) (stack : List DesFrame) (x : State) :
    desEnter (stacked a sel (frame :: stack) x) =
      mapEnd (stacked a sel stack) (desFrame frame x) :=
  desFrame_aside (a := a) (sel := sel) (k := fun _ => stack) frame x

theorem desFrame_enterSubtree (frame : DesFrame) (x : State) :
    desFrame frame x = desAlloc frame (enterSubtree frame x) := by
  unfold desFrame enterSubtree
  cases frame.right <;> rfl

/-- A raise of the entry ends every way of reading the production. -/
theorem takesProduction_raise {body : Act Unit} (hbody : TakesProduction body) {s t : State} {e : Err}
    (h : desEnter s = .error e t) : body s = .error e t := by
  rcases hbody with ⟨i, hi, rfl⟩ | rfl
  · cases i with
    | branch => simp only [instrBody, branchBody, bind_apply, h]
    | leafByte v => simp only [instrBody, leafByteBody, bind_apply, h]
    | leafEom => simp only [instrBody, leafEomBody, bind_apply, h]
    | _ => cases hi
  · simp only [exhaustedBody, bind_apply, h]

/-- How DES_TREE ends where a raise ends the recursion (R121, R203). -/
def raised (e : Err) (x : State) : State := complete (recordError 0x4#4 e (desCleanup x))

/-- Where a subtree that was read leaves the machine: at the next frame of the stack, or completed after the last. -/
def landing (stack : List DesFrame) : EStateM.Result Err State Unit → State
  | .ok _ x => if stack = [] then stacked a sel [] (complete x) else stacked a sel stack x
  | .error e x => stacked a sel [] (raised e x)

/-- A raise of a production under DES_TREE ends the command as the recursion's raise does. -/
theorem settleProduction_raised {stack : List DesFrame} {x : State} (e : Err) (hc : x.cur = some 0x00000004#32) :
    settleProduction (.error e (stacked a sel stack x)) = stacked a sel [] (raised e x) := by
  have hcur : (stacked a sel stack x).cur = some 0x00000004#32 := hc
  simp only [settleProduction, hcur]
  rfl

/-- Under DES_TREE, with a description being read, a step is that of its next production. -/
theorem step_stacked {frame : DesFrame} {stack : List DesFrame} {x : State} (hc : x.cur = some 0x00000004#32)
    (ha : x.agenda = []) :
    step (stacked a sel (frame :: stack) x) = productionStep (stacked a sel (frame :: stack) x) := by
  rw [step_busy (s := stacked a sel (frame :: stack) x) ha hc]
  exact coreStep_production (s := stacked a sel (frame :: stack) x) hc (List.cons_ne_nil _ _)

/-- Where every way of reading the production raises, the step ends DES_TREE. -/
theorem productionStep_raised {s x : State} {stack : List DesFrame} {e : Err} (hc : x.cur = some 0x00000004#32)
    (h : ∀ body, TakesProduction body → body s = .error e (stacked a sel stack x)) :
    productionStep s = .next (stacked a sel [] (raised e x)) := by
  obtain ⟨body, hbody, hp | ⟨-, hp⟩⟩ := productionStep_cases s <;>
    rw [hp, h body hbody, settleProduction_raised a sel e hc]
  rfl

/-! ### One production is one node of the recursion -/

theorem pendingBits_sameCursors {s t : State} (h : SameCursors s t) : pendingBits t = pendingBits s := by
  obtain ⟨hbuf, -, -, -, hphase, hq⟩ := h
  unfold pendingBits
  rw [hbuf, hphase, hq]

theorem enterSubtree_sameButDes (frame : DesFrame) (x : State) : SameButDes x (enterSubtree frame x) := by
  unfold enterSubtree
  split
  · exact setRight_sameButDes _ x
  · exact .refl x

theorem pendingBits_enterSubtree (frame : DesFrame) (x : State) :
    pendingBits (enterSubtree frame x) = pendingBits x := by
  refine pendingBits_sameCursors ?_
  unfold enterSubtree setRight
  split
  · split <;> exact ⟨rfl, rfl, rfl, rfl, rfl, rfl⟩
  · exact ⟨rfl, rfl, rfl, rfl, rfl, rfl⟩

theorem pendingBits_allocNode {x y : State} {i : Idx} (h : allocNode x = .ok i y) : pendingBits y = pendingBits x := by
  unfold allocNode at h
  split at h
  · cases h
  · cases h; rfl

/-- DES_TREE goes on running, with nothing on the agenda. -/
def UnderDesTree (x : State) : Prop := x.cur = some 0x00000004#32 ∧ x.agenda = []

theorem UnderDesTree.des {x y : State} (hx : UnderDesTree x) (h : SameButDes x y) : UnderDesTree y := by
  unfold SameButDes at h
  rw [h]
  exact hx

/-- The subtrees that a production leaves to be read. -/
def childFrames (depth : Nat) (i : Idx) : Production → List DesFrame
  | .branch => [{ depth := depth + 1, parent := i, right := false }, { depth := depth + 1, parent := i, right := true }]
  | .leafByte _ => []
  | .leafEom => []

/-- A production that IN holds whole writes its entry and puts its subtrees on the stack. -/
theorem instrBody_stacked {frame : DesFrame} {stack : List DesFrame} {x y z : State} {i : Idx} {prod : Production}
    (hentry : desFrame frame x = .ok (frame.depth, i) y) (hread : readProduction i y = .ok prod z) :
    instrBody prod.instr (stacked a sel (frame :: stack) x) =
      .ok () (stacked a sel (childFrames frame.depth i prod ++ stack) (setNode i (entryOf i prod) z)) := by
  have henter : desEnter (stacked a sel (frame :: stack) x) = .ok (frame.depth, i) (stacked a sel stack y) := by
    rw [desEnter_stacked, hentry, mapEnd_ok]
  have hskip : skipBits i prod.bits.length (stacked a sel stack y) = .ok () (stacked a sel stack z) :=
    (skipBits_aside i _ y).trans (by rw [skipBits_of_readProduction hread]; rfl)
  cases prod with
  | branch =>
    replace hskip : skipBits i 1 _ = _ := hskip
    simp only [Production.instr, instrBody, branchBody, bind_apply, henter, hskip, update_apply]
    rfl
  | leafByte v =>
    replace hskip : skipBits i 10 _ = _ := hskip
    simp only [Production.instr, instrBody, leafByteBody, bind_apply, henter, hskip, update_apply]
    rfl
  | leafEom =>
    replace hskip : skipBits i 2 _ = _ := hskip
    simp only [Production.instr, instrBody, leafEomBody, bind_apply, henter, hskip, update_apply]
    rfl

/-- The step of a production that IN holds whole goes on with the stack, or completes DES_TREE where it is empty. -/
theorem productionStep_read {frame : DesFrame} {stack : List DesFrame} {x y z : State} {i : Idx} {prod : Production}
    {rest : List Bool} (hx : UnderDesTree z) (hdec : decodeProduction (pendingBits x) = .ok (prod.instr, rest))
    (hentry : desFrame frame x = .ok (frame.depth, i) y) (hread : readProduction i y = .ok prod z) :
    productionStep (stacked a sel (frame :: stack) x) =
      .next (landing a sel (childFrames frame.depth i prod ++ stack) (.ok () (setNode i (entryOf i prod) z))) := by
  have hdec' : decodeProduction (pendingBits (stacked a sel (frame :: stack) x)) = .ok (prod.instr, rest) := hdec
  have hexec := exec_production (opcode_of_decodeProduction hdec) (stacked a sel (frame :: stack) x)
  rw [instrBody_stacked a sel hentry hread] at hexec
  simp only [productionStep, hdec', hexec, settleProduction, landing]
  generalize childFrames frame.depth i prod ++ stack = todo
  have hstack (u : State) : (stacked a sel todo u).desStack = todo := rfl
  rw [hstack]
  split
  · subst todo
    have hcur : (stacked a sel [] (setNode i (entryOf i prod) z)).cur = some 0x00000004#32 := hx.1
    simp only [finishDescription, hcur, if_true]
    rfl
  · rfl

/-- The step of a production that IN ends inside of ends DES_TREE. -/
theorem productionStep_exhausted {frame : DesFrame} {stack : List DesFrame} {x y z : State} {i : Idx} {e : Err}
    {err : DecodeError} (hx : UnderDesTree z) (hdec : decodeProduction (pendingBits x) = .error err)
    (hentry : desFrame frame x = .ok (frame.depth, i) y) (hread : readProduction i y = .error e z) :
    productionStep (stacked a sel (frame :: stack) x) = .next (stacked a sel [] (raised e z)) := by
  have hdec' : decodeProduction (pendingBits (stacked a sel (frame :: stack) x)) = .error err := hdec
  have henter : desEnter (stacked a sel (frame :: stack) x) = .ok (frame.depth, i) (stacked a sel stack y) := by
    rw [desEnter_stacked, hentry, mapEnd_ok]
  have hread' : readProduction i (stacked a sel stack y) = .error e (stacked a sel stack z) :=
    (readProduction_aside i y).trans (by rw [hread]; rfl)
  simp only [productionStep, hdec', exhaustedBody, bind_apply, henter, hread', settleProduction_raised a sel e hx.1]

/-- The step of a subtree that its checks refuse ends DES_TREE. -/
theorem productionStep_refused {frame : DesFrame} {stack : List DesFrame} {x y : State} {e : Err}
    (hx : UnderDesTree y) (hentry : desFrame frame x = .error e y) :
    productionStep (stacked a sel (frame :: stack) x) = .next (stacked a sel [] (raised e y)) :=
  productionStep_raised a sel hx.1 fun _ hbody =>
    takesProduction_raise hbody (by rw [desEnter_stacked, hentry, mapEnd_error])

/-! ### The whole description -/

/-- What the recursion does after it has read and written entry `i` (R121). -/
def desChildren (levels : Nat) (i : Idx) : Production → Act Unit
  | .branch => do
    desNode levels i
    update (setRight i)
    desNode levels i
  | .leafByte _ => pure ()
  | .leafEom => pure ()

theorem desNode_succ (levels : Nat) (p : Idx) : desNode (levels + 1) p = (do
    let i ← allocNode
    let prod ← readProduction i
    update (setNode i (entryOf i prod))
    desChildren levels i prod) := rfl

/-- Reading a subtree from the stack ends where the recursion's node for it ends. -/
theorem desNode_leads (levels : Nat) : ∀ (frame : DesFrame) (stack : List DesFrame) (x : State),
    frame.depth + levels = Config.maxDepth + 1 → UnderDesTree x →
    Leads (stacked a sel (frame :: stack) x)
      (landing a sel stack (desNode levels frame.parent (enterSubtree frame x))) := by
  induction levels with
  | zero =>
    intro frame stack x hdepth hx
    have hentry : desFrame frame x =
        .error { code := .depth, value := frame.parent.setWidth 28 } (enterSubtree frame x) := by
      rw [desFrame_enterSubtree, desAlloc, if_pos (by omega)]
      rfl
    have hx0 := hx.des (enterSubtree_sameButDes frame x)
    exact .head ((step_stacked a sel hx.1 hx.2).trans (productionStep_refused a sel hx0 hentry)) (.refl _)
  | succ levels ih =>
    intro frame stack x hdepth hx
    have hx0 := hx.des (enterSubtree_sameButDes frame x)
    have hstep := step_stacked a sel (frame := frame) (stack := stack) hx.1 hx.2
    have hframe : desFrame frame x = (do let i ← allocNode; pure (frame.depth, i)) (enterSubtree frame x) := by
      rw [desFrame_enterSubtree, desAlloc, if_neg (by omega)]
    have hy := allocNode_changes (enterSubtree frame x)
    rw [desNode_succ, bind_apply]
    rw [bind_apply] at hframe
    cases halloc : allocNode (enterSubtree frame x) with
    | error e y =>
      rw [halloc] at hframe hy
      exact .head (hstep.trans (productionStep_refused a sel (hx0.des hy) hframe)) (.refl _)
    | ok i y =>
      rw [halloc] at hframe hy
      have hbits : pendingBits y = pendingBits x :=
        (pendingBits_allocNode halloc).trans (pendingBits_enterSubtree frame x)
      have hz := (readProduction_changes i y).des
      dsimp only
      rw [bind_apply]
      cases hdec : decodeProduction (pendingBits x) with
      | error err =>
        obtain ⟨z, hread⟩ := readProduction_exhausted i (by rw [hbits]; exact hdec)
        rw [hread]
        rw [hread, endState_error] at hz
        have hxz := (hx0.des hy).des hz
        exact .head (hstep.trans (productionStep_exhausted a sel hxz hdec hframe hread)) (.refl _)
      | ok r =>
        obtain ⟨instr, rest⟩ := r
        obtain ⟨prod, rfl, hprod⟩ := production_of_decode hdec
        obtain ⟨z, hread, -⟩ := readProduction_pending i prod (hbits.trans hprod)
        rw [hread]
        rw [hread, endState_ok] at hz
        have hxz := (hx0.des hy).des hz
        have hxw : UnderDesTree (setNode i (entryOf i prod) z) := hxz
        refine .head (hstep.trans (productionStep_read a sel hxz hdec hframe hread)) ?_
        dsimp only
        rw [bind_apply, update_apply]
        dsimp only
        generalize setNode i (entryOf i prod) z = w at hxw
        cases prod with
        | leafByte v => exact .refl _
        | leafEom => exact .refl _
        | branch =>
          have hleft := ih { depth := frame.depth + 1, parent := i, right := false }
            ({ depth := frame.depth + 1, parent := i, right := true } :: stack) w (by dsimp only; omega) hxw
          have hv := desNode_changes levels i w
          refine .trans hleft ?_
          show Leads (landing a sel _ (desNode levels i w)) (landing a sel stack (desChildren levels i .branch w))
          rw [desChildren, bind_apply]
          cases hd : desNode levels i w with
          | error e v => exact .refl _
          | ok u v =>
            rw [hd] at hv
            exact ih { depth := frame.depth + 1, parent := i, right := true } stack v (by dsimp only; omega)
              (hxw.des hv)

end

/-- Other selectors and another stack are none where they are those the state has. -/
theorem stacked_self {s x : State} (haddr : x.nodeAddr = s.nodeAddr) (hsel : x.tblSel = s.tblSel)
    (hd : x.desStack = []) : stacked s.nodeAddr s.tblSel [] x = x := by
  unfold stacked aside
  rw [← haddr, ← hsel, ← hd]

/-- Settles O30: the root's subtree on an empty stack, read from the state in which DES_TREE begins to read. -/
theorem productionStepsAgreeWithDesTree : Obligations.ProductionStepsAgreeWithDesTree := by
  intro s hc hd ha
  have hleads := desNode_leads s.nodeAddr s.tblSel (Config.maxDepth + 1) rootFrame [] (desStart s)
    (by simp [rootFrame]) ⟨hc, ha⟩
  have hend := desNode_changes (Config.maxDepth + 1) 0#10 (desStart s)
  obtain ⟨n, hn⟩ := hleads
  refine ⟨n, hn.trans ?_⟩
  have hsame : ∀ x, SameButDes (desStart s) x → x.nodeAddr = s.nodeAddr ∧ x.tblSel = s.tblSel ∧ x.desStack = [] := by
    intro x hx
    unfold SameButDes at hx
    rw [hx]
    exact ⟨rfl, rfl, hd⟩
  have hbody : desTreeBody s = match desNode (Config.maxDepth + 1) 0#10 (desStart s) with
      | .ok u x => .ok u x
      | .error e x => .error e (desCleanup x) := by
    rw [desTreeBody, bind_apply, update_apply]; rfl
  show Host.Outcome.next (landing _ _ [] (desNode (Config.maxDepth + 1) 0#10 (desStart s))) =
    .next (settle 0x4#4 (desTreeBody s))
  rw [hbody]
  cases hr : desNode (Config.maxDepth + 1) 0#10 (desStart s) with
  | ok u x =>
    rw [hr] at hend
    obtain ⟨haddr, hsel, hstack⟩ := hsame x hend
    exact congrArg Host.Outcome.next (stacked_self (x := complete x) haddr hsel hstack)
  | error e x =>
    rw [hr] at hend
    obtain ⟨haddr, hsel, hstack⟩ := hsame x hend
    exact congrArg Host.Outcome.next (stacked_self (x := raised e x) haddr hsel hstack)

end Sys2Proof.Machine
end

section
/-! SUPPORT. The registers field by field (10_state.md rules R22 to R49): a word put together from fields gives each
of them back. -/

namespace Sys2Proof.Machine

/-! ### STATUS -/

/-- Settles O12: STATUS is the concatenation of its fields, and the counts fit into theirs. -/
theorem statusWordFields : Obligations.StatusWordFields := by
  intro s hin hout
  have hacc : (statusWord s).extractLsb' 8 3 = BitVec.ofNat 3 s.outAcc.length := by
    unfold statusWord
    repeat rw [BitVec.extractLsb'_append_eq_of_le (by decide)]
    exact BitVec.extractLsb'_append_eq_right
  have hbuf : (statusWord s).extractLsb' 12 4 = BitVec.ofNat 4 s.inBuf.length := by
    unfold statusWord
    repeat rw [BitVec.extractLsb'_append_eq_of_le (by decide)]
    exact BitVec.extractLsb'_append_eq_right
  have hrsvd : (statusWord s).extractLsb' 16 16 = 0#16 := by
    unfold statusWord
    repeat rw [BitVec.extractLsb'_append_eq_of_le (by decide)]
    exact BitVec.extractLsb'_eq_self
  refine ⟨?_, ?_, ?_, ?_, ?_, ?_, ?_, ?_, ?_, ?_, ?_, hrsvd⟩
  case refine_9 => rw [hacc, BitVec.toNat_ofNat]; omega
  case refine_11 => rw [hbuf, BitVec.toNat_ofNat]; omega
  all_goals
    simp only [statusWord, BitVec.getLsbD_append]
    simp [busy, inAligned, outAligned]

/-! ### The fields of the other registers -/

theorem errInfoWord_fields (s : State) :
    (errInfoWord s).extractLsb' 28 4 = s.err.op ∧ (errInfoWord s).extractLsb' 0 28 = s.err.value :=
  ⟨BitVec.extractLsb'_append_eq_left, BitVec.extractLsb'_append_eq_right⟩

theorem resultWord_fields (s : State) :
    (resultWord s).extractLsb' 0 9 = s.result.sym ∧ (resultWord s).extractLsb' 9 7 = 0#7 ∧
      (resultWord s).extractLsb' 16 9 = s.result.len ∧ (resultWord s).extractLsb' 25 6 = 0#6 ∧
      (resultWord s).getLsbD 31 = s.result.valid := by
  refine ⟨?_, ?_, ?_, ?_, ?_⟩
  case refine_5 =>
    simp only [resultWord, BitVec.getLsbD_append]
    simp
  all_goals
    unfold resultWord
    repeat rw [BitVec.extractLsb'_append_eq_of_le (by decide)]
    exact BitVec.extractLsb'_append_eq_right

theorem nodeWord_fields (n : Node) :
    (nodeWord n).extractLsb' 0 2 = kindBits n.kind ∧ (nodeWord n).extractLsb' 2 8 = n.byte ∧
      (nodeWord n).getLsbD 10 = true ∧ (nodeWord n).getLsbD 11 = false ∧
      (nodeWord n).extractLsb' 12 10 = n.left ∧ (nodeWord n).extractLsb' 22 10 = n.right := by
  refine ⟨?_, ?_, ?_, ?_, ?_, ?_⟩
  case refine_3 | refine_4 =>
    simp only [nodeWord, BitVec.getLsbD_append]
    simp
  case refine_6 =>
    unfold nodeWord
    repeat rw [BitVec.extractLsb'_append_eq_of_le (by decide)]
    exact BitVec.extractLsb'_eq_self
  all_goals
    unfold nodeWord
    repeat rw [BitVec.extractLsb'_append_eq_of_le (by decide)]
    exact BitVec.extractLsb'_append_eq_right

/-- What TBL_SEL reads (R43). -/
theorem readReg_tblSel_fields (s : State) :
    (readReg 0x24 s).extractLsb' 0 9 = s.tblSel.sym ∧ (readReg 0x24 s).extractLsb' 9 7 = 0#7 ∧
      (readReg 0x24 s).extractLsb' 16 3 = s.tblSel.word ∧ (readReg 0x24 s).extractLsb' 19 13 = 0#13 := by
  have hword : readReg 0x24 s = 0#13 ++ s.tblSel.word ++ 0#7 ++ s.tblSel.sym := rfl
  refine ⟨?_, ?_, ?_, ?_⟩ <;> rw [hword]
  case refine_4 =>
    repeat rw [BitVec.extractLsb'_append_eq_of_le (by decide)]
    exact BitVec.extractLsb'_eq_self
  all_goals
    repeat rw [BitVec.extractLsb'_append_eq_of_le (by decide)]
    exact BitVec.extractLsb'_append_eq_right

/-- The reserved offsets read 0 (R61). -/
theorem readReg_reserved {off : Nat} (h : 0x40 ≤ off) (s : State) : readReg off s = 0#32 := by
  unfold readReg
  split
  case h_16 => rfl
  all_goals omega

/-- Settles O16: each register is the concatenation of its fields. -/
theorem registerReadback : Obligations.RegisterReadback := by
  intro s
  obtain ⟨hop, hvalue⟩ := errInfoWord_fields s
  obtain ⟨hsym, hlow, hlen, hhigh, hvalid⟩ := resultWord_fields s
  obtain ⟨htsym, htlow, htword, hthigh⟩ := readReg_tblSel_fields s
  refine ⟨rfl, rfl, rfl, ?_, hop, hvalue, hsym, hlow, hlen, hhigh, hvalid, rfl, rfl, ?_, ?_, rfl, htsym, htlow, htword,
    hthigh, rfl, rfl, rfl, fun off hoff => readReg_reserved hoff s⟩
  · have hcode : readReg 0x0C s = (errCodeByte s.err.code).setWidth 32 := rfl
    rw [hcode]
    intro c hc hs
    rw [hs]
    fin_cases hc <;> rfl
  · intro hnone
    show nodeData s = 0#32
    rw [nodeData, hnone]
  · intro n hn
    obtain ⟨hkind, hbyte, hv, hrsvd, hleft, hright⟩ := nodeWord_fields n
    have hword : readReg 0x1C s = nodeWord n := by
      show nodeData s = nodeWord n
      rw [nodeData, hn]
    rw [hword]
    refine ⟨fun k hk hnk => ?_, hbyte, hv, hrsvd, hleft, hright⟩
    rw [hkind, hnk]
    fin_cases hk <;> rfl

end Sys2Proof.Machine
end

section
/-! SUPPORT. Host writes of the registers and what they read back (10_state.md rules R36 to R44), and the core's step
on a command and on a production (R50, R54). -/

namespace Sys2Proof.Machine

/-! ### A host write -/

/-- An admitted host write of an idle HTC applies the register's rule (R61). -/
theorem step_write {s : State} {off : Nat} {w : Word} {rest : List Event}
    (ha : s.agenda = .access (.write off 4 w) :: rest) (hc : s.cur = none) (hoff : accessAdmitted off 4 = true) :
    step s = .next (writeReg off w { s with agenda := rest }) := by
  have hidle : busy { s with agenda := rest } = false := by simp [busy, hc]
  rw [step_event ha, ← busWrite_idle off w hidle]
  simp only [eventStep, accessStep, accessRefusal_admitted hoff]

/-- A node word written is read back with V and the reserved bit in their places (R38, R41). -/
theorem nodeWord_nodeOfWord (w : Word) : nodeWord (nodeOfWord w) = (w &&& 0xFFFFF3FF#32) ||| 0x00000400#32 := by
  apply BitVec.eq_of_getLsbD_eq
  intro i hi
  simp only [nodeWord, nodeOfWord, kindBits_kindOfBits, BitVec.getLsbD_append, BitVec.getLsbD_or, BitVec.getLsbD_and]
  interval_cases i <;> simp

/-- Settles O13: the entry is stored under the selected index alone, and a stored word reads back with its fixed bits.
-/
theorem nodeDataWrite : Obligations.NodeDataWrite := by
  intro s w rest ha hc
  refine ⟨writeNodeData w { s with agenda := rest }, step_write ha hc (by decide), ?_, fun k hk => ?_, rfl⟩
  · show nodeData (writeNodeData w { s with agenda := rest }) = _
    have hstored : (writeNodeData w { s with agenda := rest }).node.get s.nodeAddr.toNat = some (nodeOfWord w) :=
      (Memory.get_put _ _ _ _).trans (if_pos rfl)
    rw [nodeData, show (writeNodeData w { s with agenda := rest }).nodeAddr = s.nodeAddr from rfl, hstored]
    exact nodeWord_nodeOfWord w
  · exact (Memory.get_put _ _ _ _).trans (if_neg (Ne.symm hk))

/-- The ten bits of an index, read back in a word. -/
theorem setWidth_extractLsb'_index (w : Word) : (w.extractLsb' 0 10).setWidth 32 = w &&& 0x3FF#32 := by
  apply BitVec.eq_of_getLsbD_eq
  intro i hi
  simp only [BitVec.getLsbD_setWidth, BitVec.getLsbD_extractLsb', BitVec.getLsbD_and]
  interval_cases i <;> simp

/-- TBL_SEL's fields, read back in a word (R43). -/
theorem tblSel_readback (w : Word) :
    (0#13 ++ w.extractLsb' 16 3 ++ 0#7 ++ w.extractLsb' 0 9 : Word) = w &&& 0x701FF#32 := by
  apply BitVec.eq_of_getLsbD_eq
  intro i hi
  simp only [BitVec.getLsbD_append, BitVec.getLsbD_and]
  interval_cases i <;> simp

/-- A write of an offset that no write rule is for changes nothing (R61). -/
theorem writeReg_none {off : Nat} (h : off ∉ [0x04, 0x14, 0x18, 0x1C, 0x24]) (w : Word) (s : State) :
    writeReg off w s = s := by
  unfold writeReg
  split <;> simp_all

/-- Settles O14: the write rule of each register, and none for the other offsets. -/
theorem rootAndSelectorWrites : Obligations.RootAndSelectorWrites := by
  intro s w rest hc
  refine ⟨fun ha => ?_, fun ha => ?_, fun ha => ?_, fun off h4 hwin hoff ha => ?_⟩
  · exact ⟨_, step_write ha hc (by decide), setWidth_extractLsb'_index w, rfl⟩
  · exact ⟨_, step_write ha hc (by decide), setWidth_extractLsb'_index w, rfl⟩
  · exact ⟨_, step_write ha hc (by decide), tblSel_readback w, rfl⟩
  · have hadmitted : accessAdmitted off 4 = true := by simp [accessAdmitted, h4, hwin, Config.win]
    rw [step_write ha hc hadmitted, writeReg_none hoff]

/-! ### The readback of the code table -/

/-- The bits of a number spelt most significant first, from the last one on (R66). -/
theorem testBit_bitsNat (bs : List Bool) : ∀ j, j < bs.length →
    (bitsNat 0 bs).testBit (bs.length - 1 - j) = bs.getD j false := by
  induction bs with
  | nil => intro j hj; simp at hj
  | cons b r ih =>
    intro j hj
    have hlead : bitsNat 0 (b :: r) = 2 ^ r.length * b.toNat + bitsNat 0 r := by
      rw [bitsNat, bitsNat_acc, Nat.mul_comm]
      simp
    rw [hlead, Nat.testBit_two_pow_mul_add _ (bitsNat_lt r)]
    cases j with
    | zero => cases b <;> simp
    | succ j =>
      have hj' : j < r.length := by simpa using hj
      rw [List.length_cons, if_pos (by omega), show r.length + 1 - 1 - (j + 1) = r.length - 1 - j by omega, ih j hj',
        List.getD_cons_succ]

/-- Bit `31 - j` of a slice is bit `j` of the slice of the codeword (R44). -/
theorem slice_getLsbD (cw : List Bool) (k : Nat) {j : Nat} (hj : j < 32) :
    (slice cw k).getLsbD (31 - j) = cw.getD (32 * k + j) false := by
  have hbits := testBit_bitsNat ((List.range 32).map fun j => cw.getD (32 * k + j) false) j (by simpa using hj)
  rw [List.length_map, List.length_range] at hbits
  rw [slice, BitVec.getLsbD_ofNat, hbits, List.getD_eq_getElem _ _ (by simpa using hj)]
  simp
  omega

/-- The TBL_LEN word of a codeword within MAX_DEPTH (R44). -/
theorem tblLen_word {n : Nat} (h : n ≤ 256) :
    (1#1 ++ 0#22 ++ BitVec.ofNat 9 n : Word) = 0x80000000#32 ||| BitVec.ofNat 32 n := by
  apply BitVec.eq_of_toNat_eq
  have h9 : (BitVec.ofNat 9 n).toNat = n := by rw [BitVec.toNat_ofNat]; omega
  have h32 : (BitVec.ofNat 32 n).toNat = n := by rw [BitVec.toNat_ofNat]; omega
  rw [BitVec.toNat_append, BitVec.toNat_or, h9, h32]
  rfl

/-- Settles O15: TBL_LEN and TBL_BITS read the selected entry, and 0 where none is selected. -/
theorem tableReadback : Obligations.TableReadback := by
  refine fun s => ⟨fun cw hsym hget hlen => ?_, fun hnone => ?_⟩
  · have hsel : selected s = some cw := by rw [selected, if_pos hsym, hget]
    have hlenWord : readReg 0x28 s = 1#1 ++ 0#22 ++ BitVec.ofNat 9 cw.length := by
      show tblLen s = _
      rw [tblLen, hsel]
    have hbits : readReg 0x2C s = slice cw s.tblSel.word.toNat := by
      show tblBits s = _
      rw [tblBits, hsel]
    exact ⟨hlenWord.trans (tblLen_word hlen), fun j hj => by rw [hbits]; exact slice_getLsbD cw _ hj⟩
  · have hsel : selected s = none := by
      unfold selected
      split
      · exact hnone.resolve_left (by omega)
      · rfl
    exact ⟨by show tblLen s = _; rw [tblLen, hsel], by show tblBits s = _; rw [tblBits, hsel]⟩

/-! ### The core's step -/

/-- A command ends with the core idle (R201). -/
theorem exec_command_idle {i : Instr} {op : BitVec 4} (hi : opcode i = some op) {s t : State} (h : exec i s = .next t) :
    t.cur = none := by
  rw [exec_command hi] at h
  cases h
  rcases settle_cases op (instrBody i s) with he | ⟨e, he⟩ <;> rw [he] <;> rfl

/-- Settles O6: the core runs the word it holds, by default and on its event. -/
theorem stepRunsTheAcceptedCommand : Obligations.StepRunsTheAcceptedCommand := by
  intro s w i hc hd hw
  obtain ⟨op, hi⟩ := opcode_of_decodeWord hw
  refine ⟨fun ha => ?_, fun rest ha => ?_, fun t => exec_command_idle hi⟩
  · rw [step_busy ha hc, coreStep_command hc hd hw]
  · rw [step_event ha]
    exact coreStep_command (s := { s with agenda := rest }) hc hd hw

/-- Settles O7: the production that the pending bits begin with runs, and what follows the last one is its command's. -/
theorem stepRunsTheNextProduction : Obligations.StepRunsTheNextProduction := by
  intro s t w i rest hc hd ha hdec hexec
  have hstep : step s = if t.desStack = [] then finishDescription t else .next t := by
    rw [step_busy ha hc, coreStep_production hc hd]
    simp only [productionStep, hdec, hexec]
  refine ⟨fun ht => ?_, fun ht hcur => ?_, fun ht hcur => ?_, fun ht hcur => ?_⟩
  · rw [hstep, if_neg ht]
  all_goals rw [hstep, if_pos ht]; simp [finishDescription, hcur, complete]

end Sys2Proof.Machine
end

section
/-! SUPPORT. Which host accesses reach the register window, and what a host read does (20_memory.md rules R60 and R61,
70_reset_and_hazards.md rule R250). -/

namespace Sys2Proof.Machine

/-! ### The window -/

/-- A bus address inside the window is the access at its offset (R60). -/
theorem windowOffset_inside {off : Nat} (h : off < 0x100) : windowOffset (Config.htcBase + off) = some off := by
  have hin : Config.htcBase ≤ Config.htcBase + off ∧ Config.htcBase + off < Config.htcBase + Config.win :=
    ⟨Nat.le_add_right _ _, Nat.add_lt_add_left h _⟩
  rw [windowOffset, if_pos hin, Nat.add_sub_cancel_left]

/-- A bus address outside the window has no offset (R73). -/
theorem windowOffset_outside {addr : Nat} (h : addr < Config.htcBase ∨ Config.htcBase + 0x100 ≤ addr) :
    windowOffset addr = none := by
  refine if_neg fun ⟨hlow, hhigh⟩ => ?_
  rcases h with h | h
  · exact absurd hlow (Nat.not_le.mpr h)
  · exact absurd hhigh (Nat.not_lt.mpr h)

theorem busStep_inside {off : Nat} (h : off < 0x100) (access : Nat → Access) (s : State) :
    busStep (Config.htcBase + off) access s = accessStep (access off) s := by
  rw [busStep, windowOffset_inside h]

theorem busStep_outside {addr : Nat} (h : addr < Config.htcBase ∨ Config.htcBase + 0x100 ≤ addr)
    (access : Nat → Access) (s : State) : busStep addr access s = .refused .accessOutsideWindow := by
  rw [busStep, windowOffset_outside h]

/-- An access that is not admitted is refused: one of the three checks fails (R61). -/
theorem accessRefusal_refused {off width : Nat} (h : accessAdmitted off width = false) :
    ∃ r, accessRefusal off width = some r := by
  unfold accessRefusal
  split
  · exact ⟨_, rfl⟩
  split
  · exact ⟨_, rfl⟩
  split
  · exact ⟨_, rfl⟩
  · exact absurd h (by simp_all [accessAdmitted])

/-- A `wr` or `rd` of the host program that is not admitted is refused (R61, R105). -/
theorem hostStep_refused {s : State} {off : Nat} {w : Word} {st : HostStmt} {r : Refusal}
    (hr : accessRefusal off 4 = some r) (hp : s.host.prog[s.host.next]? = some st)
    (hst : st = .wr off w ∨ ∃ var, st = .rd var off) : hostStep s = .refused r := by
  rcases hst with rfl | ⟨var, rfl⟩
  · simp only [hostStep, hp, accessStep, hr]
  · simp only [hostStep, hp, hr]

/-- Settles O11: the window offset of a bus address is what is added to HTC_BASE, and every access goes through the
checks of R61. -/
theorem onlyAdmissibleAccessesReachTheWindow : Obligations.OnlyAdmissibleAccessesReachTheWindow := by
  refine fun s off width w rest => ⟨fun hoff => ?_, fun addr haddr => ?_, fun hadm => ?_, fun hadm st hp hst => ?_⟩
  · exact ⟨busStep_inside hoff _ _, busStep_inside hoff _ _⟩
  · exact ⟨busStep_outside haddr _ _, busStep_outside haddr _ _⟩
  · obtain ⟨r, hr⟩ := accessRefusal_refused hadm
    refine ⟨⟨r, ?_⟩, ⟨r, ?_⟩⟩ <;> rw [step_event rfl] <;> simp only [eventStep, accessStep, hr]
  · obtain ⟨r, hr⟩ := accessRefusal_refused hadm
    exact ⟨r, hostStep_refused (s := { s with agenda := rest }) hr hp hst⟩

/-! ### A host read -/

/-- What R250 fixes of a word read while BUSY = 1: STATUS.BUSY, ID and the reserved offsets. -/
def BusyWord (off : Nat) (v : Word) : Prop :=
  (off = 0x08 → v.getLsbD 0 = true) ∧ (off = 0x00 → v = 0x48544331#32) ∧ (0x40 ≤ off → v = 0#32)

/-- A host read while BUSY = 1 gives such a word, and changes nothing but the model's counter (R250). -/
theorem busRead_busy {s : State} (off : Nat) (hc : s.cur ≠ none) :
    ∃ v n, busRead off s = (v, { s with freeCtr := n }) ∧ BusyWord off v := by
  have hb : busy s = true := Option.isSome_iff_ne_none.mpr hc
  unfold busRead BusyWord
  rw [if_neg (by simp [hb])]
  by_cases hid : off = 0x00
  · exact ⟨_, s.freeCtr, if_pos hid, by omega, fun _ => rfl, by omega⟩
  rw [if_neg hid]
  by_cases hrsvd : 0x40 ≤ off
  · exact ⟨_, s.freeCtr, if_pos hrsvd, by omega, fun h => absurd h hid, fun _ => rfl⟩
  rw [if_neg hrsvd]
  by_cases hstatus : off = 0x08
  · refine ⟨_, s.freeCtr + 1, if_pos hstatus, fun _ => ?_, fun h => absurd h hid, fun h => absurd h hrsvd⟩
    rw [BitVec.getLsbD_append]
    rfl
  · exact ⟨_, s.freeCtr + 1, if_neg hstatus, fun h => absurd h hstatus, fun h => absurd h hid, fun h => absurd h hrsvd⟩

/-- An admitted host read hands the host the word that the window gives (R61). -/
theorem step_read {s : State} {off : Nat} {rest : List Event} (ha : s.agenda = .access (.read off 4) :: rest)
    (hoff : accessAdmitted off 4 = true) : step s = .next (giveData (busRead off { s with agenda := rest })) := by
  rw [step_event ha]
  simp only [eventStep, accessStep, accessRefusal_admitted hoff]

/-- An admitted `rd` of the host program while BUSY = 1 keeps the word it reads in its variable, and goes on (R105). -/
theorem hostStep_rd_busy {s : State} {var off : Nat} (hp : s.host.prog[s.host.next]? = some (.rd var off))
    (hoff : accessAdmitted off 4 = true) (hc : s.cur ≠ none) :
    ∃ v n, hostStep s = .next { s with
        freeCtr := n
        host := { prog := s.host.prog, next := s.host.next + 1, vars := s.host.vars.put var v, data := some v } } ∧
      BusyWord off v := by
  obtain ⟨v, n, hread, hv⟩ := busRead_busy (s := hostGoto (s.host.next + 1) s) off hc
  refine ⟨v, n, ?_, hv⟩
  simp only [hostStep, hp, accessRefusal_admitted hoff, hread]
  rfl

/-- Settles O10: idle, the window gives the register and keeps the state; busy, it gives a word that R250 leaves
free but for the fixed values, and moves the model's counter at most. -/
theorem hostReads : Obligations.HostReads := by
  intro s off rest h4 hwin
  have hoff : accessAdmitted off 4 = true := by simp [accessAdmitted, h4, hwin, Config.win]
  refine ⟨fun ha hc => ?_, fun ha hc => ?_, fun var ha hc hp => ?_⟩
  · have hidle : busy { s with agenda := rest } = false := by simp [busy, hc]
    rw [step_read ha hoff, busRead_idle off hidle]
    rfl
  · obtain ⟨v, n, hread, hv⟩ := busRead_busy (s := { s with agenda := rest }) off hc
    exact ⟨v, n, by rw [step_read ha hoff, hread]; rfl, hv⟩
  · rw [step_event ha]
    exact hostStep_rd_busy (s := { s with agenda := rest }) hp hoff hc

end Sys2Proof.Machine
end

section
/-! SUPPORT. What the core does to the ports: every port event goes into the record as it is made, and IN stays at
`EOS` (20_memory.md rules R62, R63, R75 and R80). -/

namespace Sys2Proof.Machine

/-! ### Port events -/

@[simp] theorem outsOf_append (a b : List PortEvent) : outsOf (a ++ b) = outsOf a ++ outsOf b := List.filterMap_append

@[simp] theorem takenOf_append (a b : List PortEvent) : takenOf (a ++ b) = takenOf a ++ takenOf b :=
  List.filterMap_append

/-- What the core may do to the ports between `s` and `t`: the record gains the events made, IN has lost the bytes they
took and OUT has gained what they sent; at `EOS` no byte is taken and IN stays there (R62, R63, R75). -/
def PortsMove (s t : State) : Prop :=
  ∃ log, t.portLog = s.portLog ++ log ∧ t.outEv = s.outEv ++ outsOf log ∧ s.inQ = takenOf log ++ t.inQ ∧
    (s.inPhase = .eos → takenOf log = [] ∧ t.inPhase = .eos)

/-- Nothing of the ports or of their record differs. -/
def SamePorts (s t : State) : Prop :=
  t.portLog = s.portLog ∧ t.outEv = s.outEv ∧ t.inQ = s.inQ ∧ t.inPhase = s.inPhase

theorem SamePorts.of_eq {s t u : State} (h : t = u) (hu : SamePorts s u) : SamePorts s t := h ▸ hu

theorem SamePorts.move {s t : State} (h : SamePorts s t) : PortsMove s t := by
  obtain ⟨hlog, hout, hq, hphase⟩ := h
  exact ⟨[], by simp [hlog], by simp [hout, outsOf], by simp [hq, takenOf], fun he => ⟨rfl, hphase.trans he⟩⟩

theorem PortsMove.trans {s t u : State} (h₁ : PortsMove s t) (h₂ : PortsMove t u) : PortsMove s u := by
  obtain ⟨l₁, hlog₁, hout₁, hq₁, heos₁⟩ := h₁
  obtain ⟨l₂, hlog₂, hout₂, hq₂, heos₂⟩ := h₂
  refine ⟨l₁ ++ l₂, by simp [hlog₂, hlog₁], by simp [hout₂, hout₁], by simp [hq₁, hq₂], fun he => ?_⟩
  obtain ⟨htaken₁, ht⟩ := heos₁ he
  obtain ⟨htaken₂, hu⟩ := heos₂ ht
  exact ⟨by simp [htaken₁, htaken₂], hu⟩

theorem framePortsMove : Frame PortsMove := ⟨fun _ => SamePorts.move ⟨rfl, rfl, rfl, rfl⟩, PortsMove.trans⟩

/-! ### The port calls and the cursors -/

/-- Once `EOS` was reported, `PortRead` reports it again (R63). -/
theorem portRead_eos {s : State} (h : s.inPhase = .eos) : portRead s = (none, s) := by
  simp only [portRead, h]

/-- `PortRead` takes the next byte, or reports `EOS`, which stays (R62, R63). -/
theorem portRead_portsMove (s : State) : PortsMove s (portRead s).2 := by
  by_cases he : s.inPhase = .eos
  · rw [portRead_eos he]; exact framePortsMove.refl s
  rcases portRead_cases s with hp | ⟨-, hp⟩ | ⟨v, vs, hq, hp⟩ <;> rw [hp]
  · exact framePortsMove.refl s
  · exact ⟨[], by simp, by simp [outsOf], rfl, fun h => absurd h he⟩
  · exact ⟨[.took v], rfl, by simp [outsOf], hq, fun h => absurd h he⟩

theorem portWrite_portsMove (v : Byte) (s : State) : PortsMove s (portWrite v s) :=
  ⟨[.sent v], rfl, rfl, rfl, fun he => ⟨rfl, he⟩⟩

theorem flush_portsMove (s : State) : PortsMove s (flush s) := ⟨[.flushed], rfl, rfl, rfl, fun he => ⟨rfl, he⟩⟩

theorem readBit_portsMove : Changes PortsMove readBit := by
  intro s
  cases hb : s.inBuf with
  | cons b rest => simp only [readBit, hb]; exact SamePorts.move ⟨rfl, rfl, rfl, rfl⟩
  | nil =>
    have hread := portRead_portsMove s
    simp only [readBit, hb]
    generalize portRead s = r at hread
    obtain ⟨_ | v, t⟩ := r
    · exact hread
    · exact hread.trans (SamePorts.move ⟨rfl, rfl, rfl, rfl⟩)

theorem writeBit_portsMove (b : Bool) (s : State) : PortsMove s (writeBit b s) := by
  unfold writeBit
  split
  · exact .trans (SamePorts.move ⟨rfl, rfl, rfl, rfl⟩) (portWrite_portsMove _ _)
  · exact SamePorts.move ⟨rfl, rfl, rfl, rfl⟩

theorem arrive_samePorts (n : Idx) (d : Nat) (sym : Sym) (s : State) : SamePorts s (arrive n d sym s) := by
  unfold arrive
  split <;> exact ⟨rfl, rfl, rfl, rfl⟩

/-! ### The core -/

theorem admitsTdes_portsMove : AdmitsTdes PortsMove where
  toFrame := framePortsMove
  read := readBit_portsMove
  alloc s := by
    unfold allocNode
    split <;> exact SamePorts.move ⟨rfl, rfl, rfl, rfl⟩
  setNode _ _ _ := SamePorts.move ⟨rfl, rfl, rfl, rfl⟩
  setRight i s := by
    unfold setRight
    split <;> exact SamePorts.move ⟨rfl, rfl, rfl, rfl⟩
  stack _ _ := SamePorts.move ⟨rfl, rfl, rfl, rfl⟩

theorem admits_portsMove : Admits PortsMove where
  toFrame := framePortsMove
  read := readBit_portsMove
  write := writeBit_portsMove
  flush := flush_portsMove
  result _ := SamePorts.move ⟨rfl, rfl, rfl, rfl⟩
  decNode _ _ := SamePorts.move ⟨rfl, rfl, rfl, rfl⟩
  arrive n d sym s := (arrive_samePorts n d sym s).move
  build s := (SamePorts.of_eq (buildTableBody_changes s) ⟨rfl, rfl, rfl, rfl⟩).move
  des := admitsTdes_portsMove.desTreeBody (fun _ => SamePorts.move ⟨rfl, rfl, rfl, rfl⟩) fun _ =>
    SamePorts.move ⟨rfl, rfl, rfl, rfl⟩

/-- Completion makes no port event. -/
theorem settle_samePorts (op : BitVec 4) (r : EStateM.Result Err State Unit) :
    SamePorts (endState r) (settle op r) := by
  rcases settle_cases op r with he | ⟨e, he⟩ <;> rw [he] <;> exact ⟨rfl, rfl, rfl, rfl⟩

theorem settleProduction_samePorts (r : EStateM.Result Err State Unit) :
    SamePorts (endState r) (settleProduction r) := by
  rcases settleProduction_cases r with he | ⟨op, e, he⟩ <;> rw [he] <;> exact ⟨rfl, rfl, rfl, rfl⟩

theorem command_portsMove {i : Instr} {op : BitVec 4} (hi : opcode i = some op) (hr : i ≠ .softReset) (s : State) :
    PortsMove s (settle op (instrBody i s)) := by
  have hend : PortsMove s (endState (instrBody i s)) := by
    by_cases hclr : i = .clrErr
    · subst hclr; exact SamePorts.move (t := clearError s) ⟨rfl, rfl, rfl, rfl⟩
    · exact admits_portsMove.command hi hclr hr s
  exact hend.trans (settle_samePorts op _).move

theorem production_portsMove {x : Act Unit} (hx : TakesProduction x) (s : State) :
    PortsMove s (settleProduction (x s)) :=
  (admitsTdes_portsMove.production hx s).trans (settleProduction_samePorts _).move

/-- Every instruction but SOFT_RESET, which lets IN start afresh. -/
theorem exec_portsMove {i : Instr} {s t : State} (hr : i ≠ .softReset) (h : exec i s = .next t) : PortsMove s t := by
  cases hi : opcode i with
  | some op => rw [exec_command hi] at h; cases h; exact command_portsMove hi hr s
  | none => rw [exec_production hi] at h; cases h; exact production_portsMove (.inl ⟨i, hi, rfl⟩) s

/-- Settles O48: every port event is recorded as it is made, and SOFT_RESET makes none. -/
theorem portsConserveBytes : Obligations.PortsConserveBytes := by
  intro i s t h
  by_cases hr : i = .softReset
  · subst hr
    cases h
    exact ⟨[], by simp, by simp [outsOf], rfl⟩
  · obtain ⟨log, hlog, hout, hq, -⟩ := exec_portsMove hr h
    exact ⟨log, hlog, hout, hq⟩

/-! ### IN at its end -/

/-- A word is made of the four fields of R90. -/
theorem word_eq_of_fields {w : Word} {op rsvd : BitVec 4} {arg : BitVec 8} {high : BitVec 16}
    (hop : w.extractLsb' 0 4 = op) (hrsvd : w.extractLsb' 4 4 = rsvd) (harg : w.extractLsb' 8 8 = arg)
    (hhigh : w.extractLsb' 16 16 = high) : w = high ++ arg ++ rsvd ++ op := by
  subst hop hrsvd harg hhigh
  apply BitVec.eq_of_getLsbD_eq
  intro i hi
  simp only [BitVec.getLsbD_append, BitVec.getLsbD_extractLsb']
  interval_cases i <;> simp

/-- Only the word 2 spells SOFT_RESET (R92). -/
theorem decodeWord_softReset {w : Word} (h : decodeWord w = .ok .softReset) : w = 0x00000002#32 := by
  unfold decodeWord at h
  repeat' split at h
  all_goals cases h
  rename_i hrsvd hhigh _ _ harg _ hop
  have hop' : w.extractLsb' 0 4 = 2#4 := BitVec.eq_of_toNat_eq hop
  exact word_eq_of_fields hop' (not_not.mp hrsvd) (not_not.mp harg) (not_not.mp hhigh)

/-- The core's step, unless it runs SOFT_RESET. -/
theorem coreStep_portsMove {s t : State} (hr : s.cur ≠ some 0x00000002#32) (h : coreStep s = .next t) :
    PortsMove s t := by
  rcases Option.eq_none_or_eq_some s.cur with hc | ⟨w, hc⟩
  · rw [coreStep_idle hc] at h; cases h; exact framePortsMove.refl s
  by_cases hd : s.desStack = []
  · cases hw : decodeWord w with
    | error e => simp [coreStep, hc, hd, hw] at h
    | ok i =>
      rw [coreStep_command hc hd hw] at h
      refine exec_portsMove (fun hi => hr ?_) h
      subst hi
      rw [hc, decodeWord_softReset hw]
  rw [coreStep_production hc hd] at h
  obtain ⟨x, hx, hnext | ⟨-, hfin⟩⟩ := productionStep_cases s
  · rw [hnext] at h; cases h; exact production_portsMove hx s
  · rw [hfin] at h
    refine (production_portsMove hx s).trans ?_
    rcases finishDescription_next h with ⟨-, rfl⟩ | rfl | rfl
    · exact framePortsMove.refl _
    · exact SamePorts.move ⟨rfl, rfl, rfl, rfl⟩
    · exact (admits_portsMove.decStreamTail _).trans (settle_samePorts _ _).move

/-- At `EOS` the ports move no byte of IN, and IN stays there. -/
theorem PortsMove.eos {s t : State} (h : PortsMove s t) (he : s.inPhase = .eos) :
    t.inPhase = .eos ∧ t.inQ = s.inQ := by
  obtain ⟨log, -, -, hq, heos⟩ := h
  obtain ⟨htaken, ht⟩ := heos he
  exact ⟨ht, by rw [hq, htaken]; rfl⟩

/-- At `EOS` no agent but the core touches IN: the environment has no duty left (R80). -/
theorem AgentMove.eos {s t : State} (h : AgentMove s t) (he : s.inPhase = .eos) :
    t.inPhase = .eos ∧ t.inQ = s.inQ := by
  cases h with
  | host h n => exact ⟨he, rfl⟩
  | write h hw =>
    obtain ⟨-, -, -, -, hphase, hq⟩ := sameCursors_written hw
    exact ⟨hphase.trans he, hq⟩
  | present bytes hp => rw [he] at hp; cases hp
  | deliver bytes hp => exact absurd he hp

/-- Settles O52: the core takes no byte at `EOS` and the environment may not add one, since its two steps are admitted
by the phase of IN alone. -/
theorem endOfStreamIsFinal : Obligations.EndOfStreamIsFinal := by
  refine ⟨fun s t he h => ?_, fun s bytes rest => ⟨fun ha => ?_, fun ha => ?_⟩⟩
  · by_cases hr : s.cur = some 0x00000002#32
    · exact .inr (.inl hr)
    obtain ⟨rest, hcore | ⟨k, ha, -⟩ | hmove⟩ := step_next h
    · exact .inl ((coreStep_portsMove (s := { s with agenda := rest }) hr hcore).eos he)
    · exact .inr (.inr ⟨k, rest, ha⟩)
    · exact .inl (AgentMove.eos (s := { s with agenda := rest }) hmove he)
  · rw [step_event ha]
    exact ⟨fun hp => if_pos hp, fun hp => if_neg hp⟩
  · rw [step_event ha]
    exact ⟨fun hp => if_neg hp, fun hp => if_pos hp⟩

end Sys2Proof.Machine
end

section
/-! SUPPORT. Decoding undoes encoding: the command words (30_encoding.md rules R90 to R94) and the productions of a
tree description (rules R96 and R97). -/

namespace Sys2Proof.Machine

/-! ### Command words -/

/-- The fields of ENC_SYM's word (R92, R93). -/
theorem encSym_fields (arg : Byte) :
    (0#16 ++ arg ++ 0x06#8).extractLsb' 0 4 = 0x6#4 ∧ (0#16 ++ arg ++ 0x06#8).extractLsb' 4 4 = 0#4 ∧
      (0#16 ++ arg ++ 0x06#8).extractLsb' 8 8 = arg ∧ (0#16 ++ arg ++ 0x06#8).extractLsb' 16 16 = 0#16 := by
  refine ⟨?_, ?_, ?_, ?_⟩
  · rw [BitVec.extractLsb'_append_eq_of_add_le (by decide)]; rfl
  · rw [BitVec.extractLsb'_append_eq_of_add_le (by decide)]; rfl
  · rw [BitVec.extractLsb'_append_eq_of_le (by decide)]; exact BitVec.extractLsb'_append_eq_right
  · rw [BitVec.extractLsb'_append_eq_of_le (by decide)]; exact BitVec.extractLsb'_append_eq_left

/-- ENC_SYM's word decodes with its byte (R93). -/
theorem decodeWord_encSym (arg : Byte) : decodeWord (0#16 ++ arg ++ 0x06#8) = .ok (.encSym arg) := by
  obtain ⟨hop, hrsvd, harg, hhigh⟩ := encSym_fields arg
  unfold decodeWord
  rw [if_neg (not_not_intro hrsvd), if_neg (not_not_intro hhigh), if_neg (by rw [hop]; decide), if_pos hop, harg]

/-- A word with the fields of ENC_SYM is the word of its ARG (R92). -/
theorem word_of_encSym_fields {w : Word} (hop : w.extractLsb' 0 4 = 0x6#4) (hrsvd : w.extractLsb' 4 4 = 0#4)
    (hhigh : w.extractLsb' 16 16 = 0#16) : 0#16 ++ w.extractLsb' 8 8 ++ 0x06#8 = w := by
  obtain ⟨hop', hrsvd', harg', hhigh'⟩ := encSym_fields (w.extractLsb' 8 8)
  exact (word_eq_of_fields hop' hrsvd' harg' hhigh').trans (word_eq_of_fields hop hrsvd rfl hhigh).symm

/-- A word whose other fields are 0 is the number of its OP (R90). -/
theorem word_of_opcode {w : Word} {op : Nat} (hop : (w.extractLsb' 0 4).toNat = op) (hrsvd : w.extractLsb' 4 4 = 0#4)
    (harg : w.extractLsb' 8 8 = 0#8) (hhigh : w.extractLsb' 16 16 = 0#16) :
    w = 0#16 ++ 0#8 ++ 0#4 ++ BitVec.ofNat 4 op := by
  refine word_eq_of_fields ?_ hrsvd harg hhigh
  rw [← hop, BitVec.ofNat_toNat, BitVec.setWidth_eq]

/-- A word that spells a command is that command's encoding: the checks leave no bit of it free (R92, R94). -/
theorem encode_of_decodeWord {w : Word} {i : Instr} (h : decodeWord w = .ok i) : encode i = .word w := by
  unfold decodeWord at h
  split at h
  · cases h
  split at h
  · cases h
  split at h
  · cases h
  rename_i hrsvd hhigh _
  rw [not_not] at hrsvd hhigh
  split at h
  · rename_i hop
    cases h
    exact congrArg Encoding.word (word_of_encSym_fields hop hrsvd hhigh)
  split at h
  · cases h
  rename_i harg
  rw [not_not] at harg
  split at h <;> cases h
  all_goals
    rename_i hop
    rw [word_of_opcode hop hrsvd harg hhigh]
    rfl

/-- The encoding of a command is a well-formed word (R91). -/
theorem wellFormed_of_encode {i : Instr} {w : Word} (h : encode i = .word w) : cmdWellFormed w = true := by
  cases i with
  | encSym arg => cases h; exact (Laws.OpField.encSym arg).1
  | _ => cases h <;> decide

/-- Settles O1: each word and each bit pattern is evaluated. -/
theorem wordsOfTheOpcodeMapDecode : Obligations.WordsOfTheOpcodeMapDecode := by
  unfold Obligations.WordsOfTheOpcodeMapDecode
  decide

/-- Settles O2: the checks of the decoder are those of R91, and between them they fix every field of the word. -/
theorem wellFormedWordsAreTheEncodingsOfCommands : Obligations.WellFormedWordsAreTheEncodingsOfCommands :=
  fun _ => ⟨⟨decodeWord_of_wellFormed, fun ⟨_, hi⟩ => wellFormed_of_encode (encode_of_decodeWord hi)⟩,
    fun _ => encode_of_decodeWord⟩

/-! ### Productions -/

/-- A production at the head of the bits is decoded, and the bits after it are left (R97). -/
@[simp] theorem decodeProduction_bits (prod : Production) (rest : List Bool) :
    decodeProduction (prod.bits ++ rest) = .ok (prod.instr, rest) := by
  cases prod with
  | branch => rfl
  | leafEom => rfl
  | leafByte v =>
    have htake : (byteBits v ++ rest).take 8 = byteBits v := List.take_left' (length_byteBits v)
    have hdrop : (byteBits v ++ rest).drop 8 = rest := List.drop_left' (length_byteBits v)
    have hlong : 8 ≤ (byteBits v ++ rest).length := by simp
    simp only [Production.bits, List.cons_append, decodeProduction, if_pos hlong, htake, hdrop, bitsByte_byteBits]
    rfl

/-- A production decodes to its instruction (R96). -/
theorem decode_bits (prod : Production) : decode (.bits prod.bits) = .ok prod.instr := by
  have h := decodeProduction_bits prod []
  rw [List.append_nil] at h
  simp only [decode, h]

/-- Settles O3: a command's word has the fields the decoder asks for, and a production's bits are one production. -/
theorem decodeEncodeGivesTheInstructionBack : Obligations.DecodeEncodeGivesTheInstructionBack := by
  intro i
  cases i with
  | encSym arg => exact decodeWord_encSym arg
  | branch => exact decode_bits .branch
  | leafByte v => exact decode_bits (.leafByte v)
  | leafEom => exact decode_bits .leafEom
  | _ => rfl

end Sys2Proof.Machine
end

section
/-! SUPPORT. Where a tree description ends, that the grammar has no invalid production, and how long a description is
(30_encoding.md rules R97 to R99). -/

namespace Sys2Proof.Machine

/-! ### The end of a description -/

/-- A description is read up to its end, whatever bits follow (R97). -/
theorem decodeTree_desc (T : Tree) : ∀ (n : Nat) (rest : List Bool), T.depth ≤ n →
    decodeTree (n + 1) (desc T ++ rest) = some (T, rest) := by
  induction T with
  | eom =>
    intro n rest _
    rw [decodeTree, show desc .eom = Production.leafEom.bits from rfl, decodeProduction_bits]
    rfl
  | byte v =>
    intro n rest _
    rw [decodeTree, show desc (.byte v) = (Production.leafByte v).bits from rfl, decodeProduction_bits]
    rfl
  | branch l r ihl ihr =>
    intro n rest hdepth
    obtain ⟨m, rfl⟩ : ∃ m, n = m + 1 := Nat.exists_eq_add_one.mpr (Nat.lt_of_lt_of_le (Nat.succ_pos _) hdepth)
    obtain ⟨hl, hr⟩ : l.depth ≤ m ∧ r.depth ≤ m := Nat.max_le.mp (Nat.le_of_succ_le_succ hdepth)
    have hshape : desc (.branch l r) ++ rest = Production.branch.bits ++ (desc l ++ (desc r ++ rest)) := by
      simp [desc, Production.bits]
    rw [hshape, decodeTree, decodeProduction_bits]
    simp only [Production.instr, ihl m _ hl, ihr m _ hr]

/-- Bits that begin with a whole description, or that go on to one. -/
def BeginsDescription (bs : List Bool) : Prop :=
  (∃ T rest, bs = desc T ++ rest) ∨ ∃ T more, bs ++ more = desc T

/-- A branch bit before a first subtree, and before a second one where the first is whole, begins a description. -/
theorem BeginsDescription.branch {tail : List Bool} (hl : BeginsDescription tail)
    (hr : ∀ l rest, tail = desc l ++ rest → BeginsDescription rest) : BeginsDescription (true :: tail) := by
  rcases hl with ⟨l, rest, htail⟩ | ⟨l, more, htail⟩
  · rcases hr l rest htail with ⟨r, rest', hrest⟩ | ⟨r, more, hrest⟩
    · exact .inl ⟨.branch l r, rest', by simp [desc, htail, hrest]⟩
    · exact .inr ⟨.branch l r, more, by simp [desc, htail, hrest]⟩
  · exact .inr ⟨.branch l .eom, more ++ desc .eom, by simp [desc, ← htail]⟩

/-- The bits after a byte leaf's leading two begin its byte, whatever they are (R99). -/
theorem BeginsDescription.leafByte (tail : List Bool) : BeginsDescription (false :: true :: tail) := by
  by_cases hlong : 8 ≤ tail.length
  · refine .inl ⟨.byte (bitsByte (tail.take 8)), tail.drop 8, ?_⟩
    simp [desc, byteBits_bitsByte (bs := tail.take 8) (by simpa using hlong)]
  · have hlen : (tail ++ List.replicate (8 - tail.length) false).length = 8 := by simp; omega
    exact .inr ⟨.byte (bitsByte (tail ++ List.replicate (8 - tail.length) false)),
      List.replicate (8 - tail.length) false, by simp [desc, byteBits_bitsByte hlen]⟩

/-- Every bit sequence begins a description: the grammar has no invalid production (R99). -/
theorem beginsDescription (bs : List Bool) : BeginsDescription bs :=
  match bs with
  | [] => .inr ⟨.eom, desc .eom, rfl⟩
  | [false] => .inr ⟨.eom, [false], rfl⟩
  | false :: false :: tail => .inl ⟨.eom, tail, rfl⟩
  | false :: true :: tail => .leafByte tail
  | true :: tail => .branch (beginsDescription tail) fun l rest _ => beginsDescription rest
termination_by bs.length
decreasing_by
  · exact Nat.lt_succ_self _
  · simp [‹tail = desc l ++ rest›]

/-- Settles O4: each node's production is read alone, and bits that end early are filled up. -/
theorem descriptionIsSelfDelimiting : Obligations.DescriptionIsSelfDelimiting := by
  refine ⟨fun T rest levels hlevels => ?_, beginsDescription⟩
  obtain ⟨n, rfl⟩ := Nat.exists_eq_add_one.mpr (Nat.lt_of_le_of_lt (Nat.zero_le _) hlevels)
  exact decodeTree_desc T n rest (Nat.le_of_lt_succ hlevels)

/-! ### The length of a description -/

/-- Each branch is one bit, each byte leaf ten and each end-of-message leaf two (R98). -/
theorem length_desc (T : Tree) : (desc T).length = T.branches + 10 * T.byteLeaves + 2 * T.eomLeaves := by
  induction T with
  | eom => rfl
  | byte v => rfl
  | branch l r ihl ihr =>
    simp only [desc, Tree.branches, Tree.byteLeaves, Tree.eomLeaves, List.length_cons, List.length_append, ihl, ihr]
    omega

/-- A full tree has one more leaf than branches (R10). -/
theorem leaves_eq_branches_succ (T : Tree) : T.byteLeaves + T.eomLeaves = T.branches + 1 := by
  induction T with
  | eom => rfl
  | byte v => rfl
  | branch l r ihl ihr => simp only [Tree.branches, Tree.byteLeaves, Tree.eomLeaves]; omega

/-- A tree has a codeword for each leaf (R11). -/
theorem length_codewords (T : Tree) : T.codewords.length = T.byteLeaves + T.eomLeaves := by
  induction T with
  | eom => rfl
  | byte v => rfl
  | branch l r ihl ihr =>
    simp only [Tree.codewords, Tree.byteLeaves, Tree.eomLeaves, List.length_append, List.length_map, ihl, ihr]
    omega

/-- A leaf holds one of the 257 symbols (R9). -/
theorem symbol_lt (T : Tree) : ∀ y ∈ T.codewords.map (·.1), y.toNat < Config.nsym := by
  induction T with
  | eom => simp [Tree.codewords, Config.eom, Config.nsym]
  | byte v => exact fun y hy => List.mem_singleton.mp hy ▸ symOfByte_lt v
  | branch l r ihl ihr =>
    intro y hy
    simp only [Tree.codewords, List.map_append, List.map_map, Function.comp_def, List.mem_append] at hy
    exact hy.elim (ihl y) (ihr y)

/-- A tree whose leaves hold different symbols has at most 257 leaves (R9). -/
theorem leaves_le_nsym {T : Tree} (h : (T.codewords.map (·.1)).Nodup) : T.byteLeaves + T.eomLeaves ≤ Config.nsym := by
  have hnodup : ((T.codewords.map (·.1)).map BitVec.toNat).Nodup := h.map BitVec.toNat_injective
  have hsub : (T.codewords.map (·.1)).map BitVec.toNat ⊆ List.range Config.nsym := by
    intro k hk
    obtain ⟨y, hy, rfl⟩ := List.mem_map.mp hk
    exact List.mem_range.mpr (symbol_lt T y hy)
  simpa [length_codewords] using (hnodup.subperm hsub).length_le

/-- Settles O5: the leaves of a full tree are one more than its branches, and a valid one has at most 256 byte leaves. -/
theorem descriptionLength : Obligations.DescriptionLength := by
  refine fun T => ⟨length_desc T, fun hvalid => ?_⟩
  simp only [Tree.valid, Bool.and_eq_true, decide_eq_true_eq] at hvalid
  obtain ⟨heom, hnodup⟩ := hvalid
  have hleaves := leaves_eq_branches_succ T
  have hbound : T.byteLeaves + T.eomLeaves ≤ 257 := leaves_le_nsym hnodup
  have hlength := length_desc T
  omega

end Sys2Proof.Machine
end

section
/-! SUPPORT. What each statement of a host program does in its step, and what it adds to the program's encoding
(30_encoding.md rules R105 and R107). -/

namespace Sys2Proof.Machine

/-- The host moves: on its event of the agenda, or by default with an empty agenda and an idle core (log 11). -/
def HostMoves (rest : List Event) (s : State) : Prop :=
  (s.agenda = [] ∧ s.cur = none ∧ rest = []) ∨ s.agenda = .host :: rest

section
variable {s : State} {rest : List Event} {st : HostStmt}

/-- When the host moves, its statement is the step. -/
theorem HostMoves.step (h : HostMoves rest s) : step s = hostStep { s with agenda := rest } := by
  rcases h with ⟨ha, hc, rfl⟩ | ha
  · rw [step_idle ha hc, ← ha]
  · exact step_event ha

/-- When the host moves, its statement is the action of the step. -/
theorem HostMoves.nextAction (h : HostMoves rest s) (hp : s.host.prog[s.host.next]? = some st) :
    nextAction s = busAction st := by
  rcases h with ⟨ha, hc, -⟩ | ha
  · rw [nextAction_default ha hc, hp]; rfl
  · rw [nextAction_host ha, hp]; rfl

/-! ### One statement -/

/-- An admitted `wr` with the core idle applies the register's rule, and goes on (R105). -/
theorem hostStep_wr_idle {off : Nat} {w : Word} (hp : s.host.prog[s.host.next]? = some (.wr off w))
    (hc : s.cur = none) (hoff : accessAdmitted off 4 = true) :
    hostStep s = .next (writeReg off w (hostGoto (s.host.next + 1) s)) := by
  have hidle : busy (hostGoto (s.host.next + 1) s) = false := by simp [busy, hc]
  simp only [hostStep, hp, accessStep, accessRefusal_admitted hoff, busWrite_idle off w hidle]

/-- The registers do not show the host's place in its program. -/
theorem readReg_hostGoto (off k : Nat) : readReg off (hostGoto k s) = readReg off s := rfl

/-- An admitted `rd` with the core idle keeps the register's word in its variable, and goes on (R105). -/
theorem hostStep_rd_idle {var off : Nat} (hp : s.host.prog[s.host.next]? = some (.rd var off))
    (hc : s.cur = none) (hoff : accessAdmitted off 4 = true) :
    hostStep s = .next { s with host := {
      prog := s.host.prog, next := s.host.next + 1, vars := s.host.vars.put var (readReg off s),
      data := some (readReg off s) } } := by
  have hidle : busy (hostGoto (s.host.next + 1) s) = false := by simp [busy, hc]
  simp only [hostStep, hp, accessRefusal_admitted hoff, busRead_idle off hidle, readReg_hostGoto]
  rfl

theorem hostStep_bf {var target : Nat} {mask val : Word}
    (hp : s.host.prog[s.host.next]? = some (.bf var mask val target)) :
    hostStep s =
      .next (hostGoto (if hostVar var s.host &&& mask = val then target else s.host.next + 1) s) := by
  simp only [hostStep, hp]

theorem hostStep_bnf {var target : Nat} {mask val : Word}
    (hp : s.host.prog[s.host.next]? = some (.bnf var mask val target)) :
    hostStep s =
      .next (hostGoto (if hostVar var s.host &&& mask = val then s.host.next + 1 else target) s) := by
  simp only [hostStep, hp]

theorem hostStep_jmp {target : Nat} (hp : s.host.prog[s.host.next]? = some (.jmp target)) :
    hostStep s = .next (hostGoto target s) := by
  simp only [hostStep, hp]

theorem hostStep_halt (hp : s.host.prog[s.host.next]? = some .halt) : hostStep s = .next s := by
  simp only [hostStep, hp]

/-! ### Variables and the encoding -/

/-- A variable that was set has its value, and the others keep theirs. -/
theorem hostVar_put (h : HostAgent) (prog : List HostStmt) (next var other : Nat) (w : Word) (data : Option Word) :
    hostVar other { prog := prog, next := next, vars := h.vars.put var w, data := data } =
      if var = other then w else hostVar other h := by
  by_cases hsame : var = other
  · simp only [hostVar, Memory.get_put, if_pos hsame]
  · simp only [hostVar, Memory.get_put, if_neg hsame]

end

/-- Settles O60: the step is the statement's own rule, and a read or write puts its access before those of the rest of
the run. -/
theorem hostStatements : Obligations.HostStatements := by
  intro s st rest hp hmoves
  replace hmoves : HostMoves rest s := hmoves
  rw [hmoves.step]
  refine ⟨?_, ?_, ?_, ?_, ?_, ?_, ?_⟩
  · rintro off w rfl hc hoff
    exact hostStep_wr_idle (s := { s with agenda := rest }) hp hc hoff
  · rintro var off rfl hc hoff
    refine ⟨_, hostStep_rd_idle (s := { s with agenda := rest }) hp hc hoff, ?_, fun other hother => ?_, rfl⟩
    · exact (hostVar_put ..).trans (if_pos rfl)
    · exact (hostVar_put ..).trans (if_neg (Ne.symm hother))
  · rintro var mask val target rfl
    exact hostStep_bf (s := { s with agenda := rest }) hp
  · rintro var mask val target rfl
    exact hostStep_bnf (s := { s with agenda := rest }) hp
  · rintro target rfl
    exact hostStep_jmp (s := { s with agenda := rest }) hp
  · rintro rfl
    exact hostStep_halt (s := { s with agenda := rest }) hp
  · intro n t h
    rw [← hmoves.step] at h
    refine ⟨(busAction st).toList, by rw [busActions_next n h, hmoves.nextAction hp], ?_, ?_, ?_⟩
    · rintro off w rfl; rfl
    · rintro var off rfl; rfl
    · intro hwr hrd
      cases st with
      | wr off w => exact absurd rfl (hwr off w)
      | rd var off => exact absurd rfl (hrd var off)
      | _ => rfl

end Sys2Proof.Machine
end

section
/-! SUPPORT. What reading takes from IN: every step of a description takes some bits from the front of the pending ones,
counts them and leaves the rest of their last byte in hand (10_state.md rules R46 and R51, 20_memory.md rule R65). -/

namespace Sys2Proof.Machine

/-! ### Taking bits -/

/-- These bits were taken from the front of IN and counted, and the rest of the last byte they came from stays in hand.
-/
def Takes (bs : List Bool) (s t : State) : Prop :=
  pendingBits s = bs ++ pendingBits t ∧ t.inBitpos = s.inBitpos + BitVec.ofNat 32 bs.length ∧
    t.inBuf.length = bitsLeft s.inBuf.length bs.length

/-- Some bits were taken. -/
def Consumes (s t : State) : Prop := ∃ bs, Takes bs s t

/-- Reading in two parts leaves as many bits in hand as reading at once. -/
theorem bitsLeft_add (m : Nat) : ∀ held n, bitsLeft (bitsLeft held m) n = bitsLeft held (m + n) := by
  induction m with
  | zero => intro held n; rw [bitsLeft_zero, Nat.zero_add]
  | succ m ih => intro held n; rw [← bitsLeft_succ held m, ih, bitsLeft_succ, Nat.add_right_comm]

theorem Takes.trans {as bs : List Bool} {s t u : State} (h₁ : Takes as s t) (h₂ : Takes bs t u) :
    Takes (as ++ bs) s u := by
  obtain ⟨hbits₁, hpos₁, hbuf₁⟩ := h₁
  obtain ⟨hbits₂, hpos₂, hbuf₂⟩ := h₂
  refine ⟨by rw [hbits₁, hbits₂, List.append_assoc], ?_, ?_⟩
  · rw [hpos₂, hpos₁, BitVec.add_assoc, ← BitVec.ofNat_add, List.length_append]
  · rw [hbuf₂, hbuf₁, bitsLeft_add, List.length_append]

/-- Where the cursors are the same, no bit was taken. -/
theorem Takes.none {s t : State} (h : SameCursors s t) : Takes [] s t := by
  have hbits := pendingBits_sameCursors h
  obtain ⟨hbuf, -, hin, -, -, -⟩ := h
  exact ⟨hbits.symm, by simp [hin], by simp [hbuf]⟩

theorem Consumes.none {s t : State} (h : SameCursors s t) : Consumes s t := ⟨[], .none h⟩

theorem frameConsumes : Frame Consumes where
  refl _ := .none ⟨rfl, rfl, rfl, rfl, rfl, rfl⟩
  trans := fun ⟨_, h₁⟩ ⟨_, h₂⟩ => ⟨_, h₁.trans h₂⟩

/-- Which bits were taken is known from those still pending. -/
theorem Consumes.takes {s t : State} {bs : List Bool} (h : Consumes s t) (hs : pendingBits s = bs ++ pendingBits t) :
    Takes bs s t := by
  obtain ⟨as, has⟩ := h
  rwa [List.append_cancel_right (has.1.symm.trans hs)] at has

/-- `ReadBit` takes the bit it gives, and none at `EOS`. -/
theorem readBit_consumes : Changes Consumes readBit := by
  intro s
  rcases readBit_cases s with ⟨b, rest, t, hs, hread, ht, hpos, -⟩ | ⟨hs, hread⟩ <;> rw [hread]
  · exact ⟨[b], hs.trans (ht ▸ rfl), hpos, readBit_inBuf hread⟩
  · have hbuf : s.inBuf = [] := by
      unfold pendingBits at hs
      cases hp : s.inPhase <;> simp_all
    exact ⟨[], hs.trans hbuf.symm, by simp, by simp⟩

/-- A production of a description takes bits as `ReadBit` does, and its other steps leave the cursors alone. -/
theorem admitsTdes_consumes : AdmitsTdes Consumes where
  toFrame := frameConsumes
  read := readBit_consumes
  alloc s := by
    unfold allocNode
    split <;> exact .none ⟨rfl, rfl, rfl, rfl, rfl, rfl⟩
  setNode _ _ _ := .none ⟨rfl, rfl, rfl, rfl, rfl, rfl⟩
  setRight i s := by
    unfold setRight
    split <;> exact .none ⟨rfl, rfl, rfl, rfl, rfl, rfl⟩
  stack _ _ := .none ⟨rfl, rfl, rfl, rfl, rfl, rfl⟩

/-- A production that IN begins with is read, and its bits alone are taken (R121). -/
theorem readProduction_takes (i : Idx) (prod : Production) {s : State} {rest : List Bool}
    (hs : pendingBits s = prod.bits ++ rest) :
    ∃ t, readProduction i s = .ok prod t ∧ pendingBits t = rest ∧ Takes prod.bits s t ∧ SameButIn s t := by
  obtain ⟨t, hread, hrest, -, hframe⟩ := readProduction_pending i prod hs
  have htaken := readProduction_within frameConsumes readBit_consumes i s
  rw [hread] at htaken
  exact ⟨t, hread, hrest, htaken.takes (by rw [hs, ← hrest]; rfl), hframe⟩

end Sys2Proof.Machine
end

section
/-! SUPPORT. The three productions run as instructions of their own (40_tree_codec.md rules R122 to R124). -/

namespace Sys2Proof.Machine

/-- An entry's number as its index. -/
theorem toNat_index {n : Nat} (h : n < 1024) : (BitVec.ofNat 10 n).toNat = n := by
  rw [BitVec.toNat_ofNat, Nat.mod_eq_of_lt h]

/-- Entering a subtree within both bounds sets its parent's RIGHT where it is a right subtree, and allocates an entry
(R121). -/
theorem desFrame_room {f : DesFrame} {s : State} (hdepth : f.depth ≤ 256) (hroom : s.nodeCount.toNat < 1024) :
    desFrame f s = .ok (f.depth, BitVec.ofNat 10 s.nodeCount.toNat)
      { s with node := nodesOnEntry f s, nodeCount := s.nodeCount + 1#11 } := by
  have henter : enterSubtree f s = { s with node := nodesOnEntry f s } := by
    unfold enterSubtree nodesOnEntry setRight
    cases f.right with
    | false => rfl
    | true => cases s.node.get f.parent.toNat <;> rfl
  rw [desFrame_enterSubtree, henter, desAlloc, if_neg (show ¬ Config.maxDepth < f.depth from Nat.not_lt.mpr hdepth),
    bind_apply, allocNode_room (s := { s with node := nodesOnEntry f s }) hroom]
  rfl

/-- With an empty stack a production begins a description (log 8). -/
theorem instrBody_headD {i : Instr} (hi : opcode i = none) (s : State) :
    instrBody i s = instrBody i { s with desStack := s.desStack.headD rootFrame :: s.desStack.tail } := by
  cases hstack : s.desStack with
  | cons f rest => rw [List.headD_cons, List.tail_cons, ← hstack]
  | nil =>
    have henter : desEnter s = desEnter { s with desStack := [rootFrame] } := by
      simp only [desEnter, hstack]
      rw [← hstack]
    cases i with
    | branch => simp only [instrBody, branchBody, bind_apply, henter]; rfl
    | leafByte v => simp only [instrBody, leafByteBody, bind_apply, henter]; rfl
    | leafEom => simp only [instrBody, leafEomBody, bind_apply, henter]; rfl
    | _ => cases hi

/-- A production that IN begins with, run at the subtree on top of the stack: its entry is written, its subtrees are put
on the stack, and its bits alone are taken. -/
theorem exec_production_read {s : State} {f : DesFrame} {rest : List Bool} (prod : Production)
    (hf : s.desStack.headD rootFrame = f) (hdepth : f.depth ≤ 256) (hroom : s.nodeCount.toNat < 1024)
    (hs : pendingBits s = prod.bits ++ rest) :
    ∃ t, exec prod.instr s = .next t ∧ pendingBits t = rest ∧
      t.inBuf.length = bitsLeft s.inBuf.length prod.bits.length ∧
      t = { s with
        node := (nodesOnEntry f s).put s.nodeCount.toNat (entryOf (BitVec.ofNat 10 s.nodeCount.toNat) prod)
        nodeCount := s.nodeCount + 1#11
        desStack := childFrames f.depth (BitVec.ofNat 10 s.nodeCount.toNat) prod ++ s.desStack.tail
        inBuf := t.inBuf, inBitpos := s.inBitpos + BitVec.ofNat 32 prod.bits.length, inQ := t.inQ
        inPhase := t.inPhase, portLog := t.portLog } := by
  have hi : opcode prod.instr = none := by cases prod <;> rfl
  have hentry := desFrame_room (s := s) hdepth hroom
  generalize hy : ({ s with node := nodesOnEntry f s, nodeCount := s.nodeCount + 1#11 } : State) = y at hentry
  obtain ⟨z, hread, hrest, ⟨-, hpos, hbuf⟩, hframe⟩ :=
    readProduction_takes (BitVec.ofNat 10 s.nodeCount.toNat) prod (s := y) (rest := rest) (by rw [← hy]; exact hs)
  have hbody := instrBody_stacked s.nodeAddr s.tblSel (stack := s.desStack.tail) hentry hread
  have hstart : stacked s.nodeAddr s.tblSel (f :: s.desStack.tail) s =
      { s with desStack := s.desStack.headD rootFrame :: s.desStack.tail } := by rw [hf]; rfl
  rw [hstart, ← instrBody_headD hi] at hbody
  have hexec := exec_production hi s
  rw [hbody] at hexec
  refine ⟨_, hexec, hrest, by rw [← hy] at hbuf; exact hbuf, ?_⟩
  unfold SameButIn at hframe
  rw [← hy] at hframe hpos
  simp only [settleProduction, stacked, aside, setNode, toNat_index hroom, hpos]
  rw [hframe]

/-- Settles O28: the production at the head of IN, with the entry and the frames of a branch. -/
theorem branchProduction : Obligations.BranchProduction := by
  intro s f rest hf hdepth hroom hs
  obtain ⟨t, hexec, hrest, hbuf, ht⟩ := exec_production_read .branch hf hdepth hroom hs
  refine ⟨t, hexec, hrest, hbuf, ht.trans ?_⟩
  simp only [entryOf, BitVec.ofNat_add]
  rfl

/-- Settles O29: the production at the head of IN, with the entry of a leaf and no frame. -/
theorem leafProductions : Obligations.LeafProductions := by
  intro s f rest v hf hdepth hroom
  refine ⟨fun hs => ?_, fun hs => ?_⟩
  · exact exec_production_read (.leafByte v) hf hdepth hroom hs
  · exact exec_production_read .leafEom hf hdepth hroom hs

end Sys2Proof.Machine
end

section
/-! SUPPORT. What SER_TREE writes, and where the traversals of the node store stop (40_tree_codec.md rules R119 and
R120, 41_encoder.md rules R140 and R144, 42_decoder.md rule R160). -/

namespace Sys2Proof.Machine

/-! ### Writing -/

/-- Bytes, and no flush, were sent to OUT. -/
def SendsBytes (s t : State) : Prop := ∃ bytes : List Byte, t.outEv = s.outEv ++ bytes.map OutEvent.byte

theorem frameSendsBytes : Frame SendsBytes where
  refl s := ⟨[], by simp⟩
  trans := fun ⟨as, ha⟩ ⟨bs, hb⟩ => ⟨as ++ bs, by rw [hb, ha]; simp⟩

theorem writeBit_sendsBytes (b : Bool) (s : State) : SendsBytes s (writeBit b s) := by
  unfold writeBit
  split
  · exact ⟨[bitsByte (s.outAcc ++ [b])], rfl⟩
  · exact ⟨[], by simp⟩

theorem writeSeq_sendsBytes (bs : List Bool) (s : State) : SendsBytes s (writeSeq bs s) :=
  writeSeq_within frameSendsBytes writeBit_sendsBytes bs s

/-! ### SER_TREE -/

/-- SER_TREE of a tree that ROOT reaches writes its description (R120). -/
theorem serTreeBody_holds {s : State} {T : Tree} (h : Holds s.node s.root T) (hdepth : T.depth ≤ 256) :
    serTreeBody s = .ok () (writeSeq (desc T) s) :=
  serNode_holds T (Config.maxDepth + 1) s.root 0#10 s h (Nat.lt_succ_of_le hdepth)

/-- Settles O22: the traversal writes the description bit by bit. -/
theorem serTreeWritesTheDescription : Obligations.SerTreeWritesTheDescription := by
  intro s T hholds hdepth hout
  obtain ⟨hbits, hacc, hpos, hframe⟩ := writeSeq_spec (desc T) hout
  unfold SameButOut at hframe
  refine ⟨_, runCommand_ok (serTreeBody_holds hholds hdepth), hbits, hpos, ?_, writeSeq_sendsBytes (desc T) s, ?_⟩
  · rw [complete_outAcc, hacc]; omega
  · rw [complete, hframe]

/-! ### Where a traversal stops -/

/-- A traversal from `root` stops below this descent: at an entry that the node check refuses, or past depth 256, and
VALUE is that entry or the branch at depth 256 (R119, R120). -/
def StopsAt (m : Memory Node) (root : Idx) (way : List (Option Tree)) (v : Idx) (c : ErrCode) : Prop :=
  descentFits 0 way ∧ ∃ n, Descends m root way n ∧
    ((way.length ≤ 256 ∧ RefusedNode m n c ∧ v = n) ∨
      (way.length = 257 ∧ c = .depth ∧ Descends m root (way.take 256) v))

/-- A descent leads to one entry. -/
theorem Descends.unique {m : Memory Node} {way : List (Option Tree)} : ∀ {n k k' : Idx}, Descends m n way k →
    Descends m n way k' → k = k' := by
  induction way with
  | nil => intro n k k' h h'; exact h.trans h'.symm
  | cons turn way ih =>
    intro n k k' h h'
    obtain ⟨e, he, -, hway⟩ := h.branch
    obtain ⟨e', he', -, hway'⟩ := h'.branch
    rw [he] at he'
    cases he'
    cases turn with
    | none => exact ih hway hway'
    | some l => exact ih hway.2 hway'.2

/-- SER_TREE's traversal stops where the node check does. -/
theorem serNode_refused {s : State} {n : Idx} {c : ErrCode} (h : RefusedNode s.node n c) (levels : Nat) (p : Idx) :
    serNode (levels + 1) n p s = .error { code := c, value := n.setWidth 28 } s := by
  simp only [serNode, bind_apply, visit_refused h]

/-- BUILD_TABLE's traversal stops where the node check does. -/
theorem tblNode_refused {s : State} {n : Idx} {c : ErrCode} (h : RefusedNode s.node n c) (levels : Nat) (p : Idx)
    (path : List Bool) : tblNode (levels + 1) n p path s = .error { code := c, value := n.setWidth 28 } s := by
  simp only [tblNode, bind_apply, visit_refused h]

/-- SER_TREE writes the bits of the nodes before the one it stops at (R120). -/
theorem serTreeBody_stops {s : State} {way : List (Option Tree)} {v : Idx} {c : ErrCode}
    (h : StopsAt s.node s.root way v c) :
    serTreeBody s = .error { code := c, value := v.setWidth 28 } (writeSeq (descentBits way) s) := by
  obtain ⟨hfits, n, hdesc, ⟨hlen, hrefused, rfl⟩ | ⟨hlen, rfl, hv⟩⟩ := h
  · obtain ⟨parent, -, -, hraise⟩ := serNode_descent way (256 - way.length + 1) 0 s.root 0#10 v s hdesc hfits (by omega)
    rw [show way.length + (256 - way.length + 1) = Config.maxDepth + 1 by show _ = 257; omega] at hraise
    exact hraise _ _ (serNode_refused (by rwa [writeSeq_node]) _ _)
  · obtain ⟨parent, -, hparent, hraise⟩ := serNode_descent way 0 0 s.root 0#10 n s hdesc hfits (by omega)
    have hdrop := hparent (by rintro rfl; cases hlen)
    rw [List.dropLast_eq_take, hlen] at hdrop
    rw [hlen] at hraise
    rw [hv.unique hdrop]
    exact hraise _ _ rfl

/-! ### BUILD_TABLE and ENC_STREAM -/

/-- Leaves whose symbols differ and have no entry yet are all entered (R140). -/
theorem tblLeaves_fresh (leaves : List (Sym × List Bool)) : ∀ s : State, (leaves.map (·.1)).Nodup →
    (∀ y ∈ leaves.map (·.1), s.tbl.get y.toNat = none) → ∃ t, tblLeaves leaves s = .ok () t := by
  induction leaves with
  | nil => exact fun s _ _ => ⟨s, rfl⟩
  | cons e leaves ih =>
    intro s hnodup hfresh
    rw [List.map_cons, List.nodup_cons] at hnodup
    rw [List.map_cons, List.forall_mem_cons] at hfresh
    have hleaf : tblLeaf e.1 e.2 s = .ok () (setCodeword e.1 e.2 s) := by simp only [tblLeaf, hfresh.1]
    obtain ⟨t, ht⟩ := ih (setCodeword e.1 e.2 s) hnodup.2 fun y hy => by
      have hne : e.1.toNat ≠ y.toNat := fun heq => hnodup.1 (BitVec.eq_of_toNat_eq heq ▸ hy)
      rw [setCodeword, Memory.get_put, if_neg hne]
      exact hfresh.2 y hy
    exact ⟨t, by simp only [tblLeaves, bind_apply, hleaf, ht]⟩

/-- A raise of BUILD_TABLE's traversal leaves the table empty and invalid (R140). -/
theorem buildTableBody_error {s u : State} {e : Err}
    (h : tblNode (Config.maxDepth + 1) s.root 0#10 [] (invalidateTable s) = .error e u) :
    buildTableBody s = .error e (invalidateTable s) := by
  have hframe := tblNode_changes (Config.maxDepth + 1) s.root 0#10 [] (invalidateTable s)
  rw [h] at hframe
  unfold SameButTbl at hframe
  have hclean : invalidateTable u = invalidateTable s := by rw [show u = _ from hframe]; rfl
  simp only [buildTableBody, bind_apply, update_apply, withCleanup_apply, withState_apply, invalidateTable_root, h,
    hclean]

/-- BUILD_TABLE stops where the traversal does, if no symbol came twice before (R140). -/
theorem buildTableBody_stops {s : State} {way : List (Option Tree)} {v : Idx} {c : ErrCode}
    (h : StopsAt s.node s.root way v c) (hnodup : (descentSymbols way).Nodup) :
    buildTableBody s = .error { code := c, value := v.setWidth 28 } (invalidateTable s) := by
  have hfresh {leaves : List (Sym × List Bool)} (hs : leaves.map (·.1) = descentSymbols way) :
      ∃ t, tblLeaves leaves (invalidateTable s) = .ok () t ∧ t.node = s.node := by
    obtain ⟨t, ht⟩ := tblLeaves_fresh leaves (invalidateTable s) (by rwa [hs]) fun _ _ => rfl
    exact ⟨t, ht, (tblLeaves_node ht : t.node = (invalidateTable s).node)⟩
  obtain ⟨hfits, n, hdesc, ⟨hlen, hrefused, rfl⟩ | ⟨hlen, rfl, hv⟩⟩ := h
  · obtain ⟨parent, path, leaves, -, -, hsyms, hraise⟩ :=
      tblNode_descent s.node way (256 - way.length + 1) 0 s.root 0#10 v [] hdesc hfits (by omega)
    rw [show way.length + (256 - way.length + 1) = Config.maxDepth + 1 by show _ = 257; omega] at hraise
    obtain ⟨t, ht, hnode⟩ := hfresh hsyms
    exact buildTableBody_error (hraise _ t _ t rfl ht (tblNode_refused (by rwa [hnode]) _ _ _))
  · obtain ⟨parent, path, leaves, -, hparent, hsyms, hraise⟩ :=
      tblNode_descent s.node way 0 0 s.root 0#10 n [] hdesc hfits (by omega)
    have hdrop := hparent (by rintro rfl; cases hlen)
    rw [List.dropLast_eq_take, hlen] at hdrop
    rw [hlen] at hraise
    obtain ⟨t, ht, -⟩ := hfresh hsyms
    rw [hv.unique hdrop]
    exact buildTableBody_error (hraise _ t _ t rfl ht rfl)

/-- ENC_STREAM on aligned cursors raises what its BUILD_TABLE step raises (R144). -/
theorem encStreamBody_build_error {s t : State} {e : Err} (hin : s.inBuf = []) (hout : s.outAcc = [])
    (h : buildTableBody s = .error e t) : encStreamBody s = .error e t := by
  have haligned : requireAligned s = .ok () s := by
    simp [requireAligned, inAligned, outAligned, hin, hout]
  simp only [encStreamBody, bind_apply, haligned, h]

/-! ### DEC_SYM -/

/-- The state in which a decode walk looks at its root (R160). -/
def walkStart (s : State) : State := { s with result := Result.zero }

/-- A root that the node check refuses ends DEC_SYM (R160). -/
theorem decWalk_root_error {s : State} {c : ErrCode} (heom : s.eomSeen = false) (h : RefusedNode s.node s.root c) :
    decWalk s = .error { code := c, value := s.root.setWidth 28 } (walkStart s) := by
  have hvisit := visit_refused (s := walkStart s) h
  unfold walkStart at hvisit ⊢
  simp only [decWalk, bind_apply, withState_apply]
  rw [if_neg (by simp [heom])]
  simp only [pure_apply, update_apply, hvisit]

/-- A raise of the walk below a branch ends DEC_SYM (R160). -/
theorem decWalk_walk_error {s t : State} {l r : Idx} {e : Err} (heom : s.eomSeen = false)
    (hroot : visit s.root (walkStart s) = .ok (.branch l r) (walkStart s))
    (h : walk Config.maxDepth 0 s.root (.branch l r) (walkStart s) = .error e t) : decWalk s = .error e t := by
  unfold walkStart at hroot h
  simp only [decWalk, bind_apply, withState_apply]
  rw [if_neg (by simp [heom])]
  simp only [pure_apply, update_apply, hroot, bind_apply, h]

/-- Where the walk along a path of IN stops: at an entry that the node check refuses, or at a branch at depth 256, which
DEC_NODE then holds (R160, R48). The bits of the path are taken. -/
theorem walk_stops {s : State} {root n stop : Idx} {v : Visited} {path rest : List Bool} {c : ErrCode}
    (hpath : nodeOnPath s.node root path = some n) (hroot : visit root s = .ok v s)
    (hs : pendingBits s = path ++ rest)
    (hstop : (path.length ≤ 256 ∧ RefusedNode s.node n c ∧ stop = s.decNode) ∨
      (path.length = 256 ∧ (∃ e, s.node.get n.toNat = some e ∧ e.kind = .branch) ∧ c = .depth ∧ stop = n)) :
    ∃ t, walk Config.maxDepth 0 root v s = .error { code := c, value := n.setWidth 28 } (setDecNode stop t) ∧
      pendingBits t = rest ∧ t.inBitpos = s.inBitpos + BitVec.ofNat 32 path.length ∧
      t.inBuf.length = bitsLeft s.inBuf.length path.length ∧ SameButIn s t := by
  have hlen : path.length + (256 - path.length) = Config.maxDepth := by
    show _ = 256
    rcases hstop with ⟨h, -⟩ | ⟨h, -⟩ <;> omega
  obtain ⟨t, hrest, hpos, hbuf, hframe, hwalk⟩ := walk_along path (256 - path.length) 0 root n v s rest hpath hroot hs
  rw [hlen] at hwalk
  refine ⟨t, ?_, hrest, hpos, hbuf, hframe⟩
  unfold SameButIn at hframe
  rcases hstop with ⟨-, hrefused, rfl⟩ | ⟨hfull, ⟨e, he, hk⟩, rfl, rfl⟩
  · rw [hwalk, visit_refused (by rw [hframe]; exact hrefused), hframe]
    rfl
  · rw [hwalk, visit_entry (by rw [hframe]; exact he), hk, hfull]
    rfl

/-- A raise of DEC_SYM's walk is the command's. -/
theorem exec_decSym_error {s t : State} {e : Err} (h : decWalk s = .error e t) :
    exec .decSym s = .next (complete (recordError 0x9#4 e t)) :=
  runCommand_error (show decSymBody s = .error e t by simp only [decSymBody, bind_apply, h])

/-- Settles O23: each traversal goes along its descent or path and raises at the end of it. -/
theorem traversalFaults : Obligations.TraversalFaults := by
  refine fun s => ⟨fun c hroot => ?_, fun way n v c hdesc hfits hstop => ?_,
    fun path rest n stop c hpath heom hs hstop => ?_⟩
  · have hat : StopsAt s.node s.root [] s.root c := ⟨trivial, s.root, rfl, .inl ⟨Nat.zero_le _, hroot, rfl⟩⟩
    exact ⟨runCommand_error (serTreeBody_stops hat), runCommand_error (buildTableBody_stops hat List.nodup_nil),
      fun heom => exec_decSym_error (decWalk_root_error heom hroot)⟩
  · have hat : StopsAt s.node s.root way v c := ⟨hfits, n, hdesc, hstop⟩
    refine ⟨fun hout => ?_, fun hnodup => ?_⟩
    · obtain ⟨hbits, hacc, hpos, hframe⟩ := writeSeq_spec (descentBits way) hout
      obtain ⟨bytes, hsent⟩ := writeSeq_sendsBytes (descentBits way) s
      unfold SameButOut at hframe
      refine ⟨_, bytes, runCommand_error (serTreeBody_stops hat), hbits, hsent, ?_, ?_⟩
      · simp only [complete_outAcc, recordError_outAcc, hacc]; omega
      · rw [complete, recordError, ← hpos, hframe]
    · have hbuild := buildTableBody_stops hat hnodup
      exact ⟨runCommand_error hbuild, fun hin hout => runCommand_error (encStreamBody_build_error hin hout hbuild)⟩
  · cases path with
    | nil =>
      cases hpath
      obtain ⟨-, hrefused, rfl⟩ := hstop.resolve_right fun h => by cases h.1
      exact ⟨_, exec_decSym_error (decWalk_root_error heom hrefused), hs, by simp [walkStart], by simp; rfl⟩
    | cons b path =>
      obtain ⟨e, he, hk⟩ : ∃ e, s.node.get s.root.toNat = some e ∧ e.kind = .branch := by
        cases he : s.node.get s.root.toNat with
        | none => simp [nodeOnPath, he] at hpath
        | some e => exact ⟨e, rfl, by by_contra hk; simp [nodeOnPath, he, hk] at hpath⟩
      have hroot : visit s.root (walkStart s) = .ok (.branch e.left e.right) (walkStart s) := by
        rw [visit_entry (s := walkStart s) he, hk]
      obtain ⟨t, hwalk, hrest, hpos, hbuf, hframe⟩ := walk_stops (s := walkStart s) hpath hroot hs hstop
      refine ⟨_, exec_decSym_error (decWalk_walk_error heom hroot hwalk), hrest, hbuf, ?_⟩
      unfold SameButIn at hframe
      simp only [complete, recordError, setDecNode]
      rw [hframe, hpos]
      rfl

end Sys2Proof.Machine
end

section
/-! SUPPORT. What DES_TREE does on the bits of IN: the tree it loads, and where a descent into a description stops
(40_tree_codec.md rules R121, R122 and R126). -/

namespace Sys2Proof.Machine

/-! ### The node store as it grows -/

/-- Every key listed is below `k`. -/
def Memory.Below {α : Type} (k : Nat) (m : Memory α) : Prop := ∀ e ∈ m, e.1 < k

namespace Memory

variable {α : Type} {k : Nat} {m : Memory α}

theorem Below.append {n : Nat} {m' : Memory α} (h : Below k m) (hk : k ≤ n) (h' : Below n m') : Below n (m ++ m') := by
  intro e he
  rcases List.mem_append.mp he with he | he
  · exact Nat.lt_of_lt_of_le (h e he) hk
  · exact h' e he

/-- A write past every key adds an entry at the end. -/
theorem put_append (h : Below k m) (v : α) : m.put k v = m ++ [(k, v)] := by
  induction m with
  | nil => rfl
  | cons e m ih =>
    obtain ⟨hlt, hm⟩ := List.forall_mem_cons.mp h
    rw [put, if_neg (by omega), if_neg (by omega), ih hm, List.cons_append]

/-- A write to an entry behind smaller keys replaces it. -/
theorem put_middle (h : Below k m) (v w : α) (rest : Memory α) :
    put (m ++ (k, v) :: rest) k w = m ++ (k, w) :: rest := by
  induction m with
  | nil => rw [List.nil_append, put, if_neg (Nat.lt_irrefl k), if_pos rfl, List.nil_append]
  | cons e m ih =>
    obtain ⟨hlt, hm⟩ := List.forall_mem_cons.mp h
    rw [List.cons_append, put, if_neg (by omega), if_neg (by omega), ih hm, List.cons_append]

/-- An entry behind smaller keys is read. -/
theorem get_middle (h : Below k m) (v : α) (rest : Memory α) : get (m ++ (k, v) :: rest) k = some v := by
  induction m with
  | nil => rw [List.nil_append, get, if_pos rfl]
  | cons e m ih =>
    obtain ⟨hlt, hm⟩ := List.forall_mem_cons.mp h
    rw [List.cons_append, get, if_neg (by omega), ih hm]

end Memory

/-- The entries of a tree are numbered from that of its root, without a gap. -/
theorem layout_below (T : Tree) : ∀ i, Memory.Below (i + T.size) (layout i T) := by
  induction T with
  | eom => simp [Memory.Below, layout, Tree.size]
  | byte v => simp [Memory.Below, layout, Tree.size]
  | branch l r ihl ihr =>
    intro i e he
    simp only [layout, List.mem_cons, List.mem_append] at he
    simp only [Tree.size]
    rcases he with rfl | he | he
    · dsimp only; omega
    · have := ihl _ e he; omega
    · have := ihr _ e he; omega

/-- The entries of a tree behind smaller ones hold that tree. -/
theorem holds_layout (T : Tree) : ∀ (i : Nat) (m rest : Memory Node), m.Below i → i + T.size ≤ 1024 →
    Holds (m ++ (layout i T ++ rest)) (BitVec.ofNat 10 i) T := by
  induction T with
  | eom =>
    intro i m rest hm hi
    exact ⟨_, by rw [toNat_index hi]; exact Memory.get_middle hm _ _, rfl⟩
  | byte v =>
    intro i m rest hm hi
    exact ⟨_, by rw [toNat_index hi]; exact Memory.get_middle hm _ _, rfl, rfl⟩
  | branch l r ihl ihr =>
    intro i m rest hm hi
    simp only [Tree.size] at hi
    obtain ⟨n, hn⟩ : ∃ n : Node, n =
        { kind := .branch, byte := 0#8, left := BitVec.ofNat 10 (i + 1), right := BitVec.ofNat 10 (i + 1 + l.size) } :=
      ⟨_, rfl⟩
    have hroot {j : Nat} (hj : i < j) : Memory.Below j [(i, n)] := by simpa [Memory.Below] using hj
    rw [layout, ← hn]
    refine ⟨n, by rw [toNat_index (by omega)]; exact Memory.get_middle hm _ _, by rw [hn], ?_, ?_⟩
    · have h := ihl (i + 1) (m ++ [(i, n)]) (layout (i + 1 + l.size) r ++ rest)
        (hm.append (Nat.le_succ i) (hroot (Nat.lt_succ_self i))) (by omega)
      rw [show n.left = BitVec.ofNat 10 (i + 1) by rw [hn]]
      simpa only [List.append_assoc, List.cons_append, List.nil_append] using h
    · have h := ihr (i + 1 + l.size) (m ++ ([(i, n)] ++ layout (i + 1) l)) rest
        (hm.append (by omega) ((hroot (by omega)).append (Nat.le_refl _) (layout_below l (i + 1)))) (by omega)
      rw [show n.right = BitVec.ofNat 10 (i + 1 + l.size) by rw [hn]]
      simpa only [List.append_assoc, List.cons_append, List.nil_append] using h

/-! ### One node -/

@[simp] theorem pendingBits_setRight (i : Idx) (s : State) : pendingBits (setRight i s) = pendingBits s :=
  pendingBits_enterSubtree { depth := 0, parent := i, right := true } s

@[simp] theorem setRight_nodeCount (i : Idx) (s : State) : (setRight i s).nodeCount = s.nodeCount := by
  unfold setRight
  split <;> rfl

/-- RIGHT of an entry behind smaller ones is set to the next entry. -/
theorem setRight_node {i : Idx} {s : State} {m rest : Memory Node} {n : Node} (hm : m.Below i.toNat)
    (hs : s.node = m ++ (i.toNat, n) :: rest) :
    (setRight i s).node = m ++ (i.toNat, { n with right := idxOfCount s.nodeCount }) :: rest := by
  have hget : s.node.get i.toNat = some n := by rw [hs]; exact Memory.get_middle hm n rest
  unfold setRight
  rw [hget]
  dsimp only
  rw [setNode, hs, Memory.put_middle hm]

/-- With room in the store, a node whose production IN begins with is read and written, and its subtrees come next. -/
theorem desNode_read {s : State} {rest : List Bool} (levels : Nat) (p : Idx) (prod : Production)
    (hroom : s.nodeCount.toNat < 1024) (hs : pendingBits s = prod.bits ++ rest) :
    ∃ t, desNode (levels + 1) p s = desChildren levels (BitVec.ofNat 10 s.nodeCount.toNat) prod t ∧
      pendingBits t = rest ∧ t.nodeCount.toNat = s.nodeCount.toNat + 1 ∧
      t.node = s.node.put s.nodeCount.toNat (entryOf (BitVec.ofNat 10 s.nodeCount.toNat) prod) := by
  obtain ⟨z, hread, hrest, -, hframe⟩ := readProduction_takes (BitVec.ofNat 10 s.nodeCount.toNat) prod
    (s := { s with nodeCount := s.nodeCount + 1#11 }) hs
  refine ⟨setNode (BitVec.ofNat 10 s.nodeCount.toNat) (entryOf (BitVec.ofNat 10 s.nodeCount.toNat) prod) z, ?_, hrest,
    ?_, ?_⟩
  · simp only [desNode_succ, bind_apply, allocNode_room hroom, hread, update_apply]
  · unfold SameButIn at hframe
    rw [setNode_nodeCount, hframe]
    simp only [BitVec.toNat_add, BitVec.toNat_ofNat]
    omega
  · unfold SameButIn at hframe
    rw [setNode, toNat_index hroom, hframe]

/-! ### A whole description -/

/-- On the description of a tree within both bounds, DES_TREE's recursion takes exactly its bits and adds its entries in
pre-order (R121, R122). -/
theorem desNode_desc (T : Tree) : ∀ (levels : Nat) (p : Idx) (s : State) (rest : List Bool),
    pendingBits s = desc T ++ rest → T.depth < levels → s.nodeCount.toNat + T.size ≤ 1024 →
    ∃ t, desNode levels p s = .ok () t ∧ pendingBits t = rest ∧
      t.nodeCount.toNat = s.nodeCount.toNat + T.size ∧
      (s.node.Below s.nodeCount.toNat → t.node = s.node ++ layout s.nodeCount.toNat T) := by
  induction T with
  | eom =>
    intro levels p s rest hs hdepth hroom
    obtain ⟨k, rfl⟩ := Nat.exists_eq_add_one.mpr (Nat.zero_lt_of_lt hdepth)
    obtain ⟨t, hread, hrest, hcount, hnode⟩ := desNode_read k p .leafEom hroom hs
    exact ⟨t, hread, hrest, hcount, fun hm => hnode.trans (Memory.put_append hm _)⟩
  | byte v =>
    intro levels p s rest hs hdepth hroom
    obtain ⟨k, rfl⟩ := Nat.exists_eq_add_one.mpr (Nat.zero_lt_of_lt hdepth)
    obtain ⟨t, hread, hrest, hcount, hnode⟩ := desNode_read k p (.leafByte v) hroom hs
    exact ⟨t, hread, hrest, hcount, fun hm => hnode.trans (Memory.put_append hm _)⟩
  | branch l r ihl ihr =>
    intro levels p s rest hs hdepth hroom
    obtain ⟨k, rfl⟩ := Nat.exists_eq_add_one.mpr (Nat.zero_lt_of_lt hdepth)
    obtain ⟨hdl, hdr⟩ : l.depth < k ∧ r.depth < k := by simp only [Tree.depth] at hdepth; omega
    simp only [Tree.size] at hroom
    obtain ⟨t, hread, hrest, hcount, hnode⟩ := desNode_read k p .branch (s := s) (rest := desc l ++ (desc r ++ rest))
      (by omega) (by rw [hs]; simp [desc, Production.bits])
    have hindex := toNat_index (n := s.nodeCount.toNat) (by omega)
    generalize hi : BitVec.ofNat 10 s.nodeCount.toNat = i at hread hnode hindex
    obtain ⟨u, hleft, hrestu, hcountu, hnodeu⟩ := ihl k i t _ hrest hdl (by omega)
    obtain ⟨v, hright, hrestv, hcountv, hnodev⟩ := ihr k i (setRight i u) rest
      (by rw [pendingBits_setRight, hrestu]) hdr (by rw [setRight_nodeCount]; omega)
    rw [setRight_nodeCount] at hcountv hnodev
    refine ⟨v, ?_, hrestv, by simp only [Tree.size]; omega, fun hm => ?_⟩
    · simp only [hread, desChildren, bind_apply, hleft, update_apply, hright]
    rw [Memory.put_append hm] at hnode
    have hroot (e : Node) : Memory.Below (s.nodeCount.toNat + 1) [(s.nodeCount.toNat, e)] := by simp [Memory.Below]
    replace hnodeu := hnodeu (by rw [hcount, hnode]; exact hm.append (Nat.le_succ _) (hroot _))
    rw [hnode, hcount, List.append_assoc, ← hindex] at hnodeu
    have hset := setRight_node (by rw [hindex]; exact hm) hnodeu
    have hlink : idxOfCount u.nodeCount = BitVec.ofNat 10 (s.nodeCount.toNat + 1 + l.size) := by
      apply BitVec.eq_of_toNat_eq
      rw [idxOfCount, BitVec.toNat_setWidth, hcountu, hcount, BitVec.toNat_ofNat]
    have hbelow := hm.append (n := s.nodeCount.toNat + 1 + l.size) (by omega)
      ((hroot { kind := .branch, byte := 0#8, left := i + 1#10, right := idxOfCount u.nodeCount }).append
        (Nat.le_add_right _ _) (layout_below l _))
    rw [hset, hcountu, hcount] at hnodev
    rw [hnodev (by rw [hindex]; exact hbelow), hindex, hlink, ← hi]
    simp [layout, entryOf, BitVec.ofNat_add]

end Sys2Proof.Machine
end

section
/-! SUPPORT. How DES_TREE ends: with the tree of a whole description, at the end of IN, or at one of its two bounds
(40_tree_codec.md rules R121, R122 and R126, 60_exceptions.md rule R200). -/

namespace Sys2Proof.Machine

/-! ### The command and its recursion -/

/-- DES_TREE ends where its recursion ends (R121). -/
theorem exec_desTree_ok {s u : State} (h : desNode (Config.maxDepth + 1) 0#10 (desStart s) = .ok () u) :
    exec .desTree s = .next (complete u) := by
  have hbody : desTreeBody s = .ok () u := by
    simp only [desTreeBody, bind_apply, update_apply, withCleanup_apply, h]
  exact runCommand_ok hbody

/-- DES_TREE from `s` ended in `t` with this error: the bits read stay consumed, and nothing else is kept of the
description (R121, R203). -/
def DesTreeRaises (e : Err) (s t : State) : Prop :=
  exec .desTree s = .next t ∧ Consumes s t ∧ t = { s with
    cur := none, err := { set := true, code := e.code, op := 0x4#4, value := e.value }, node := []
    nodeCount := 0#11, root := 0#10, tbl := [], tableValid := false, eomSeen := false, inBuf := t.inBuf
    inBitpos := t.inBitpos, inQ := t.inQ, inPhase := t.inPhase, portLog := t.portLog }

/-- A raise of the recursion ends DES_TREE, with IN as the recursion left it. -/
theorem desTree_raises {s u : State} {e : Err} (h : desNode (Config.maxDepth + 1) 0#10 (desStart s) = .error e u) :
    ∃ t, DesTreeRaises e s t ∧ pendingBits t = pendingBits u ∧ t.inPhase = u.inPhase := by
  have hbody : desTreeBody s = .error e (desCleanup u) := by
    simp only [desTreeBody, bind_apply, update_apply, withCleanup_apply, h]
  have htaken := admitsTdes_consumes.desNode (Config.maxDepth + 1) 0#10 (desStart s)
  have hframe := desNode_changes (Config.maxDepth + 1) 0#10 (desStart s)
  rw [h, endState_error] at htaken hframe
  refine ⟨raised e u, ⟨runCommand_error hbody, htaken, ?_⟩, rfl, rfl⟩
  unfold SameButDes at hframe
  rw [raised, hframe]
  rfl

/-! ### A whole description -/

/-- Settles O24: the recursion adds the entries of the tree to the empty store. -/
theorem desTreeLoadsTheTree : Obligations.DesTreeLoadsTheTree := by
  intro s T rest hs hdepth hsize
  obtain ⟨u, hdes, hrest, hcount, hnode⟩ := desNode_desc T (Config.maxDepth + 1) 0#10 (desStart s) rest hs
    (Nat.lt_succ_of_le hdepth) (by simpa using hsize)
  have htaken := admitsTdes_consumes.desNode (Config.maxDepth + 1) 0#10 (desStart s)
  have hframe := desNode_changes (Config.maxDepth + 1) 0#10 (desStart s)
  rw [hdes, endState_ok] at htaken hframe
  obtain ⟨-, hpos, hbuf⟩ := htaken.takes (bs := desc T) (by rw [hrest]; exact hs)
  replace hnode : u.node = layout 0 T := hnode (by simp [Memory.Below])
  unfold SameButDes at hframe
  have hroot : u.root = 0#10 := by rw [hframe]; rfl
  refine ⟨complete u, exec_desTree_ok hdes, hnode, by simpa using hcount, hroot, ?_, hrest, hbuf, hpos, ?_⟩
  · have h := holds_layout T 0 [] [] (by simp [Memory.Below]) (by omega)
    rw [complete_node, complete_root, hnode, hroot]
    simpa using h
  · simp only [complete_node, complete_nodeCount, complete_root]
    rw [complete, hframe]
    rfl

/-- With no entry left a node raises CAPACITY before it is read (R121). -/
theorem desNode_full {s : State} (levels : Nat) (p : Idx) (hfull : s.nodeCount = 1024#11) :
    desNode (levels + 1) p s = .error { code := .capacity, value := 0#28 } s := by
  simp only [desNode_succ, bind_apply, allocNode_full hfull]

/-- Where the recursion raises nothing, IN held the description of a tree within both bounds (R121). -/
theorem desNode_ok (levels : Nat) : ∀ {p : Idx} {s t : State}, desNode levels p s = .ok () t →
    s.nodeCount.toNat ≤ 1024 →
    ∃ T, pendingBits s = desc T ++ pendingBits t ∧ T.depth < levels ∧ s.nodeCount.toNat + T.size ≤ 1024 := by
  induction levels with
  | zero => intro p s t h _; cases h
  | succ levels ih =>
    intro p s t h hle
    by_cases hfull : s.nodeCount = 1024#11
    · rw [desNode_full _ _ hfull] at h
      cases h
    have hroom : s.nodeCount.toNat < 1024 :=
      Nat.lt_of_le_of_ne hle fun heq => hfull (BitVec.eq_of_toNat_eq heq)
    cases hdec : decodeProduction (pendingBits s) with
    | error err =>
      obtain ⟨u, hu⟩ := readProduction_exhausted (s := { s with nodeCount := s.nodeCount + 1#11 })
        (BitVec.ofNat 10 s.nodeCount.toNat) hdec
      simp only [desNode_succ, bind_apply, allocNode_room hroom, hu] at h
      cases h
    | ok r =>
      obtain ⟨prod, -, hs⟩ := production_of_decode hdec
      obtain ⟨u, hread, hrest, hcount, -⟩ := desNode_read levels p prod hroom hs
      rw [hread] at h
      cases prod with
      | leafByte v => cases h; exact ⟨.byte v, by rw [hs, hrest]; rfl, Nat.succ_pos _, hroom⟩
      | leafEom => cases h; exact ⟨.eom, by rw [hs, hrest]; rfl, Nat.succ_pos _, hroom⟩
      | branch =>
        simp only [desChildren, bind_apply, update_apply] at h
        cases hleft : desNode levels (BitVec.ofNat 10 s.nodeCount.toNat) u with
        | error e v => rw [hleft] at h; cases h
        | ok x v =>
          rw [hleft] at h
          obtain ⟨l, hbitsl, hdl, hsizel⟩ := ih hleft (by omega)
          obtain ⟨v', hleft', -, hcountl, -⟩ :=
            desNode_desc l levels (BitVec.ofNat 10 s.nodeCount.toNat) u _ hbitsl hdl hsizel
          rw [hleft] at hleft'
          cases hleft'
          obtain ⟨r, hbitsr, hdr, hsizer⟩ := ih h (by rw [setRight_nodeCount]; omega)
          rw [pendingBits_setRight] at hbitsr
          rw [setRight_nodeCount] at hsizer
          refine ⟨.branch l r, ?_, by simp only [Tree.depth]; omega, by simp only [Tree.size]; omega⟩
          rw [hs, ← hrest, hbitsl, hbitsr]
          simp [desc, Production.bits]

/-! ### A descent into a description -/

/-- On a descent within the store's bound the recursion takes the bits of the nodes it passes and goes on at the
descent's end, below the last branch passed; a raise there is the recursion's (R121). -/
theorem desNode_descent (way : List (Option Tree)) : ∀ (levels d : Nat) (p : Idx) (s : State) (rest : List Bool),
    pendingBits s = descentBits way ++ rest → descentFits d way → d + way.length + levels = 257 →
    s.nodeCount.toNat + descentNodes way ≤ 1024 →
    ∃ (t : State) (parent : Idx), pendingBits t = rest ∧
      t.nodeCount.toNat = s.nodeCount.toNat + descentNodes way ∧ (way = [] → parent = p) ∧
      (way ≠ [] → parent = BitVec.ofNat 10 (s.nodeCount.toNat + descentNodes way.dropLast)) ∧
      ∀ e u, desNode levels parent t = .error e u → desNode (way.length + levels) p s = .error e u := by
  induction way with
  | nil =>
    intro levels d p s rest hs _ _ _
    exact ⟨s, p, hs, rfl, fun _ => rfl, fun h => absurd rfl h, fun e u h => by simpa using h⟩
  | cons turn way ih =>
    intro levels d p s rest hs hfits hlen hroom
    rw [List.length_cons] at hlen
    rw [List.length_cons, Nat.add_right_comm]
    cases turn with
    | none =>
      simp only [descentNodes] at hroom ⊢
      obtain ⟨t, hread, hrest, hcount, -⟩ := desNode_read (way.length + levels) p .branch (s := s)
        (rest := descentBits way ++ rest) (by omega) hs
      obtain ⟨u, parent, hu, hcountu, hp0, hp1, herr⟩ := ih levels (d + 1) (BitVec.ofNat 10 s.nodeCount.toNat) t rest
        hrest hfits (by omega) (by omega)
      refine ⟨u, parent, hu, by omega, by simp, fun _ => ?_, fun e v h => ?_⟩
      · cases way with
        | nil => rw [hp0 rfl]; rfl
        | cons b way => rw [hp1 (by simp), hcount, List.dropLast_cons_cons, descentNodes]; congr 1; omega
      · rw [hread, desChildren, bind_apply, herr e v h]
    | some l =>
      obtain ⟨hfit, hfits⟩ := hfits
      simp only [descentNodes] at hroom ⊢
      obtain ⟨t, hread, hrest, hcount, -⟩ := desNode_read (way.length + levels) p .branch (s := s)
        (rest := desc l ++ (descentBits way ++ rest)) (by omega) (by rw [hs]; simp [descentBits, Production.bits])
      obtain ⟨u, hleft, hrestu, hcountu, -⟩ := desNode_desc l (way.length + levels)
        (BitVec.ofNat 10 s.nodeCount.toNat) t _ hrest (by omega) (by omega)
      obtain ⟨v, parent, hv, hcountv, hp0, hp1, herr⟩ := ih levels (d + 1) (BitVec.ofNat 10 s.nodeCount.toNat)
        (setRight (BitVec.ofNat 10 s.nodeCount.toNat) u) rest (by rw [pendingBits_setRight, hrestu]) hfits (by omega)
        (by rw [setRight_nodeCount]; omega)
      rw [setRight_nodeCount] at hcountv hp1
      refine ⟨v, parent, hv, by omega, by simp, fun _ => ?_, fun e w h => ?_⟩
      · cases way with
        | nil => rw [hp0 rfl]; rfl
        | cons b way => rw [hp1 (by simp), hcountu, hcount, List.dropLast_cons_cons, descentNodes]; congr 1; omega
      · simp only [hread, desChildren, bind_apply, hleft, update_apply, herr e w h]

/-- Every node of a tree is at the end of a descent, which reads the productions before it (R96). -/
theorem exists_descent (T : Tree) : ∀ (d k : Nat), d + T.depth ≤ 256 → k < T.size →
    ∃ way, descentNodes way = k ∧ descentBits way = ((productions T).take k).flatten ∧ way.length ≤ T.depth ∧
      descentFits d way := by
  induction T with
  | eom =>
    intro d k _ hk
    obtain rfl : k = 0 := Nat.lt_one_iff.mp hk
    exact ⟨[], rfl, rfl, Nat.zero_le _, trivial⟩
  | byte v =>
    intro d k _ hk
    obtain rfl : k = 0 := Nat.lt_one_iff.mp hk
    exact ⟨[], rfl, rfl, Nat.zero_le _, trivial⟩
  | branch l r ihl ihr =>
    intro d k hdepth hk
    simp only [Tree.depth, Tree.size] at hdepth hk ⊢
    match k with
    | 0 => exact ⟨[], rfl, rfl, Nat.zero_le _, trivial⟩
    | k + 1 =>
      by_cases hside : k < l.size
      · obtain ⟨way, hnodes, hbits, hlen, hfits⟩ := ihl (d + 1) k (by omega) hside
        refine ⟨none :: way, by rw [descentNodes, hnodes], ?_, by simp; omega, hfits⟩
        simp [descentBits, productions, hbits, List.take_append, Nat.sub_eq_zero_of_le (Nat.le_of_lt hside)]
      · obtain ⟨way, hnodes, hbits, hlen, hfits⟩ := ihr (d + 1) (k - l.size) (by omega) (by omega)
        refine ⟨some l :: way, by rw [descentNodes, hnodes]; omega, ?_, by simp; omega, by omega, hfits⟩
        have hall : (productions l).take k = productions l := List.take_of_length_le (by simpa using hside)
        simp [descentBits, productions, hbits, List.take_append, hall, productions_flatten]

/-- On a descent that IN begins with, DES_TREE has read the nodes passed when it comes to the descent's end, and a raise
there ends it. -/
theorem desTree_descent {s : State} {way : List (Option Tree)} {levels : Nat} {rest : List Bool}
    (hs : pendingBits s = descentBits way ++ rest) (hfits : descentFits 0 way) (hlen : way.length + levels = 257)
    (hroom : descentNodes way ≤ 1024) :
    ∃ (t : State) (parent : Idx), pendingBits t = rest ∧ t.nodeCount.toNat = descentNodes way ∧
      (way ≠ [] → parent = BitVec.ofNat 10 (descentNodes way.dropLast)) ∧
      ∀ e u, desNode levels parent t = .error e u →
        ∃ v, DesTreeRaises e s v ∧ pendingBits v = pendingBits u ∧ v.inPhase = u.inPhase := by
  obtain ⟨t, parent, ht, hcount, -, hparent, herr⟩ := desNode_descent way levels 0 0#10 (desStart s) rest hs hfits
    (by omega) (by simpa using hroom)
  rw [hlen] at herr
  refine ⟨t, parent, ht, by simpa using hcount, fun hne => by simpa using hparent hne, fun e u h => ?_⟩
  exact desTree_raises (herr e u h)

/-! ### The end of IN -/

/-- No bit is pending and `EOS` was answered. -/
def AtEnd (s : State) : Prop := pendingBits s = [] ∧ s.inPhase = .eos

/-- Where `ReadBit` gives no bit, IN is at its end. -/
theorem readBit_none {s t : State} (h : readBit s = .ok none t) : AtEnd t := by
  rcases readBit_cases s with ⟨b, rest, u, -, hb, -⟩ | ⟨hs, hb⟩
  · rw [hb] at h; cases h
  · have hend := readBit_consumes s
    rw [hb] at h hend
    cases h
    obtain ⟨bs, hbits, -⟩ := hend
    exact ⟨(List.append_eq_nil_iff.mp (hbits.symm.trans hs)).2, rfl⟩

/-- Everything `ReadBits` can do: it gives its bits or comes to the end of IN, and never raises. -/
theorem readBitsFrom_cases (n : Nat) : ∀ (acc : Nat) (s : State),
    (∃ v t, readBitsFrom n acc s = .ok (some v) t) ∨ ∃ t, readBitsFrom n acc s = .ok none t ∧ AtEnd t := by
  induction n with
  | zero => exact fun acc s => .inl ⟨acc, s, rfl⟩
  | succ n ih =>
    intro acc s
    rw [readBitsFrom, bind_apply]
    rcases readBit_cases s with ⟨b, rest, u, -, hb, -⟩ | ⟨-, hb⟩ <;> rw [hb]
    · exact ih _ u
    · exact .inr ⟨_, rfl, readBit_none hb⟩

/-- A bit of a description is read, or its reading raises at the end of IN. -/
theorem treeBit_cases (i : Idx) (s : State) :
    (∃ b t, treeBit i s = .ok b t) ∨ ∃ e t, treeBit i s = .error e t ∧ AtEnd t := by
  rw [treeBit, bind_apply]
  rcases readBit_cases s with ⟨b, rest, u, -, hb, -⟩ | ⟨-, hb⟩ <;> rw [hb]
  · exact .inl ⟨b, u, rfl⟩
  · exact .inr ⟨_, _, rfl, readBit_none hb⟩

/-- A production whose reading raises is read up to the end of IN (R121). -/
theorem readProduction_error {i : Idx} {s t : State} {e : Err} (h : readProduction i s = .error e t) : AtEnd t := by
  rw [readProduction, bind_apply] at h
  rcases treeBit_cases i s with ⟨b, u, hb⟩ | ⟨e', u, hb, hend⟩ <;> rw [hb] at h
  case inr => cases h; exact hend
  cases b with
  | true => cases h
  | false =>
    simp only [Bool.false_eq_true, if_false, bind_apply] at h
    rcases treeBit_cases i u with ⟨b, v, hb⟩ | ⟨e', v, hb, hend⟩ <;> rw [hb] at h
    case inr => cases h; exact hend
    cases b with
    | false => cases h
    | true =>
      simp only [if_true, bind_apply, readBits] at h
      rcases readBitsFrom_cases 8 0 v with ⟨n, w, hr⟩ | ⟨w, hr, hend⟩ <;> rw [hr] at h
      · cases h
      · cases h; exact hend

/-- Where IN ends inside a production, reading it raises EOS_TREE with its entry, at the end of IN (R121). -/
theorem readProduction_truncated (i : Idx) {s : State} {prod : Production} {more : List Bool}
    (hs : pendingBits s ++ more = prod.bits) (hmore : more ≠ []) :
    ∃ t, readProduction i s = .error { code := .eosTree, value := i.setWidth 28 } t ∧ AtEnd t := by
  cases hdec : decodeProduction (pendingBits s) with
  | error err =>
    obtain ⟨t, ht⟩ := readProduction_exhausted i hdec
    exact ⟨t, ht, readProduction_error ht⟩
  | ok r =>
    obtain ⟨prod', hi, hs'⟩ := production_of_decode hdec
    have h := decodeProduction_bits prod []
    rw [List.append_nil, ← hs, hs', List.append_assoc, decodeProduction_bits] at h
    simp only [Except.ok.injEq, Prod.mk.injEq, List.append_eq_nil_iff] at h
    exact absurd h.2.2 hmore

/-- An entry's index as VALUE. -/
theorem setWidth_index {n : Nat} (h : n < 1024) : (BitVec.ofNat 10 n).setWidth 28 = BitVec.ofNat 28 n := by
  apply BitVec.eq_of_toNat_eq
  rw [BitVec.toNat_setWidth, toNat_index h, BitVec.toNat_ofNat]

/-- A node whose production IN ends inside of raises EOS_TREE with its index (R121). -/
theorem desNode_truncated {s : State} {prod : Production} {more : List Bool} (levels : Nat) (p : Idx)
    (hroom : s.nodeCount.toNat < 1024) (hs : pendingBits s ++ more = prod.bits) (hmore : more ≠ []) :
    ∃ t, desNode (levels + 1) p s = .error { code := .eosTree, value := BitVec.ofNat 28 s.nodeCount.toNat } t ∧
      AtEnd t := by
  obtain ⟨t, hread, hend⟩ := readProduction_truncated (BitVec.ofNat 10 s.nodeCount.toNat)
    (s := { s with nodeCount := s.nodeCount + 1#11 }) hs hmore
  rw [setWidth_index hroom] at hread
  exact ⟨t, by simp only [desNode_succ, bind_apply, allocNode_room hroom, hread], hend⟩

/-- Bits that go on to a whole sequence of pieces end inside one of the pieces. -/
theorem exists_split_piece (ps : List (List Bool)) : ∀ {bs more : List Bool}, bs ++ more = ps.flatten → more ≠ [] →
    ∃ (k : Nat) (p q r : List Bool), ps[k]? = some p ∧ bs = (ps.take k).flatten ++ q ∧ q ++ r = p ∧ r ≠ [] := by
  induction ps with
  | nil => intro bs more h hmore; exact absurd (List.append_eq_nil_iff.mp h).2 hmore
  | cons p ps ih =>
    intro bs more h hmore
    have hcases : (∃ r, bs ++ r = p ∧ r ≠ []) ∨ ∃ bs', bs = p ++ bs' ∧ bs' ++ more = ps.flatten := by
      rcases List.append_eq_append_iff.mp h with ⟨r, hp, hps⟩ | ⟨bs', hbs, hps⟩
      · by_cases hr : r = []
        · exact .inr ⟨[], by rw [hp, hr]; simp, by rw [hps, hr]; rfl⟩
        · exact .inl ⟨r, hp.symm, hr⟩
      · exact .inr ⟨bs', hbs, hps.symm⟩
    rcases hcases with ⟨r, hp, hr⟩ | ⟨bs', hbs, hps⟩
    · exact ⟨0, p, bs, r, rfl, rfl, hp, hr⟩
    · obtain ⟨k, p', q, r, hk, hbits, hqr, hr⟩ := ih hps hmore
      exact ⟨k + 1, p', q, r, hk, by rw [hbs, hbits]; simp, hqr, hr⟩

/-- Every production of a description is one of the three (R96). -/
theorem production_of_mem {T : Tree} {p : List Bool} (h : p ∈ productions T) : ∃ prod : Production, prod.bits = p := by
  induction T with
  | eom => rw [List.mem_singleton.mp h]; exact ⟨.leafEom, rfl⟩
  | byte v => rw [List.mem_singleton.mp h]; exact ⟨.leafByte v, rfl⟩
  | branch l r ihl ihr =>
    rcases List.mem_cons.mp h with rfl | h
    · exact ⟨.branch, rfl⟩
    · exact (List.mem_append.mp h).elim ihl ihr

/-- Settles O25: the descent to the node whose production is not whole, which reads up to the end of IN. -/
theorem desTreeTruncated : Obligations.DesTreeTruncated := by
  intro s T more hs hmore hdepth hsize
  obtain ⟨k, p, q, r, hk, hbits, hqr, hr⟩ :=
    exists_split_piece (productions T) (hs.trans (productions_flatten T).symm) hmore
  have hklt : k < (productions T).length := (List.getElem?_eq_some_iff.mp hk).1
  obtain ⟨prod, rfl⟩ := production_of_mem (List.mem_of_getElem? hk)
  rw [length_productions] at hklt
  obtain ⟨way, hnodes, hway, hlen, hfits⟩ := exists_descent T 0 k (by omega) hklt
  obtain ⟨t, parent, ht, hcount, -, herr⟩ := desTree_descent (s := s) (levels := 256 - way.length + 1) (rest := q)
    (by rw [hway, hbits]) hfits (by omega) (by omega)
  obtain ⟨u, hraise, hend, heos⟩ := desNode_truncated (256 - way.length) parent (s := t) (by omega)
    (by rw [ht, hqr]) hr
  obtain ⟨v, ⟨hexec, htaken, hframe⟩, hv, hphase⟩ := herr _ u hraise
  rw [hcount, hnodes] at hframe
  rw [← hv] at hend
  rw [← hphase] at heos
  have hbuf : v.inBuf = [] := by rwa [pendingBits, heos] at hend
  obtain ⟨-, hpos, -⟩ := htaken.takes (bs := pendingBits s) (by rw [hend, List.append_nil])
  refine ⟨v, k, hexec, hend, hpos, by rw [hbits]; simp, ?_, by rwa [hbuf, heos] at hframe⟩
  have hrlen := List.length_pos_iff.mpr hr
  rw [List.take_add_one, hk, hbits]
  simp [← hqr]
  omega

/-- Settles O26: the descent to the node past the last entry, and the descent below depth 256. -/
theorem desTreeBounds : Obligations.DesTreeBounds := by
  refine fun s rest => ⟨fun T hs hdepth hsize => ?_, fun way hs hlen hfits hroom => ?_⟩
  · obtain ⟨way, hnodes, hway, hlen, hfits⟩ := exists_descent T 0 1024 (by omega) hsize
    have hs' : pendingBits s = descentBits way ++ (((productions T).drop 1024).flatten ++ rest) := by
      rw [hway, ← List.append_assoc, ← List.flatten_append, List.take_append_drop, productions_flatten, hs]
    obtain ⟨t, parent, ht, hcount, -, herr⟩ := desTree_descent (levels := 256 - way.length + 1) hs' hfits (by omega)
      (by omega)
    have hfull : t.nodeCount = 1024#11 := BitVec.eq_of_toNat_eq (hcount.trans hnodes)
    obtain ⟨v, ⟨hexec, htaken, hframe⟩, hv, -⟩ := herr _ t (desNode_full _ _ hfull)
    rw [hway, ← ht, ← hv] at hs'
    obtain ⟨-, hpos, hbuf⟩ := htaken.takes hs'
    exact ⟨v, hexec, hs', hbuf, by rwa [hpos] at hframe⟩
  · obtain ⟨t, parent, ht, hcount, hparent, herr⟩ := desTree_descent (levels := 0) hs hfits hlen hroom
    have hne : way ≠ [] := by rintro rfl; cases hlen
    obtain ⟨v, ⟨hexec, htaken, hframe⟩, hv, -⟩ := herr _ t rfl
    rw [← ht, ← hv] at hs
    obtain ⟨-, hpos, hbuf⟩ := htaken.takes hs
    have hlast : descentNodes (way.take 256) < 1024 := by
      have hsplit := descentNodes_append (way.take 256) (way.drop 256)
      have hdrop := length_le_descentNodes (way.drop 256)
      rw [List.take_append_drop] at hsplit
      rw [List.length_drop] at hdrop
      omega
    rw [hparent hne, List.dropLast_eq_take, hlen, setWidth_index hlast] at hframe
    exact ⟨v, hexec, hv.trans ht, hbuf, by rwa [hpos] at hframe⟩

/-- Settles O27: what DES_TREE read was the description of the tree it leaves at ROOT. -/
theorem serTreeAfterDesTreeWritesTheBitsRead : Obligations.SerTreeAfterDesTreeWritesTheBitsRead := by
  intro s t _ hexec hnoerr
  cases hdes : desNode (Config.maxDepth + 1) 0#10 (desStart s) with
  | error e u =>
    obtain ⟨v, ⟨hexec', -, hframe⟩, -⟩ := desTree_raises hdes
    rw [hexec] at hexec'
    cases hexec'
    rw [hframe] at hnoerr
    cases hnoerr
  | ok x u =>
    obtain ⟨T, hs, hdepth, hsize⟩ := desNode_ok _ hdes (Nat.zero_le _)
    rw [exec_desTree_ok hdes] at hexec
    cases hexec
    refine ⟨desc T, hs, fun v hnode hroot hout => ?_⟩
    obtain ⟨t, hexec, -, -, -, hholds, -⟩ :=
      desTreeLoadsTheTree s T _ hs (Nat.le_of_lt_succ hdepth) (by simpa using hsize)
    rw [exec_desTree_ok hdes] at hexec
    cases hexec
    have hser := serTreeBody_holds (s := v) (by rw [hnode, hroot]; exact hholds) (Nat.le_of_lt_succ hdepth)
    obtain ⟨hbits, -⟩ := writeSeq_spec (desc T) hout
    have hframe := writeSeq_sameButOut (desc T) v
    unfold SameButOut at hframe
    exact ⟨_, runCommand_ok hser, by rw [hframe]; rfl, hbits⟩

end Sys2Proof.Machine
end

section
/-! SUPPORT. What each command and each production may change (40_tree_codec.md rules R120 and R121, 41_encoder.md rules
R140 to R144, 42_decoder.md rules R160 and R161). -/

namespace Sys2Proof.Machine

/-! ### The relations -/

/-- Nothing but what ENC_STREAM writes differs: the table, TABLE_VALID and both cursors with their ports. -/
def SameButEnc (s t : State) : Prop :=
  t = { s with
    tbl := t.tbl, tableValid := t.tableValid, inBuf := t.inBuf, inBitpos := t.inBitpos, inQ := t.inQ,
    inPhase := t.inPhase, outAcc := t.outAcc, outBitpos := t.outBitpos, outEv := t.outEv, portLog := t.portLog }

/-- Nothing but what DEC_STREAM writes differs: the tree, the table, the decode registers and both cursors with their
ports. -/
def SameButStream (s t : State) : Prop :=
  t = { s with
    node := t.node, nodeCount := t.nodeCount, root := t.root, tbl := t.tbl, tableValid := t.tableValid
    eomSeen := t.eomSeen, result := t.result, decNode := t.decNode, inBuf := t.inBuf, inBitpos := t.inBitpos
    inQ := t.inQ, inPhase := t.inPhase, outAcc := t.outAcc, outBitpos := t.outBitpos, outEv := t.outEv
    portLog := t.portLog }

/-- Nothing but what a production writes before it is settled differs: the nodes, the traversal stack and the IN cursor.
-/
def SameButTdes (s t : State) : Prop :=
  t = { s with
    node := t.node, nodeCount := t.nodeCount, desStack := t.desStack, inBuf := t.inBuf, inBitpos := t.inBitpos
    inQ := t.inQ, inPhase := t.inPhase, portLog := t.portLog }

theorem frameEnc : Frame SameButEnc where
  refl _ := rfl
  trans h₁ h₂ := by unfold SameButEnc at *; rw [h₂, h₁]

theorem frameStream : Frame SameButStream where
  refl _ := rfl
  trans h₁ h₂ := by unfold SameButStream at *; rw [h₂, h₁]

theorem frameTdes : Frame SameButTdes where
  refl _ := rfl
  trans h₁ h₂ := by unfold SameButTdes at *; rw [h₂, h₁]

theorem SameButPorts.enc {s t : State} (h : SameButPorts s t) : SameButEnc s t := by
  unfold SameButPorts SameButEnc at *; rw [h]

theorem SameButTable.enc {s t : State} (h : SameButTable s t) : SameButEnc s t := by
  unfold SameButTable SameButEnc at *; rw [h]

theorem SameButEnc.stream {s t : State} (h : SameButEnc s t) : SameButStream s t := by
  unfold SameButEnc SameButStream at *; rw [h]

theorem SameButDec.stream {s t : State} (h : SameButDec s t) : SameButStream s t := by
  unfold SameButDec SameButStream at *; rw [h]

theorem SameButLoad.stream {s t : State} (h : SameButLoad s t) : SameButStream s t := by
  unfold SameButLoad SameButStream at *; rw [h]

theorem SameButDes.tdes {s t : State} (h : SameButDes s t) : SameButTdes s t := by
  unfold SameButDes SameButTdes at *; rw [h]

/-! ### The bodies -/

/-- SER_TREE, ENC_SYM, ENC_EOM and ENC_PAD change the OUT cursor and its port only. -/
theorem writers_sameButOut {i : Instr}
    (h : i = .serTree ∨ (∃ b, i = .encSym b) ∨ i = .encEom ∨ i = .encPad) : Changes SameButOut (instrBody i) := by
  rcases h with rfl | ⟨b, rfl⟩ | rfl | rfl
  · exact fun s => serNode_changes _ _ _ s
  · exact encSymBody_changes _
  · exact encSymBody_changes _
  · exact Changes.update fun s => (padOut_sameButOut 8 s).trans rfl

/-- DEC_SYM changes RESULT, DEC_NODE, EOM_SEEN and the IN cursor only. -/
theorem decSymBody_changes : Changes SameButDec decSymBody :=
  Changes.bind frameDec decWalk_changes fun _ => Changes.pure frameDec _

/-- After what DES_TREE does before it reads, only the nodes and the IN cursor change. -/
theorem desTreeBody_sameButDes (s : State) : SameButDes (desStart s) (endState (desTreeBody s)) :=
  Changes.withCleanup (c := desCleanup) frameDes (desNode_changes _ _) (fun _ => rfl) (desStart s)

theorem encStreamBody_changes : Changes SameButEnc encStreamBody := by
  have hout {x : Act Unit} (hx : Changes SameButOut x) : Changes SameButEnc x :=
    hx.mono fun _ _ h => h.ports.enc
  have haligned : Changes SameButEnc requireAligned := by
    refine Changes.withState fun s => ?_
    split
    · exact Changes.raise frameEnc _ _
    · exact Changes.pure frameEnc _
  exact Changes.bind frameEnc haligned fun _ =>
    Changes.bind frameEnc (buildTableBody_changes.mono fun _ _ => SameButTable.enc) fun _ =>
    Changes.bind frameEnc (hout (writers_sameButOut (.inl rfl))) fun _ =>
    Changes.bind frameEnc (Changes.withState fun _ => (encLoop_changes _).mono fun _ _ => SameButPorts.enc) fun _ =>
    Changes.bind frameEnc (hout (encSymBody_changes _)) fun _ =>
      hout (writers_sameButOut (.inr (.inr (.inr rfl))))

/-- What the commands do but for CLR_ERR and SOFT_RESET stays within what DEC_STREAM may change. -/
theorem admits_sameButStream : Admits SameButStream where
  toFrame := frameStream
  read := readBit_changes.mono fun _ _ h => h.ports.enc.stream
  write b s := (writeBit_sameButOut b s).ports.enc.stream
  flush _ := rfl
  result _ := rfl
  decNode _ _ := rfl
  arrive n d sym s := (arrive_sameButDec n d sym s).stream
  build := buildTableBody_changes.mono fun _ _ h => h.enc.stream
  des := desTreeBody_changes.mono fun _ _ => SameButLoad.stream

theorem admitsTdes_sameButTdes : AdmitsTdes SameButTdes where
  toFrame := frameTdes
  read := readBit_changes.mono fun _ _ h => h.des.tdes
  alloc := allocNode_changes.mono fun _ _ => SameButDes.tdes
  setNode _ _ _ := rfl
  setRight i s := (setRight_sameButDes i s).tdes
  stack _ _ := rfl

/-! ### The instructions -/

/-- A command ends where its body ends, but for `cur` and the error record. -/
theorem exec_command_endState {i : Instr} {op : BitVec 4} (hi : opcode i = some op) {s t : State}
    (h : exec i s = .next t) : t = { endState (instrBody i s) with cur := none, err := t.err } := by
  rw [exec_command hi] at h
  cases h
  rcases settle_cases op (instrBody i s) with ht | ⟨e, ht⟩ <;> (rw [ht]; rfl)

/-- A production ends where its body ends, but for `cur`, the error record, the nodes and the traversal stack. -/
theorem exec_production_endState {i : Instr} (hi : opcode i = none) {s t : State} (h : exec i s = .next t) :
    t = { endState (instrBody i s) with
      cur := t.cur, err := t.err, node := t.node, nodeCount := t.nodeCount, desStack := t.desStack } := by
  rw [exec_production hi] at h
  cases h
  rcases settleProduction_cases (instrBody i s) with ht | ⟨op, e, ht⟩
  · rw [ht]
  · rw [ht]; rfl

/-- Settles O47: each body stays within its relation, and completion touches only `cur` and the error record. -/
theorem framesOfCommands : Obligations.FramesOfCommands := by
  intro i s t h
  refine ⟨?_, ?_, ?_, ?_, ?_, ?_, ?_⟩
  · intro hi
    have hframe := writers_sameButOut hi s
    unfold SameButOut at hframe
    obtain ⟨op, hop⟩ : ∃ op, opcode i = some op := by
      rcases hi with rfl | ⟨b, rfl⟩ | rfl | rfl <;> exact ⟨_, rfl⟩
    rw [exec_command_endState hop h, hframe]
  · rintro rfl
    have hframe := buildTableBody_changes s
    unfold SameButTable at hframe
    rw [exec_command_endState rfl h, instrBody, hframe]
  · rintro rfl
    have hframe := decSymBody_changes s
    unfold SameButDec at hframe
    rw [exec_command_endState rfl h, instrBody, hframe]
  · rintro rfl
    have hframe := desTreeBody_sameButDes s
    unfold SameButDes at hframe
    rw [exec_command_endState rfl h, instrBody, hframe]
    rfl
  · rintro rfl
    have hframe := encStreamBody_changes s
    unfold SameButEnc at hframe
    rw [exec_command_endState rfl h, instrBody, hframe]
  · rintro rfl
    have hframe := admits_sameButStream.command (i := .decStream) rfl (by simp) (by simp) s
    unfold SameButStream at hframe
    rw [exec_command_endState rfl h, hframe]
  · intro hi
    have hop : opcode i = none := by
      rcases hi with rfl | ⟨v, rfl⟩ | rfl <;> rfl
    have hframe := admitsTdes_sameButTdes.production (.inl ⟨i, hop, rfl⟩) s
    unfold SameButTdes at hframe
    rw [exec_production_endState hop h, hframe]

end Sys2Proof.Machine
end

section
/-! SUPPORT. What the encoder's short commands write: bit sequences appended to OUT, a codeword, and the padding before
a flush (41_encoder.md rules R141 to R143). -/

namespace Sys2Proof.Machine

/-! ### Writing bits -/

/-- These bits were appended to OUT and counted, and the bytes they filled were sent (R64, R67). -/
def Writes (bs : List Bool) (s t : State) : Prop :=
  outBits t = outBits s ++ bs ∧ t.outAcc.length = (s.outAcc.length + bs.length) % 8 ∧
    t.outBitpos = s.outBitpos + BitVec.ofNat 32 bs.length ∧ SendsBytes s t

theorem Writes.trans {as bs : List Bool} {s t u : State} (h₁ : Writes as s t) (h₂ : Writes bs t u) :
    Writes (as ++ bs) s u := by
  obtain ⟨hbits₁, hacc₁, hpos₁, hsent₁⟩ := h₁
  obtain ⟨hbits₂, hacc₂, hpos₂, hsent₂⟩ := h₂
  refine ⟨by rw [hbits₂, hbits₁, List.append_assoc], ?_, ?_, frameSendsBytes.trans hsent₁ hsent₂⟩
  · rw [hacc₂, hacc₁, Nat.mod_add_mod, List.length_append, Nat.add_assoc]
  · rw [hpos₂, hpos₁, BitVec.add_assoc, ← BitVec.ofNat_add, List.length_append]

/-- Where the OUT cursor and its port are the same, no bit was written. -/
theorem Writes.none {s t : State} (hout : s.outAcc.length ≤ 7) (hacc : t.outAcc = s.outAcc)
    (hpos : t.outBitpos = s.outBitpos) (hev : t.outEv = s.outEv) : Writes [] s t :=
  ⟨by simp [outBits, hacc, hev], by rw [hacc, List.length_nil]; omega, by simp [hpos], [], by simp [hev]⟩

/-- After any bits are written at most seven are held (R52). -/
theorem Writes.held {bs : List Bool} {s t : State} (h : Writes bs s t) : t.outAcc.length ≤ 7 := by
  obtain ⟨-, hacc, -, -⟩ := h
  omega

theorem writeSeq_writes (bs : List Bool) {s : State} (hout : s.outAcc.length ≤ 7) : Writes bs s (writeSeq bs s) := by
  obtain ⟨hbits, hacc, hpos, -⟩ := writeSeq_spec bs hout
  exact ⟨hbits, hacc, hpos, writeSeq_sendsBytes bs s⟩

/-- Between two aligned states the bits written are those of the bytes sent. -/
theorem Writes.sent {bs : List Bool} {s t : State} (h : Writes bs s t) (hs : s.outAcc = []) (ht : t.outAcc = []) :
    ∃ sent : List Byte, t.outEv = s.outEv ++ sent.map OutEvent.byte ∧ bytesBits sent = bs := by
  obtain ⟨hbits, -, -, sent, hev⟩ := h
  have hbytes : outBytes (sent.map OutEvent.byte) = sent := by simp [outBytes, List.filterMap_map]
  refine ⟨sent, hev, ?_⟩
  simpa [outBits, hs, ht, hev, hbytes] using hbits

/-! ### ENC_SYM and ENC_EOM -/

/-- The symbol of a byte is the byte (R93). -/
@[simp] theorem symOfByte_toNat (b : Byte) : (symOfByte b).toNat = b.toNat := by
  rw [symOfByte, BitVec.toNat_setWidth]
  exact Nat.mod_eq_of_lt (by omega)

/-- VALUE of a LOOKUP at a byte is the byte (R200). -/
@[simp] theorem setWidth_symOfByte (b : Byte) : (symOfByte b).setWidth 28 = b.setWidth 28 := by
  apply BitVec.eq_of_toNat_eq
  simp

section

variable {s : State} {sym : Sym}

/-- Without a table no symbol is encoded (R141). -/
theorem encSymBody_noTable (h : s.tableValid = false) :
    encSymBody sym s = .error { code := .noTable, value := 0#28 } s := by
  simp [encSymBody, h]

/-- A symbol without an entry is not encoded (R141). -/
theorem encSymBody_lookup (hvalid : s.tableValid = true) (hnone : s.tbl.get sym.toNat = none) :
    encSymBody sym s = .error { code := .lookup, value := sym.setWidth 28 } s := by
  simp [encSymBody, hvalid, hnone]

/-- A symbol with an entry is encoded as its codeword (R141). -/
theorem encSymBody_codeword {cw : List Bool} (hvalid : s.tableValid = true) (hcw : s.tbl.get sym.toNat = some cw) :
    encSymBody sym s = .ok () (writeSeq cw s) := by
  simp [encSymBody, hvalid, hcw]

end

/-- Settles O35: both checks of `EncSym` come before its first bit. -/
theorem encSymAndEncEomErrors : Obligations.EncSymAndEncEomErrors := by
  refine fun s b => ⟨fun hvalid => ⟨?_, ?_⟩, fun hvalid hnone => ?_⟩
  · exact runCommand_error (encSymBody_noTable hvalid)
  · exact runCommand_error (encSymBody_noTable hvalid)
  · have hlookup := encSymBody_lookup (sym := symOfByte b) hvalid (by rwa [symOfByte_toNat])
    rw [setWidth_symOfByte] at hlookup
    exact runCommand_error hlookup

/-- Settles O34: the codeword in the table is written bit by bit. -/
theorem encSymAndEncEomWriteTheCodeword : Obligations.EncSymAndEncEomWriteTheCodeword := by
  intro s i k cw hi hout hvalid hcw
  have hexec : exec i s = .next (complete (writeSeq cw s)) := by
    rcases hi with ⟨b, rfl, rfl⟩ | ⟨rfl, rfl⟩
    · exact runCommand_ok (encSymBody_codeword hvalid (by rwa [symOfByte_toNat]))
    · exact runCommand_ok (encSymBody_codeword hvalid hcw)
  obtain ⟨hbits, hacc, hpos, hsent⟩ := writeSeq_writes cw hout
  have hframe := writeSeq_sameButOut cw s
  unfold SameButOut at hframe
  exact ⟨_, hexec, hbits, hacc, hsent, by rw [← hpos, complete, hframe]⟩

/-! ### ENC_PAD -/

/-- Padding goes on by one bit while a byte is incomplete (R143). -/
theorem padding_succ {n : Nat} (h : n % 8 ≠ 0) : padding n = false :: padding ((n + 1) % 8) := by
  rw [padding, padding, ← List.replicate_succ]
  congr 1
  omega

/-- The padding loop writes the padding of the bits held, when its bound allows for it (R143, log 15). -/
theorem padOut_eq (fuel : Nat) : ∀ s : State, s.outAcc.length ≤ 7 → (padding s.outAcc.length).length ≤ fuel →
    padOut fuel s = writeSeq (padding s.outAcc.length) s := by
  induction fuel with
  | zero =>
    intro s _ hfuel
    rw [List.length_eq_zero_iff.mp (Nat.le_zero.mp hfuel)]
    rfl
  | succ fuel ih =>
    intro s hout hfuel
    by_cases halign : s.outAcc = []
    · simp [padOut, halign, padding]
    · have hpos : s.outAcc.length % 8 ≠ 0 := by
        have := List.length_pos_iff.mpr halign
        omega
      obtain ⟨-, hacc, -, -⟩ := writeBit_spec false hout
      rw [padding_succ hpos, List.length_cons] at hfuel
      rw [padOut, if_neg halign, ih _ (by omega) (by rw [hacc]; omega), padding_succ hpos, hacc]
      rfl

@[simp] theorem outBits_flush (s : State) : outBits (flush s) = outBits s := by simp [outBits, outBytes]

/-- ENC_PAD writes the padding, which aligns OUT, and then flushes (R143). -/
theorem encPadBody_writes {s : State} (hout : s.outAcc.length ≤ 7) :
    ∃ t, encPadBody s = .ok () (flush t) ∧ Writes (padding s.outAcc.length) s t ∧ t.outAcc = [] ∧ SameButOut s t := by
  have hlen : (padding s.outAcc.length).length = (8 - s.outAcc.length % 8) % 8 := List.length_replicate
  have hwrites := writeSeq_writes (padding s.outAcc.length) hout
  refine ⟨_, ?_, hwrites, ?_, writeSeq_sameButOut _ s⟩
  · rw [encPadBody, update_apply, padOut_eq 8 s hout (by omega)]
  · obtain ⟨-, hacc, -, -⟩ := hwrites
    exact List.length_eq_zero_iff.mp (by omega)

/-- Settles O36: the loop writes the padding of the bits held, and the flush follows the last byte. -/
theorem encPadAlignsAndFlushes : Obligations.EncPadAlignsAndFlushes := by
  intro s hout
  obtain ⟨t, hbody, ⟨hbits, -, hpos, bytes, hev⟩, hacc, hframe⟩ := encPadBody_writes hout
  unfold SameButOut at hframe
  refine ⟨_, runCommand_ok hbody, hacc, (outBits_flush t).trans hbits, hpos, ?_, ?_, ?_⟩
  · simp
  · simp [hev, List.filter_map, Function.comp_def]
  · rw [← hacc, complete, flush, hframe]

end Sys2Proof.Machine
end

section
/-! SUPPORT. Trees and BUILD_TABLE: the codewords of a tree (00_scope.md rules R10 to R12), and that the table builder
ends well exactly on a valid tree and then lists them (41_encoder.md rules R140 and R145). -/

namespace Sys2Proof.Machine

/-! ### The codewords of a tree -/

/-- The end-of-message leaves are those whose symbol is end of message: no byte has it (R9). -/
theorem count_eom_codewords (T : Tree) : (T.codewords.map (·.1)).count Config.eom = T.eomLeaves := by
  induction T with
  | eom => rfl
  | byte v =>
    refine List.count_eq_zero_of_not_mem fun h => ?_
    have heq : Config.eom.toNat = (symOfByte v).toNat := congrArg BitVec.toNat (List.mem_singleton.mp h)
    rw [symOfByte_toNat, show Config.eom.toNat = 256 from rfl] at heq
    omega
  | branch l r ihl ihr =>
    simp only [Tree.codewords, Tree.eomLeaves, List.map_append, List.map_map, Function.comp_def, List.count_append, ihl,
      ihr]

/-- A tree is valid when no two of its leaves share a symbol and one of them is end of message (R10). -/
theorem valid_iff (T : Tree) :
    T.valid = true ↔ (T.codewords.map (·.1)).Nodup ∧ Config.eom ∈ T.codewords.map (·.1) := by
  simp only [Tree.valid, Bool.and_eq_true, decide_eq_true_eq, ← count_eom_codewords]
  constructor
  · rintro ⟨heom, hnodup⟩
    exact ⟨hnodup, List.count_pos_iff.mp (by omega)⟩
  · rintro ⟨hnodup, hmem⟩
    exact ⟨List.count_eq_one_of_mem hnodup hmem, hnodup⟩

/-- Distinct leaves have paths of which none begins the other (R11, R145). -/
theorem codewords_prefixFree (T : Tree) : ∀ {e e' : Sym × List Bool}, e ∈ T.codewords → e' ∈ T.codewords →
    e.2 <+: e'.2 → e = e' := by
  induction T with
  | eom => intro e e' h h' _; rw [List.mem_singleton.mp h, List.mem_singleton.mp h']
  | byte v => intro e e' h h' _; rw [List.mem_singleton.mp h, List.mem_singleton.mp h']
  | branch l r ihl ihr =>
    intro e e' h h' hp
    simp only [Tree.codewords, List.mem_append, List.mem_map] at h h'
    obtain ⟨f, hf, rfl⟩ | ⟨f, hf, rfl⟩ := h <;> obtain ⟨f', hf', rfl⟩ | ⟨f', hf', rfl⟩ := h' <;>
      simp only [List.cons_prefix_cons] at hp
    · rw [ihl hf hf' hp.2]
    · exact absurd hp.1 (by decide)
    · exact absurd hp.1 (by decide)
    · rw [ihr hf hf' hp.2]

/-! ### The leaves as BUILD_TABLE enters them -/

/-- A list that holds something twice has a first member that came before. -/
theorem exists_first_repeat {α : Type} {l : List α} (h : ¬ l.Nodup) :
    ∃ (earlier later : List α) (a : α), l = earlier ++ a :: later ∧ earlier.Nodup ∧ a ∈ earlier := by
  induction l using List.reverseRecOn with
  | nil => exact absurd List.nodup_nil h
  | append_singleton l a ih =>
    by_cases hl : l.Nodup
    · refine ⟨l, [], a, rfl, hl, ?_⟩
      by_contra hmem
      exact h (List.nodup_append.mpr ⟨hl, List.nodup_singleton a, fun b hb c hc heq =>
        hmem (by rwa [← List.mem_singleton.mp hc, ← heq])⟩)
    · obtain ⟨earlier, later, b, rfl, hnodup, hmem⟩ := ih hl
      exact ⟨earlier, later ++ [a], b, by simp, hnodup, hmem⟩

/-- A symbol that has an entry is refused (R140). -/
theorem tblLeaf_repeat {s : State} {sym : Sym} (path : List Bool) (h : s.tbl.get sym.toNat ≠ none) :
    tblLeaf sym path s = .error { code := .treeInvalid, value := sym.setWidth 28 } s := by
  obtain ⟨cw, hcw⟩ := Option.ne_none_iff_exists'.mp h
  simp only [tblLeaf, hcw, raise_apply]

/-- Leaves that were all entered: the first one's symbol had no entry, and the others were entered after it. -/
theorem tblLeaves_cons_ok {e : Sym × List Bool} {leaves : List (Sym × List Bool)} {s t : State}
    (h : tblLeaves (e :: leaves) s = .ok () t) :
    s.tbl.get e.1.toNat = none ∧ tblLeaves leaves (setCodeword e.1 e.2 s) = .ok () t := by
  rw [tblLeaves, bind_apply] at h
  cases hfree : s.tbl.get e.1.toNat with
  | none => exact ⟨rfl, by simpa only [tblLeaf, hfree] using h⟩
  | some cw => rw [tblLeaf_repeat e.2 (by simp [hfree])] at h; cases h

/-- Leaves that were all entered: an entry is an old one or that of the first leaf of its symbol (R140). -/
theorem tblLeaves_get (leaves : List (Sym × List Bool)) : ∀ {s t : State}, tblLeaves leaves s = .ok () t → ∀ k : Nat,
    t.tbl.get k = (s.tbl.get k).or ((leaves.find? (fun e => e.1.toNat == k)).map (·.2)) := by
  induction leaves with
  | nil => intro s t h k; cases h; simp
  | cons e leaves ih =>
    intro s t h k
    obtain ⟨hfree, hrest⟩ := tblLeaves_cons_ok h
    rw [ih hrest k, setCodeword, Memory.get_put]
    by_cases hk : e.1.toNat = k
    · subst hk
      simp [hfree]
    · simp [hk]

/-- Leaves that were all entered had different symbols, none of which had an entry (R140). -/
theorem tblLeaves_nodup (leaves : List (Sym × List Bool)) : ∀ {s t : State}, tblLeaves leaves s = .ok () t →
    (leaves.map (·.1)).Nodup ∧ ∀ y ∈ leaves.map (·.1), s.tbl.get y.toNat = none := by
  induction leaves with
  | nil => intro s t _; simp
  | cons e leaves ih =>
    intro s t h
    obtain ⟨hfree, hrest⟩ := tblLeaves_cons_ok h
    obtain ⟨hnodup, hfresh⟩ := ih hrest
    have hafter : ∀ y ∈ leaves.map (·.1), e.1.toNat ≠ y.toNat ∧ s.tbl.get y.toNat = none := by
      intro y hy
      have := hfresh y hy
      rw [setCodeword, Memory.get_put] at this
      split at this
      · cases this
      · exact ⟨‹_›, this⟩
    rw [List.map_cons, List.nodup_cons, List.forall_mem_cons]
    exact ⟨⟨fun hmem => (hafter e.1 hmem).1 rfl, hnodup⟩, hfree, fun y hy => (hafter y hy).2⟩

/-- The first leaf whose symbol came before is refused (R140). -/
theorem tblLeaves_repeat {leaves : List (Sym × List Bool)} {earlier later : List Sym} {y : Sym} {s : State}
    (hsyms : leaves.map (·.1) = earlier ++ y :: later) (hnodup : earlier.Nodup) (hmem : y ∈ earlier) (hs : s.tbl = []) :
    ∃ t, tblLeaves leaves s = .error { code := .treeInvalid, value := y.setWidth 28 } t := by
  obtain ⟨as, rest, rfl, has, hrest⟩ := List.map_eq_append_iff.mp hsyms
  obtain ⟨e, bs, rfl, rfl, -⟩ := List.map_eq_cons_iff.mp hrest
  subst has
  obtain ⟨t, ht⟩ := tblLeaves_fresh as s hnodup fun _ _ => by rw [hs]; rfl
  have hentry : t.tbl.get e.1.toNat ≠ none := by
    obtain ⟨f, hf, hfe⟩ := List.mem_map.mp hmem
    rw [tblLeaves_get as ht, hs]
    simp only [Memory.get_nil, Option.none_or, ne_eq, Option.map_eq_none_iff, List.find?_eq_none, not_forall]
    exact ⟨f, hf, by simp [hfe]⟩
  exact ⟨t, by simp only [tblLeaves_append, ht, tblLeaves, bind_apply, tblLeaf_repeat e.2 hentry]⟩

/-! ### BUILD_TABLE -/

/-- The code table is valid and lists the codewords of the tree (R145). -/
def TableFor (T : Tree) (s : State) : Prop := s.tableValid = true ∧ ∀ y : Sym, s.tbl.get y.toNat = T.codeword y

/-- BUILD_TABLE's walk of a tree at ROOT enters the tree's codewords (R140). -/
theorem buildWalk_holds {s : State} {T : Tree} (h : Holds s.node s.root T) (hdepth : T.depth ≤ 256) :
    tblNode (Config.maxDepth + 1) s.root 0#10 [] (invalidateTable s) = tblLeaves T.codewords (invalidateTable s) := by
  have hroot : Tree.codewordsAt [] T = T.codewords := by simp [Tree.codewordsAt]
  rw [tblNode_holds T (Config.maxDepth + 1) s.root 0#10 [] (invalidateTable s) h (Nat.lt_succ_of_le hdepth), hroot]

/-- The table that the leaves of a tree leave behind, by key. -/
theorem get_of_buildWalk {s u : State} {T : Tree} (h : tblLeaves T.codewords (invalidateTable s) = .ok () u) (k : Nat) :
    u.tbl.get k = (T.codewords.find? (fun e => e.1.toNat == k)).map (·.2) := by
  rw [tblLeaves_get T.codewords h k, invalidateTable_tbl, Memory.get_nil, Option.none_or]

/-- The same, by symbol. -/
theorem get_symbol_of_buildWalk {s u : State} {T : Tree} (h : tblLeaves T.codewords (invalidateTable s) = .ok () u)
    (y : Sym) : u.tbl.get y.toNat = T.codeword y := by
  have hkey (e : Sym × List Bool) : (e.1.toNat == y.toNat) = (e.1 == y) := by
    rw [Bool.eq_iff_iff, beq_iff_eq, beq_iff_eq, BitVec.toNat_inj]
  rw [get_of_buildWalk h, Tree.codeword]
  simp only [hkey]

/-- Whether a symbol has a leaf. -/
theorem isSome_codeword_iff (T : Tree) (y : Sym) : (T.codeword y).isSome = true ↔ y ∈ T.codewords.map (·.1) := by
  simp [Tree.codeword]

/-- BUILD_TABLE of a valid tree lists its codewords and changes nothing else (R140, R145). -/
theorem buildTableBody_valid {s : State} {T : Tree} (h : Holds s.node s.root T) (hdepth : T.depth ≤ 256)
    (hvalid : T.valid = true) :
    ∃ t, buildTableBody s = .ok () t ∧ TableFor T t ∧ t = { s with tbl := t.tbl, tableValid := true } := by
  obtain ⟨hnodup, heom⟩ := (valid_iff T).mp hvalid
  obtain ⟨u, hu⟩ := tblLeaves_fresh T.codewords (invalidateTable s) hnodup fun _ _ => rfl
  have htable := get_symbol_of_buildWalk hu
  have hbody := buildTableBody_ok ((buildWalk_holds h hdepth).trans hu)
    (by rw [show (256 : Nat) = Config.eom.toNat from rfl, htable]; exact (isSome_codeword_iff T _).mpr heom)
  have hframe := buildTableBody_changes s
  rw [hbody] at hframe
  exact ⟨_, hbody, ⟨rfl, htable⟩, hframe⟩

/-- Settles O31: the walk enters every leaf once, and end of message is among them. -/
theorem buildTableOfAValidTree : Obligations.BuildTableOfAValidTree := by
  intro s T hholds hdepth hvalid
  obtain ⟨t, hbody, ⟨htv, htable⟩, hframe⟩ := buildTableBody_valid hholds hdepth hvalid
  exact ⟨_, runCommand_ok hbody, htv, htable, by rw [complete, hframe]⟩

/-- BUILD_TABLE of a walk that met no end-of-message leaf (R140). -/
theorem buildTableBody_noEom {s u : State}
    (hwalk : tblNode (Config.maxDepth + 1) s.root 0#10 [] (invalidateTable s) = .ok () u)
    (heom : u.tbl.get Config.eom.toNat = none) :
    buildTableBody s = .error { code := .treeInvalid, value := 0x1FF#28 } (invalidateTable s) := by
  have hframe := tblNode_changes (Config.maxDepth + 1) s.root 0#10 [] (invalidateTable s)
  rw [hwalk] at hframe
  unfold SameButTbl at hframe
  have hclean : invalidateTable u = invalidateTable s := by rw [show u = _ from hframe]; rfl
  have hcheck : tblCheckEom u = .error { code := .treeInvalid, value := 0x1FF#28 } u := by
    simp only [tblCheckEom, heom, raise_apply]
  simp only [buildTableBody, bind_apply, update_apply, withCleanup_apply, withState_apply, invalidateTable_root, hwalk,
    hcheck, hclean]

/-- VALUE of the TREE_INVALID that BUILD_TABLE raises at a tree: only end of message is missing, or a symbol comes again
(R140). -/
def InvalidValue (T : Tree) (v : BitVec 28) : Prop :=
  ((T.codewords.map (·.1)).Nodup ∧ T.eomLeaves = 0 ∧ v = 0x1FF#28) ∨
    ∃ (earlier later : List Sym) (y : Sym), T.codewords.map (·.1) = earlier ++ y :: later ∧ earlier.Nodup ∧
      y ∈ earlier ∧ v = y.setWidth 28

/-- BUILD_TABLE of a tree that is not valid raises TREE_INVALID (R140). -/
theorem buildTableBody_invalid {s : State} {T : Tree} (h : Holds s.node s.root T) (hdepth : T.depth ≤ 256)
    (hinvalid : T.valid = false) :
    ∃ v, buildTableBody s = .error { code := .treeInvalid, value := v } (invalidateTable s) ∧ InvalidValue T v := by
  have hwalk := buildWalk_holds h hdepth
  by_cases hnodup : (T.codewords.map (·.1)).Nodup
  · have hnone : Config.eom ∉ T.codewords.map (·.1) := fun heom => by
      rw [(valid_iff T).mpr ⟨hnodup, heom⟩] at hinvalid
      cases hinvalid
    obtain ⟨u, hu⟩ := tblLeaves_fresh T.codewords (invalidateTable s) hnodup fun _ _ => rfl
    have heom : u.tbl.get Config.eom.toNat = none := by
      rw [get_symbol_of_buildWalk hu, ← Option.not_isSome_iff_eq_none, isSome_codeword_iff]
      exact hnone
    refine ⟨0x1FF#28, buildTableBody_noEom (hwalk.trans hu) heom, .inl ⟨hnodup, ?_, rfl⟩⟩
    rw [← count_eom_codewords, List.count_eq_zero_of_not_mem hnone]
  · obtain ⟨earlier, later, y, hsyms, hearlier, hmem⟩ := exists_first_repeat hnodup
    obtain ⟨u, hu⟩ := tblLeaves_repeat (s := invalidateTable s) hsyms hearlier hmem rfl
    exact ⟨_, buildTableBody_error (hwalk.trans hu), .inr ⟨earlier, later, y, hsyms, hearlier, hmem, rfl⟩⟩

/-- Settles O32: the walk stops at the first symbol that comes again, or ends without end of message. -/
theorem buildTableOfAnInvalidTree : Obligations.BuildTableOfAnInvalidTree := by
  intro s T hholds hdepth hinvalid
  obtain ⟨v, hbody, hv⟩ := buildTableBody_invalid hholds hdepth hinvalid
  exact ⟨v, runCommand_error hbody, fun hin hout => runCommand_error (encStreamBody_build_error hin hout hbody), hv⟩

/-! ### Whatever the node store holds -/

/-- The node check admits an entry of a kind the source has, and gives its fields (R119). -/
theorem visit_ok {n : Idx} {s t : State} {v : Visited} (h : visit n s = .ok v t) :
    t = s ∧ ∃ e, s.node.get n.toNat = some e ∧ match v with
      | .eom => e.kind = .eom
      | .byte b => e.kind = .byte ∧ e.byte = b
      | .branch l r => e.kind = .branch ∧ e.left = l ∧ e.right = r := by
  cases he : s.node.get n.toNat with
  | none => rw [visit_none he] at h; cases h
  | some e =>
    rw [visit_entry he] at h
    cases hk : e.kind <;> rw [hk] at h <;> cases h
    · exact ⟨rfl, e, rfl, hk⟩
    · exact ⟨rfl, e, rfl, hk, rfl⟩
    · exact ⟨rfl, e, rfl, hk, rfl, rfl⟩

/-- A walk of BUILD_TABLE that ends well was the walk of a tree (R140). -/
theorem holds_of_tblNode_ok (levels : Nat) : ∀ {n p : Idx} {path : List Bool} {s t : State},
    tblNode levels n p path s = .ok () t → ∃ T, Holds s.node n T ∧ T.depth < levels := by
  induction levels with
  | zero => intro n p path s t h; cases h
  | succ levels ih =>
    intro n p path s t h
    rw [tblNode, bind_apply] at h
    cases hv : visit n s with
    | error e u => rw [hv] at h; cases h
    | ok v u =>
      rw [hv] at h
      obtain ⟨rfl, e, he, hfields⟩ := visit_ok hv
      cases v with
      | eom => exact ⟨.eom, ⟨e, he, hfields⟩, Nat.succ_pos _⟩
      | byte b => exact ⟨.byte b, ⟨e, he, hfields⟩, Nat.succ_pos _⟩
      | branch l r =>
        obtain ⟨hk, rfl, rfl⟩ := hfields
        dsimp only at h
        rw [bind_apply] at h
        cases hl : tblNode levels e.left n (path ++ [false]) u with
        | error er w => rw [hl] at h; cases h
        | ok x w =>
          rw [hl] at h
          have hframe := tblNode_changes levels e.left n (path ++ [false]) u
          rw [hl] at hframe
          obtain ⟨L, hL, hdL⟩ := ih hl
          obtain ⟨R, hR, hdR⟩ := ih h
          rw [show w.node = u.node from (SameButTbl.tree hframe).1] at hR
          exact ⟨.branch L R, ⟨e, he, hk, hL, hR⟩, by simp only [Tree.depth]; omega⟩

/-- BUILD_TABLE ends well on a valid tree only, whose leaves it has entered (R140). -/
theorem buildTableBody_ok_holds {s t : State} (h : buildTableBody s = .ok () t) :
    ∃ T u, Holds s.node s.root T ∧ T.depth ≤ 256 ∧ T.valid = true ∧
      tblLeaves T.codewords (invalidateTable s) = .ok () u ∧ t.tbl = u.tbl := by
  obtain ⟨u, hwalk, heom, hbody⟩ := (buildTableBody_cases s).resolve_right (by rintro ⟨e, he⟩; rw [h] at he; cases he)
  rw [h] at hbody
  cases hbody
  obtain ⟨T, hholds, hdepth⟩ := holds_of_tblNode_ok (Config.maxDepth + 1) hwalk
  have hdepth : T.depth ≤ 256 := Nat.le_of_lt_succ hdepth
  have hleaves := (buildWalk_holds hholds hdepth).symm.trans hwalk
  rw [show (256 : Nat) = Config.eom.toNat from rfl, get_symbol_of_buildWalk hleaves, isSome_codeword_iff] at heom
  exact ⟨T, u, hholds, hdepth, (valid_iff T).mpr ⟨(tblLeaves_nodup _ hleaves).1, heom⟩, hleaves, rfl⟩

/-- A BUILD_TABLE that leaves TABLE_VALID set has ended well (R140). -/
theorem buildTableBody_ok_of_valid {s t : State} (h : exec .buildTable s = .next t) (hvalid : t.tableValid = true) :
    ∃ u, buildTableBody s = .ok () u ∧ t.tbl = u.tbl := by
  rw [exec_command rfl, instrBody] at h
  rcases buildTableBody_cases s with ⟨u, -, -, hbody⟩ | ⟨e, hbody⟩ <;> rw [hbody] at h <;> cases h
  · exact ⟨_, hbody, rfl⟩
  · cases hvalid

/-- Settles O33: a table that was built lists the paths of the leaves of a tree. -/
theorem builtTableIsPrefixFree : Obligations.BuiltTableIsPrefixFree := by
  intro s t h hvalid a b p q hne hp hq hprefix
  obtain ⟨u, hbody, htbl⟩ := buildTableBody_ok_of_valid h hvalid
  obtain ⟨T, w, -, -, -, hleaves, hwalk⟩ := buildTableBody_ok_holds hbody
  have hleaf {k : Nat} {path : List Bool} (hk : t.tbl.get k = some path) :
      ∃ e ∈ T.codewords, e.1.toNat = k ∧ e.2 = path := by
    rw [htbl, hwalk, get_of_buildWalk hleaves] at hk
    obtain ⟨e, hfind, rfl⟩ := Option.map_eq_some_iff.mp hk
    exact ⟨e, List.mem_of_find?_eq_some hfind, by simpa using List.find?_some hfind, rfl⟩
  obtain ⟨e, he, rfl, rfl⟩ := hleaf hp
  obtain ⟨e', he', rfl, rfl⟩ := hleaf hq
  exact hne (by rw [codewords_prefixFree T he he' hprefix])

end Sys2Proof.Machine
end

section
/-! SUPPORT. ENC_STREAM: how its input loop takes bytes and writes their codewords, and what the whole command writes
(30_encoding.md rules R100 and R102, 41_encoder.md rule R144). -/

namespace Sys2Proof.Machine

/-! ### Encoding with the table of a tree -/

theorem TableFor.same {T : Tree} {s t : State} (h : TableFor T s) (hs : SameStores s t) : TableFor T t := by
  obtain ⟨-, -, -, htbl, hvalid⟩ := hs
  unfold TableFor
  rw [htbl, hvalid]
  exact h

/-- A symbol with a leaf is encoded as the leaf's path (R141). -/
theorem TableFor.encSymBody_leaf {T : Tree} {s : State} {y : Sym} {cw : List Bool} (h : TableFor T s)
    (hcw : T.codeword y = some cw) : encSymBody y s = .ok () (writeSeq cw s) := by
  obtain ⟨hvalid, htable⟩ := h
  exact encSymBody_codeword hvalid ((htable y).trans hcw)

/-- A symbol without a leaf is refused (R141). -/
theorem TableFor.encSymBody_noLeaf {T : Tree} {s : State} {y : Sym} (h : TableFor T s) (hnone : T.codeword y = none) :
    encSymBody y s = .error { code := .lookup, value := y.setWidth 28 } s := by
  obtain ⟨hvalid, htable⟩ := h
  exact encSymBody_lookup hvalid ((htable y).trans hnone)

/-- The codewords of a sequence with a first byte. -/
theorem codewordsOf_cons {T : Tree} {v : Byte} {bs : List Byte} {bits : List Bool}
    (h : codewordsOf T (v :: bs) = some bits) :
    ∃ cw rest, T.codeword (symOfByte v) = some cw ∧ codewordsOf T bs = some rest ∧ bits = cw ++ rest := by
  rw [codewordsOf] at h
  split at h
  · cases h; exact ⟨_, _, ‹_›, ‹_›, rfl⟩
  · cases h

/-! ### Reading a byte -/

theorem readBit_takes {s : State} {b : Bool} {rest : List Bool} (h : pendingBits s = b :: rest) :
    ∃ t, readBit s = .ok (some b) t ∧ pendingBits t = rest ∧ Takes [b] s t ∧ SameButIn s t := by
  obtain ⟨t, hread, hrest, hpos, hframe⟩ := readBit_pending h
  exact ⟨t, hread, hrest, ⟨by rw [h, hrest]; rfl, hpos, readBit_inBuf hread⟩, hframe⟩

theorem readBits_takes {s : State} (bs : List Bool) {rest : List Bool} (h : pendingBits s = bs ++ rest) :
    ∃ t, readBits bs.length s = .ok (some (bitsNat 0 bs)) t ∧ Takes bs s t ∧ SameButIn s t := by
  obtain ⟨t, hread, hrest, -, hframe⟩ := readBitsFrom_pending bs 0 s rest h
  have htaken := readBitsFrom_within frameConsumes readBit_consumes bs.length 0 s
  rw [hread] at htaken
  exact ⟨t, hread, htaken.takes (by rw [h, ← hrest]; rfl), hframe⟩

/-- A round of the input loop takes one byte and encodes it (R144). -/
theorem encLoop_byte {s : State} {v : Byte} {rest : List Bool} (h : pendingBits s = byteBits v ++ rest) :
    ∃ t, Takes (byteBits v) s t ∧ SameButIn s t ∧
      ∀ fuel, encLoop (fuel + 1) s = (do encSymBody (symOfByte v); encLoop fuel) t := by
  obtain ⟨b, bs, hv⟩ : ∃ b bs, byteBits v = b :: bs := ⟨_, _, rfl⟩
  have hlen : bs.length = 7 := by simpa [hv] using length_byteBits v
  obtain ⟨t, hbit, ht, htakes, hst⟩ := readBit_takes (s := s) (b := b) (rest := bs ++ rest) (by rw [h, hv]; rfl)
  obtain ⟨u, hbits, htakes', htu⟩ := readBits_takes bs ht
  have hbyte : BitVec.ofNat 8 (128 * b.toNat + bitsNat 0 bs) = v := by
    rw [← bitsByte_byteBits v, hv, bitsByte, bitsNat, bitsNat_acc (2 * 0 + b.toNat), hlen]
    congr 1
    omega
  rw [hlen] at hbits
  refine ⟨u, by rw [hv]; exact htakes.trans htakes', hst.trans htu, fun fuel => ?_⟩
  simp only [encLoop, bind_apply, hbit, hbits, hbyte]

/-- At the end of IN the input loop ends (R144). -/
theorem encLoop_end {s : State} (h : pendingBits s = []) (fuel : Nat) :
    encLoop (fuel + 1) s = .ok () { s with inPhase := .eos } := by
  simp only [encLoop, bind_apply, readBit_eos h, pure_apply]

/-! ### Both cursors -/

/-- The IN cursor and its port are the same. -/
def SameIn (s t : State) : Prop :=
  t.inBuf = s.inBuf ∧ t.inBitpos = s.inBitpos ∧ t.inQ = s.inQ ∧ t.inPhase = s.inPhase

theorem SameIn.of_eq {s t u : State} (h : t = u) (hu : SameIn s u) : SameIn s t := h ▸ hu

theorem SameIn.trans {s t u : State} (h₁ : SameIn s t) (h₂ : SameIn t u) : SameIn s u := by
  obtain ⟨hbuf₁, hpos₁, hq₁, hphase₁⟩ := h₁
  obtain ⟨hbuf₂, hpos₂, hq₂, hphase₂⟩ := h₂
  exact ⟨hbuf₂.trans hbuf₁, hpos₂.trans hpos₁, hq₂.trans hq₁, hphase₂.trans hphase₁⟩

theorem SameButOut.sameIn {s t : State} (h : SameButOut s t) : SameIn s t := .of_eq h ⟨rfl, rfl, rfl, rfl⟩

theorem SameButOut.sameStores {s t : State} (h : SameButOut s t) : SameStores s t := .of_eq h ⟨rfl, rfl, rfl, rfl, rfl⟩

theorem SameButIn.sameStores {s t : State} (h : SameButIn s t) : SameStores s t := .of_eq h ⟨rfl, rfl, rfl, rfl, rfl⟩

/-- These bytes were taken from IN and these bits were written to OUT. -/
structure Encodes (bytes : List Byte) (bits : List Bool) (s t : State) : Prop where
  takes : Takes (bytesBits bytes) s t
  writes : Writes bits s t

theorem Encodes.trans {bytes bytes' : List Byte} {bits bits' : List Bool} {s t u : State}
    (h : Encodes bytes bits s t) (h' : Encodes bytes' bits' t u) : Encodes (bytes ++ bytes') (bits ++ bits') s u where
  takes := bytesBits_append bytes bytes' ▸ h.takes.trans h'.takes
  writes := h.writes.trans h'.writes

/-- What leaves the OUT cursor alone writes no bit. -/
theorem Takes.encodes {bytes : List Byte} {s t : State} (h : Takes (bytesBits bytes) s t) (hframe : SameButIn s t)
    (hout : s.outAcc.length ≤ 7) : Encodes bytes [] s t :=
  ⟨h, by unfold SameButIn at hframe; rw [hframe]; exact .none hout rfl rfl rfl⟩

/-- Whole bytes taken from an aligned IN leave it aligned. -/
theorem Encodes.inBuf {bytes : List Byte} {bits : List Bool} {s t : State} (h : Encodes bytes bits s t)
    (hin : s.inBuf = []) : t.inBuf = [] := by
  obtain ⟨⟨-, -, hbuf⟩, -⟩ := h
  rw [hin, List.length_nil, length_bytesBits, bitsLeft] at hbuf
  refine List.length_eq_zero_iff.mp (hbuf.trans ?_)
  split <;> omega

/-- What is left of IN after some bytes were taken. -/
theorem Encodes.pending {bytes : List Byte} {bits rest : List Bool} {s t : State} (h : Encodes bytes bits s t)
    (hs : pendingBits s = bytesBits bytes ++ rest) : pendingBits t = rest :=
  List.append_cancel_left (h.takes.1.symm.trans hs)

/-- These bits were written to OUT, and IN was left alone. -/
structure WritesOnly (bits : List Bool) (s t : State) : Prop where
  writes : Writes bits s t
  sameIn : SameIn s t

theorem WritesOnly.trans {as bs : List Bool} {s t u : State} (h : WritesOnly as s t) (h' : WritesOnly bs t u) :
    WritesOnly (as ++ bs) s u where
  writes := h.writes.trans h'.writes
  sameIn := h.sameIn.trans h'.sameIn

/-- Completion touches neither cursor. -/
theorem WritesOnly.complete {bits : List Bool} {s t : State} (h : WritesOnly bits s t) :
    WritesOnly bits s (complete t) where
  writes := h.writes
  sameIn := h.sameIn

/-- What leaves the IN cursor alone takes no byte. -/
theorem WritesOnly.encodes {bits : List Bool} {s t : State} (h : WritesOnly bits s t) : Encodes [] bits s t := by
  obtain ⟨hbuf, hpos, hq, hphase⟩ := h.sameIn
  have hpending : pendingBits t = pendingBits s := by unfold pendingBits; rw [hbuf, hq, hphase]
  exact ⟨⟨hpending.symm, by simp [hpos], by simp [hbuf]⟩, h.writes⟩

theorem writesOnly_refl {s : State} (hout : s.outAcc.length ≤ 7) : WritesOnly [] s s :=
  ⟨.none hout rfl rfl rfl, rfl, rfl, rfl, rfl⟩

theorem writeSeq_writesOnly (bits : List Bool) {s : State} (hout : s.outAcc.length ≤ 7) :
    WritesOnly bits s (writeSeq bits s) :=
  ⟨writeSeq_writes bits hout, (writeSeq_sameButOut bits s).sameIn⟩

/-- BUILD_TABLE touches neither cursor, nor the tree (R140). -/
theorem buildTableBody_writesOnly {s t : State} (h : buildTableBody s = .ok () t) (hout : s.outAcc.length ≤ 7) :
    WritesOnly [] s t ∧ t.node = s.node ∧ t.root = s.root := by
  have hframe := buildTableBody_changes s
  rw [h] at hframe
  rw [show t = _ from hframe]
  exact ⟨⟨.none hout rfl rfl rfl, rfl, rfl, rfl, rfl⟩, rfl, rfl⟩

/-! ### The input loop -/

/-- The input loop encodes the bytes that have leaves, and goes on behind them (R144). -/
theorem encLoop_codewords {T : Tree} (good : List Byte) : ∀ {s : State} {rest payload : List Bool}, TableFor T s →
    s.outAcc.length ≤ 7 → pendingBits s = bytesBits good ++ rest → codewordsOf T good = some payload →
    ∃ t, Encodes good payload s t ∧ TableFor T t ∧ ∀ fuel, encLoop (good.length + fuel) s = encLoop fuel t := by
  induction good with
  | nil =>
    intro s rest payload htable hout _ hcw
    cases hcw
    exact ⟨s, (writesOnly_refl hout).encodes, htable, fun fuel => by simp⟩
  | cons v good ih =>
    intro s rest payload htable hout hs hcw
    obtain ⟨cw, more, hv, hmore, rfl⟩ := codewordsOf_cons hcw
    rw [bytesBits_cons, List.append_assoc] at hs
    obtain ⟨t, htakes, hframe, hround⟩ := encLoop_byte hs
    have hread : Encodes [v] [] s t := Takes.encodes (by simpa using htakes) hframe hout
    have htable' : TableFor T t := htable.same hframe.sameStores
    have hwrite := (writeSeq_writesOnly cw hread.writes.held).encodes
    obtain ⟨u, hrest, htable'', hloop⟩ := ih (htable'.same (writeSeq_sameButOut cw t).sameStores) hwrite.writes.held
      (hwrite.pending (hread.pending (by simpa using hs))) hmore
    refine ⟨u, by simpa using (hread.trans hwrite).trans hrest, htable'', fun fuel => ?_⟩
    rw [List.length_cons, Nat.add_right_comm, hround]
    simp only [bind_apply, htable'.encSymBody_leaf hv, hloop]

/-- IN holds no more than the bits in hand and those of the bytes to come. -/
theorem length_pendingBits_le (s : State) : (pendingBits s).length ≤ s.inBuf.length + 8 * s.inQ.length := by
  unfold pendingBits
  split <;> simp

/-! ### ENC_STREAM -/

/-- ENC_STREAM from its input loop on, with `fuel + 1` rounds left (R144). -/
def encStreamRest (fuel : Nat) : Act Unit := do
  encLoop (fuel + 1)
  encSymBody Config.eom
  encPadBody

/-- ENC_STREAM of a valid tree writes the header and the codewords of bytes that have leaves, and goes on behind them
(R144). -/
theorem encStreamBody_codewords {s : State} {T : Tree} {good : List Byte} {rest payload : List Bool}
    (hin : s.inBuf = []) (hout : s.outAcc = []) (hs : pendingBits s = bytesBits good ++ rest)
    (hholds : Holds s.node s.root T) (hdepth : T.depth ≤ 256) (hvalid : T.valid = true)
    (hcw : codewordsOf T good = some payload) :
    ∃ t fuel, Encodes good (desc T ++ payload) s t ∧ TableFor T t ∧ encStreamBody s = encStreamRest fuel t := by
  obtain ⟨u, hbuild, htable, -⟩ := buildTableBody_valid hholds hdepth hvalid
  obtain ⟨hbuilt, hnode, hroot⟩ := buildTableBody_writesOnly hbuild (by simp [hout])
  have hser := serTreeBody_holds (s := u) (by rwa [hnode, hroot]) hdepth
  have hheader := (hbuilt.trans (writeSeq_writesOnly (desc T) hbuilt.writes.held)).encodes
  have hpending : pendingBits (writeSeq (desc T) u) = bytesBits good ++ rest := hheader.pending hs
  obtain ⟨t, hpayload, htable', hloop⟩ := encLoop_codewords good
    (htable.same (writeSeq_sameButOut (desc T) u).sameStores) hheader.writes.held hpending hcw
  obtain ⟨fuel, hfuel⟩ : ∃ fuel, (writeSeq (desc T) u).inQ.length + 1 = good.length + (fuel + 1) := by
    have hle := length_pendingBits_le (writeSeq (desc T) u)
    rw [hpending, hheader.inBuf hin, List.length_append, length_bytesBits, List.length_nil] at hle
    exact ⟨(writeSeq (desc T) u).inQ.length - good.length, by omega⟩
  have haligned : requireAligned s = .ok () s := by simp [requireAligned, inAligned, outAligned, hin, hout]
  refine ⟨t, fuel, hheader.trans hpayload, htable', ?_⟩
  simp only [encStreamBody, encStreamRest, bind_apply, haligned, hbuild, hser, withState_apply, hfuel, hloop]

/-- The bits of a compressed stream. -/
theorem streamBits_parts {T : Tree} {bs : List Byte} {bits : List Bool} (h : streamBits T bs = some bits) :
    ∃ payload last, codewordsOf T bs = some payload ∧ T.codeword Config.eom = some last ∧
      bits = desc T ++ payload ++ last := by
  rw [streamBits] at h
  split at h
  · cases h; exact ⟨_, _, ‹_›, ‹_›, rfl⟩
  · cases h

/-- After an aligned start the padding of the bits held is that of all bits written (R102). -/
theorem Writes.padding_eq {bits : List Bool} {s t : State} (h : Writes bits s t) (hs : s.outAcc = []) :
    padding t.outAcc.length = padding bits.length := by
  obtain ⟨-, hacc, -, -⟩ := h
  rw [hacc, hs, List.length_nil, Nat.zero_add, padding, padding, Nat.mod_mod]

/-- ENC_STREAM of bytes that all have leaves writes their compressed stream and its padding, and then flushes (R144). -/
theorem encStreamBody_stream {s : State} {T : Tree} {bs : List Byte} {bits : List Bool} (hin : s.inBuf = [])
    (hout : s.outAcc = []) (hs : pendingBits s = bytesBits bs) (hholds : Holds s.node s.root T)
    (hdepth : T.depth ≤ 256) (hvalid : T.valid = true) (hbits : streamBits T bs = some bits) :
    ∃ t, encStreamBody s = .ok () (flush t) ∧ Encodes bs (bits ++ padding bits.length) s t ∧ t.outAcc = [] ∧
      pendingBits t = [] ∧ TableFor T t := by
  obtain ⟨payload, last, hpayload, hlast, rfl⟩ := streamBits_parts hbits
  have hs' : pendingBits s = bytesBits bs ++ [] := by rw [hs, List.append_nil]
  obtain ⟨u, fuel, hread, htable, hbody⟩ := encStreamBody_codewords hin hout hs' hholds hdepth hvalid hpayload
  have hpending := hread.pending hs'
  have hbuf := hread.inBuf hin
  have heos : Encodes [] [] u { u with inPhase := .eos } :=
    ⟨⟨by rw [hpending, pendingBits, hbuf]; rfl, by simp, by simp⟩, .none hread.writes.held rfl rfl rfl⟩
  have htable' : TableFor T { u with inPhase := .eos } := htable.same ⟨rfl, rfl, rfl, rfl, rfl⟩
  have hencoded := (hread.trans heos).trans (writeSeq_writesOnly last heos.writes.held).encodes
  obtain ⟨t, hpad, hpadded, hacc, hframe⟩ := encPadBody_writes hencoded.writes.held
  rw [hencoded.writes.padding_eq hout] at hpadded
  have htotal := hencoded.trans (WritesOnly.mk hpadded hframe.sameIn).encodes
  simp only [List.append_nil] at htotal
  refine ⟨t, ?_, htotal, hacc, htotal.pending hs', ?_⟩
  · simp only [hbody, encStreamRest, bind_apply, encLoop_end hpending, htable'.encSymBody_leaf hlast, hpad]
  · exact (htable'.same (writeSeq_sameButOut last _).sameStores).same hframe.sameStores

/-- Settles O37: the table and the header are those of the tree, the loop reads every byte, and the padding makes the
bits whole bytes. -/
theorem encStreamWritesTheCompressedStream : Obligations.EncStreamWritesTheCompressedStream := by
  intro s T bs bits hin hout hs hholds hdepth hvalid hbits
  obtain ⟨t, hbody, hencodes, hacc, hpending, htv, htable⟩ :=
    encStreamBody_stream hin hout hs hholds hdepth hvalid hbits
  have hbuf := hencodes.inBuf hin
  obtain ⟨⟨-, hinpos, -⟩, hwrites⟩ := hencodes
  obtain ⟨sent, hev, hsent⟩ := hwrites.sent hout hacc
  obtain ⟨-, -, houtpos, -⟩ := hwrites
  have hlen : 8 * sent.length = (bits ++ padding bits.length).length := by rw [← hsent, length_bytesBits]
  have hpadded : sent.length = (bits.length + 7) / 8 := by
    rw [List.length_append, padding, List.length_replicate] at hlen
    omega
  have hframe : SameButEnc s (flush t) := by simpa [hbody] using encStreamBody_changes s
  unfold SameButEnc at hframe
  refine ⟨_, sent, runCommand_ok hbody, ?_, hsent, hpadded, hacc, ?_, hpending, hbuf, ?_, htv, htable, ?_⟩
  · simp [hev]
  · rw [hlen]; exact houtpos
  · rw [← length_bytesBits]; exact hinpos
  · rw [show (flush t).inBuf = s.inBuf from hbuf.trans hin.symm, show (flush t).tableValid = true from htv,
      show (flush t).outAcc = s.outAcc from hacc.trans hout.symm] at hframe
    rw [complete, hframe]

/-- Settles O38: the loop stops behind the bytes that have leaves, the next byte read and nothing written for it. -/
theorem encStreamLookupError : Obligations.EncStreamLookupError := by
  intro s T good later b payload hin hout hs hholds hdepth hvalid hcw hnone
  have hs' : pendingBits s = bytesBits good ++ (byteBits b ++ bytesBits later) := by simpa using hs
  obtain ⟨t, fuel, hgood, htable, hbody⟩ := encStreamBody_codewords hin hout hs' hholds hdepth hvalid hcw
  have hpending := hgood.pending hs'
  obtain ⟨u, htakes, hframe, hround⟩ := encLoop_byte hpending
  have hread : Encodes [b] [] t u := Takes.encodes (by simpa using htakes) hframe hgood.writes.held
  have htable' : TableFor T u := htable.same hframe.sameStores
  have herror : encStreamBody s = .error { code := .lookup, value := b.setWidth 28 } u := by
    simp only [hbody, encStreamRest, bind_apply, hround, htable'.encSymBody_noLeaf hnone, setWidth_symOfByte]
  have hencodes := hgood.trans hread
  rw [List.append_nil] at hencodes
  have hframe' : SameButEnc s u := by simpa [herror] using encStreamBody_changes s
  unfold SameButEnc at hframe'
  obtain ⟨⟨-, hinpos, -⟩, hbits, hacc, houtpos, hsent⟩ := id hencodes
  obtain ⟨htv, htab⟩ := htable'
  refine ⟨_, runCommand_error herror, ?_, ?_, hread.pending hpending, hsent, htab, ?_⟩
  · rw [List.append_assoc]; exact hbits
  · simpa [hout] using hacc
  · rw [hencodes.inBuf hin, ← hin, hinpos, houtpos, htv, length_bytesBits, List.length_append,
      List.length_singleton] at hframe'
    rw [recordError, complete, hframe']

/-! ### The step commands -/

/-- Commands one after the other. -/
theorem execAll_append {as : List Instr} (bs : List Instr) : ∀ {s t : State}, execAll as s = .next t →
    execAll (as ++ bs) s = execAll bs t := by
  induction as with
  | nil => intro s t h; cases h; rfl
  | cons a as ih =>
    intro s t h
    obtain ⟨u, hu⟩ := exec_next a s
    simp only [execAll, hu] at h
    simp only [List.cons_append, execAll, hu, ih h]

/-- ENC_SYM for each byte writes the codewords of the bytes (R141). -/
theorem execAll_encSyms {T : Tree} (bs : List Byte) : ∀ {s : State} {payload : List Bool}, TableFor T s →
    s.outAcc.length ≤ 7 → codewordsOf T bs = some payload →
    ∃ t, execAll (bs.map .encSym) s = .next t ∧ WritesOnly payload s t ∧ TableFor T t := by
  induction bs with
  | nil =>
    intro s payload htable hout hcw
    cases hcw
    exact ⟨s, rfl, writesOnly_refl hout, htable⟩
  | cons v bs ih =>
    intro s payload htable hout hcw
    obtain ⟨cw, more, hv, hmore, rfl⟩ := codewordsOf_cons hcw
    have hexec : exec (.encSym v) s = .next (complete (writeSeq cw s)) := runCommand_ok (htable.encSymBody_leaf hv)
    have hstep := (writeSeq_writesOnly cw hout).complete
    obtain ⟨t, ht, hrest, htable'⟩ := ih (s := complete (writeSeq cw s))
      (htable.same (writeSeq_sameButOut cw s).sameStores) hstep.writes.held hmore
    exact ⟨t, by simp only [List.map_cons, execAll, hexec, ht], hstep.trans hrest, htable'⟩

/-- BUILD_TABLE and SER_TREE of a valid tree write its description and leave its table (R140, R120). -/
theorem execAll_header {s : State} {T : Tree} (hout : s.outAcc.length ≤ 7) (hholds : Holds s.node s.root T)
    (hdepth : T.depth ≤ 256) (hvalid : T.valid = true) :
    ∃ t, execAll [.buildTable, .serTree] s = .next t ∧ WritesOnly (desc T) s t ∧ TableFor T t := by
  obtain ⟨u, hbuild, htable, -⟩ := buildTableBody_valid hholds hdepth hvalid
  obtain ⟨hbuilt, hnode, hroot⟩ := buildTableBody_writesOnly hbuild hout
  have hser := serTreeBody_holds (s := complete u) (by simpa [hnode, hroot] using hholds) hdepth
  have hexec : exec .buildTable s = .next (complete u) := runCommand_ok hbuild
  have hexec' : exec .serTree (complete u) = .next (complete (writeSeq (desc T) (complete u))) := runCommand_ok hser
  have hwrites := hbuilt.complete.trans (writeSeq_writesOnly (desc T) hbuilt.complete.writes.held).complete
  exact ⟨complete (writeSeq (desc T) (complete u)), by simp only [execAll, hexec, hexec'], hwrites,
    htable.same (writeSeq_sameButOut (desc T) (complete u)).sameStores⟩

/-- ENC_EOM and ENC_PAD write the codeword of end of message and the padding, and then flush (R142, R143). -/
theorem execAll_trailer {s : State} {T : Tree} {last : List Bool} (hout : s.outAcc.length ≤ 7) (htable : TableFor T s)
    (hlast : T.codeword Config.eom = some last) :
    ∃ t, execAll [.encEom, .encPad] s = .next (complete (flush t)) ∧
      WritesOnly (last ++ padding (writeSeq last s).outAcc.length) s t ∧ t.outAcc = [] := by
  have hexec : exec .encEom s = .next (complete (writeSeq last s)) := runCommand_ok (htable.encSymBody_leaf hlast)
  have hwrites := (writeSeq_writesOnly last hout).complete
  obtain ⟨t, hpad, hpadded, hacc, hframe⟩ := encPadBody_writes hwrites.writes.held
  have hexec' : exec .encPad (complete (writeSeq last s)) = .next (complete (flush t)) := runCommand_ok hpad
  exact ⟨t, by simp only [execAll, hexec, hexec'], hwrites.trans ⟨hpadded, hframe.sameIn⟩, hacc⟩

/-- The step commands with a valid tree that has a leaf for each byte write the compressed stream and its padding, then
flush, and leave IN alone (R148). -/
theorem execAll_stepEncode {s : State} {T : Tree} {bs : List Byte} {bits : List Bool} (hout : s.outAcc = [])
    (hholds : Holds s.node s.root T) (hdepth : T.depth ≤ 256) (hvalid : T.valid = true)
    (hbits : streamBits T bs = some bits) :
    ∃ t, execAll (stepEncode bs) s = .next (complete (flush t)) ∧ WritesOnly (bits ++ padding bits.length) s t ∧
      t.outAcc = [] := by
  obtain ⟨payload, last, hpayload, hlast, rfl⟩ := streamBits_parts hbits
  obtain ⟨u, hheader, hwrites, htable⟩ := execAll_header (by simp [hout]) hholds hdepth hvalid
  obtain ⟨v, hsyms, hwrites', htable'⟩ := execAll_encSyms bs htable hwrites.writes.held hpayload
  obtain ⟨t, htrailer, hwrites'', hacc⟩ := execAll_trailer hwrites'.writes.held htable' hlast
  have hstream := (hwrites.trans hwrites').trans (writeSeq_writesOnly last hwrites'.writes.held)
  rw [hstream.writes.padding_eq hout] at hwrites''
  refine ⟨t, ?_, by simpa using (hwrites.trans hwrites').trans hwrites'', hacc⟩
  rw [stepEncode, List.append_assoc, execAll_append _ hheader, execAll_append _ hsyms, htrailer]

/-- A sequence of bytes is known by its bits. -/
theorem bytesBits_injective : ∀ {vs ws : List Byte}, bytesBits vs = bytesBits ws → vs = ws
  | [], [], _ => rfl
  | [], w :: ws, h => by simp [byteBits] at h
  | v :: vs, [], h => by simp [byteBits] at h
  | v :: vs, w :: ws, h => by
    obtain ⟨hv, hvs⟩ := List.append_inj h rfl
    rw [byteBits_injective hv, bytesBits_injective hvs]

/-- Bytes of which one has no leaf: those before the first such one all have. -/
theorem exists_noLeaf {T : Tree} {bs : List Byte} (h : codewordsOf T bs = none) :
    ∃ good b later payload, bs = good ++ b :: later ∧ codewordsOf T good = some payload ∧
      T.codeword (symOfByte b) = none := by
  induction bs with
  | nil => cases h
  | cons v bs ih =>
    cases hv : T.codeword (symOfByte v) with
    | none => exact ⟨[], v, bs, [], rfl, rfl, hv⟩
    | some cw =>
      have hrest : codewordsOf T bs = none := by
        cases hbs : codewordsOf T bs with
        | none => rfl
        | some bits => simp [codewordsOf, hv, hbs] at h
      obtain ⟨good, b, later, payload, rfl, hgood, hb⟩ := ih hrest
      exact ⟨v :: good, b, later, cw ++ payload, rfl, by simp [codewordsOf, hv, hgood], hb⟩

/-- ENC_STREAM that ends without error had a valid tree with a leaf for each byte (R144). -/
theorem streamBits_of_encStream {s t : State} {bs : List Byte} (hin : s.inBuf = []) (hout : s.outAcc = [])
    (hs : pendingBits s = bytesBits bs) (hexec : exec .encStream s = .next t) (herr : t.err.set = false) :
    ∃ T bits, Holds s.node s.root T ∧ T.depth ≤ 256 ∧ T.valid = true ∧ streamBits T bs = some bits := by
  rcases buildTableBody_cases s with ⟨u, -, -, hbuild⟩ | ⟨e, hbuild⟩
  · obtain ⟨T, -, hholds, hdepth, hvalid, -, -⟩ := buildTableBody_ok_holds hbuild
    obtain ⟨last, hlast⟩ := Option.isSome_iff_exists.mp ((isSome_codeword_iff T _).mpr ((valid_iff T).mp hvalid).2)
    cases hcw : codewordsOf T bs with
    | some payload => exact ⟨T, _, hholds, hdepth, hvalid, by rw [streamBits, hcw, hlast]⟩
    | none =>
      obtain ⟨good, b, later, payload, rfl, hgood, hb⟩ := exists_noLeaf hcw
      obtain ⟨w, hexec', -, -, -, -, -, hw⟩ :=
        encStreamLookupError s T good later b payload hin hout hs hholds hdepth hvalid hgood hb
      rw [hexec] at hexec'
      cases hexec'
      rw [hw] at herr
      cases herr
  · have hexec' : exec .encStream s = _ := runCommand_error (encStreamBody_build_error hin hout hbuild)
    rw [hexec] at hexec'
    cases hexec'
    cases herr

/-- Settles O39: a stream command that ends well had a valid tree with a leaf for each byte, and the step commands then
write the same bits. -/
theorem stepCommandsSendTheSameEvents : Obligations.StepCommandsSendTheSameEvents := by
  intro s s' t u bs _ hin hout hs hstream herr hs' hsteps _
  obtain ⟨T, bits, hholds, hdepth, hvalid, hbits⟩ := streamBits_of_encStream hin hout hs hstream herr
  obtain ⟨v, hbody, hencodes, hacc, -, -⟩ := encStreamBody_stream hin hout hs hholds hdepth hvalid hbits
  have hsame : s'.outAcc = s.outAcc ∧ s'.outEv = s.outEv ∧ s'.node = s.node ∧ s'.root = s.root := by
    rw [hs']; exact ⟨rfl, rfl, rfl, rfl⟩
  obtain ⟨hout', hev', hnode, hroot⟩ := hsame
  obtain ⟨w, hrun, hwrites, hacc'⟩ := execAll_stepEncode (s := s') (bs := bs) (hout'.trans hout)
    (by rwa [hnode, hroot]) hdepth hvalid hbits
  obtain ⟨sent, hev, hsent⟩ := hencodes.writes.sent hout hacc
  obtain ⟨sent', hev'', hsent'⟩ := hwrites.writes.sent (hout'.trans hout) hacc'
  obtain ⟨hbuf, hpos, hq, hphase⟩ := hwrites.sameIn
  have hexec : exec .encStream s = .next (complete (flush v)) := runCommand_ok hbody
  rw [hstream] at hexec
  rw [hsteps] at hrun
  cases hexec
  cases hrun
  refine ⟨?_, hpos, hq, hbuf, hphase⟩
  rw [complete_outEv, complete_outEv, flush_outEv, flush_outEv, hev, hev'', hev',
    bytesBits_injective (hsent.trans hsent'.symm)]

end Sys2Proof.Machine
end

section
/-! SUPPORT. The decode walk and DEC_SYM: one leaf decoded, the discard at end of message, and a walk that IN ends inside
of (42_decoder.md rules R160 and R162). -/

namespace Sys2Proof.Machine

/-! ### What the decoder takes from IN -/

/-- Where the IN cursor is the same, no bit was taken. -/
theorem SameIn.takes {s t : State} (h : SameIn s t) : Takes [] s t := by
  obtain ⟨hbuf, hpos, hq, hphase⟩ := h
  exact ⟨by simp only [pendingBits, hbuf, hq, hphase, List.nil_append], by simp [hpos], by simp [hbuf]⟩

/-- No bit is left of as many as are in hand. -/
theorem bitsLeft_self (n : Nat) : bitsLeft n n = 0 := by simp [bitsLeft]

/-- The EOM discard takes the bits in hand (R160). -/
theorem discardInput_takes (s : State) : Takes s.inBuf s (discardInput s) := by
  refine ⟨?_, rfl, (bitsLeft_self _).symm⟩
  unfold pendingBits
  cases hp : s.inPhase <;> simp [discardInput, hp]

/-- The bits that reaching a leaf drops: at end of message those left of the current byte (R160). -/
def dropped (sym : Sym) (s : State) : List Bool := if sym = Config.eom then s.inBuf else []

theorem arrive_takes (n : Idx) (d : Nat) (sym : Sym) (s : State) : Takes (dropped sym s) s (arrive n d sym s) := by
  unfold arrive dropped
  split
  · exact discardInput_takes s
  · exact SameIn.takes ⟨rfl, rfl, rfl, rfl⟩

/-- The encoder and the decoder take bits from the front of IN, and put none back. -/
theorem admitsPorts_consumes : AdmitsPorts Consumes where
  toFrame := frameConsumes
  read := readBit_consumes
  write b s := ⟨[], (writeBit_sameButOut b s).sameIn.takes⟩
  flush _ := ⟨[], SameIn.takes ⟨rfl, rfl, rfl, rfl⟩⟩
  result _ := ⟨[], SameIn.takes ⟨rfl, rfl, rfl, rfl⟩⟩
  decNode _ _ := ⟨[], SameIn.takes ⟨rfl, rfl, rfl, rfl⟩⟩
  arrive n d sym s := ⟨_, arrive_takes n d sym s⟩

/-- Taking bits leaves no more pending than there were. -/
theorem Consumes.length_le {s t : State} (h : Consumes s t) : (pendingBits t).length ≤ (pendingBits s).length := by
  obtain ⟨bs, hbits, -, -⟩ := h
  rw [hbits, List.length_append]
  omega

/-- At the end of IN no bit is in hand. -/
theorem AtEnd.inBuf {s : State} (h : AtEnd s) : s.inBuf = [] := by
  obtain ⟨hpending, hphase⟩ := h
  rwa [pendingBits, hphase] at hpending

/-! ### Paths in a tree -/

/-- The leaves below a branch, by the first bit of their paths (R11). -/
theorem mem_codewords_branch {L R : Tree} {y : Sym} {path : List Bool} (h : (y, path) ∈ (Tree.branch L R).codewords) :
    ∃ b path', path = b :: path' ∧ (y, path') ∈ (if b then R else L).codewords := by
  simp only [Tree.codewords, List.mem_append, List.mem_map, Prod.mk.injEq] at h
  obtain ⟨e, he, rfl, rfl⟩ | ⟨e, he, rfl, rfl⟩ := h
  · exact ⟨false, e.2, rfl, he⟩
  · exact ⟨true, e.2, rfl, he⟩

/-- Of a tree that is one leaf, that leaf has the empty path; so a leaf with another path is below a branch. -/
theorem ne_byte_of_path {T : Tree} {y : Sym} {path : List Bool} (h : (y, path) ∈ T.codewords) (hpath : path ≠ []) :
    ∀ v, T ≠ .byte v := by
  rintro v rfl
  simp only [Tree.codewords, List.mem_singleton, Prod.mk.injEq] at h
  exact hpath h.2

/-- Short of a leaf, its path leads to a branch (R11). -/
theorem exists_branch_on_path {m : Memory Node} (T : Tree) : ∀ {n : Idx} {y : Sym} {path more : List Bool},
    Holds m n T → (y, path ++ more) ∈ T.codewords → more ≠ [] →
    ∃ k e, nodeOnPath m n path = some k ∧ m.get k.toNat = some e ∧ e.kind = .branch := by
  have leaf {y y' : Sym} {path more : List Bool} (hmem : (y, path ++ more) ∈ [(y', [])]) : more = [] := by
    simp only [List.mem_singleton, Prod.mk.injEq, List.append_eq_nil_iff] at hmem
    exact hmem.2.2
  induction T with
  | eom => exact fun _ hmem hmore => absurd (leaf hmem) hmore
  | byte v => exact fun _ hmem hmore => absurd (leaf hmem) hmore
  | branch L R ihL ihR =>
    intro n y path more hholds hmem hmore
    obtain ⟨e, he, hk, hL, hR⟩ := hholds
    cases path with
    | nil => exact ⟨n, e, rfl, he, hk⟩
    | cons b path =>
      obtain ⟨b', path', hpath, hmem'⟩ := mem_codewords_branch hmem
      obtain ⟨rfl, rfl⟩ := List.cons.inj hpath
      simp only [nodeOnPath, he, hk, if_true]
      cases b with
      | false => exact ihL hL hmem' hmore
      | true => exact ihR hR hmem' hmore

/-! ### From the root to a leaf -/

/-- The symbol of a leaf that the node check admitted. -/
def leafSym : Visited → Sym
  | .byte v => symOfByte v
  | _ => Config.eom

theorem leafSym_leafVisited {y : Sym} (h : y.toNat < Config.nsym) : leafSym (leafVisited y) = y := by
  unfold leafVisited
  split
  · exact Eq.symm ‹y = Config.eom›
  · have hbyte : y.toNat ≠ 256 := fun heq => ‹¬y = Config.eom› (BitVec.eq_of_toNat_eq heq)
    have hlt : y.toNat < 256 := by have : y.toNat < 257 := h; omega
    apply BitVec.eq_of_toNat_eq
    rw [leafSym, symOfByte_toNat, BitVec.toNat_setWidth, Nat.mod_eq_of_lt hlt]

/-- The end of a decode walk at a leaf (R160). -/
def leave (r : Idx × Nat × Visited) : Act Sym := do
  update (arrive r.1 r.2.1 (leafSym r.2.2))
  pure (leafSym r.2.2)

/-- A decode walk whose root is no byte leaf is the walk from that root, ended at its leaf (R160). -/
theorem decWalk_eq {s : State} {v : Visited} (heom : s.eomSeen = false)
    (hroot : visit s.root (walkStart s) = .ok v (walkStart s)) (hv : ∀ b, v ≠ .byte b) :
    decWalk s = (walk Config.maxDepth 0 s.root v >>= leave) (walkStart s) := by
  unfold walkStart at hroot ⊢
  have hcheck : (if s.eomSeen then raise .state 0#28 else pure () : Act Unit) s = .ok () s := by simp [heom]
  simp only [decWalk, bind_apply, withState_apply, hcheck, update_apply, pure_apply, hroot]
  cases v with
  | byte b => exact absurd rfl (hv b)
  | _ =>
    generalize walk Config.maxDepth 0 s.root _ _ = r
    cases r with
    | error e u => rfl
    | ok r u =>
      obtain ⟨n, d, leaf⟩ := r
      cases leaf <;> rfl

/-- The root of a tree that is no byte leaf passes the checks of a decode walk (R160). -/
theorem visit_root {s : State} {n : Idx} {T : Tree} (hholds : Holds s.node n T) (hroot : ∀ v, T ≠ .byte v) :
    ∃ v, visit n s = .ok v s ∧ ∀ b, v ≠ .byte b := by
  rcases visit_holds hholds with ⟨-, h⟩ | ⟨v, hT, -⟩ | ⟨L, R, l, r, -, h, -, -⟩
  · exact ⟨_, h, by simp⟩
  · exact absurd hT (hroot v)
  · exact ⟨_, h, by simp⟩

/-- With the path of a leaf at the head of IN a decode walk gives that leaf's symbol. It takes the path, and at end of
message the bits then left of the current byte; RESULT, DEC_NODE and EOM_SEEN say what was decoded (R160, R162). -/
theorem decWalk_leaf {s : State} {T : Tree} {y : Sym} {path rest : List Bool} (hholds : Holds s.node s.root T)
    (hmem : (y, path) ∈ T.codewords) (hroot : ∀ v, T ≠ .byte v) (hlen : path.length ≤ 256) (heom : s.eomSeen = false)
    (hs : pendingBits s = path ++ rest) :
    ∃ t leaf drop, decWalk s = .ok y t ∧ nodeOnPath s.node s.root path = some leaf ∧ Takes (path ++ drop) s t ∧
      drop.length = (if y = Config.eom then bitsLeft s.inBuf.length path.length else 0) ∧
      t = { s with
        result := { valid := true, len := BitVec.ofNat 9 path.length, sym := y }, decNode := leaf
        eomSeen := decide (y = Config.eom), inBuf := t.inBuf, inBitpos := t.inBitpos, inQ := t.inQ
        inPhase := t.inPhase, portLog := t.portLog } := by
  obtain ⟨v, hvisit, hv⟩ := visit_root (s := walkStart s) hholds hroot
  obtain ⟨u, leaf, hwalk, hpath, hrest, hpos, hbuf, hframe⟩ :=
    walk_path T Config.maxDepth 0 s.root v (walkStart s) y path rest hholds hvisit hmem hlen hs
  have hy : leafSym (leafVisited y) = y := leafSym_leafVisited (symbol_lt T y (List.mem_map.mpr ⟨_, hmem, rfl⟩))
  have htakes : Takes path s u := ⟨hs.trans (hrest ▸ rfl), hpos, hbuf⟩
  refine ⟨arrive leaf path.length y u, leaf, dropped y u, ?_, hpath, htakes.trans (arrive_takes _ _ _ _), ?_, ?_⟩
  · rw [decWalk_eq heom hvisit hv, bind_apply, hwalk]
    simp only [leave, hy, bind_apply, update_apply, pure_apply, Nat.zero_add]
  · unfold dropped
    split
    · exact hbuf
    · rfl
  · unfold SameButIn at hframe
    unfold arrive
    split
    · rename_i hy'
      simp only [hy', decide_true]
      rw [hframe]
      rfl
    · rename_i hy'
      simp only [hy', decide_false, ← heom]
      rw [hframe]
      rfl

/-- Settles O40: the walk down the leaf's path, and the discard. -/
theorem decSymDecodesOneLeaf : Obligations.DecSymDecodesOneLeaf := by
  intro s T y path rest k hholds hmem hroot hlen heom hs hk
  obtain ⟨t, leaf, drop, hwalk, hpath, ⟨hbits, hpos, hbuf⟩, hdrop, hframe⟩ :=
    decWalk_leaf hholds hmem hroot hlen heom hs
  have hbody : decSymBody s = .ok () t := by simp only [decSymBody, bind_apply, hwalk, pure_apply]
  obtain rfl : drop.length = k := hdrop.trans hk.symm
  rw [hs, List.append_assoc, List.append_cancel_left_eq] at hbits
  rw [List.length_append] at hpos hbuf
  refine ⟨complete t, leaf, runCommand_ok hbody, hpath, by simp [hbits], ?_, ?_, ?_⟩
  · rw [hbits, List.drop_left]
    rfl
  · rw [complete_inBuf, hbuf, ← bitsLeft_add, hk]
    split
    · rw [bitsLeft_self, Nat.sub_self]
    · rw [bitsLeft_zero, Nat.sub_zero]
  · rw [complete_inBuf, complete_inQ, complete_inPhase, complete_portLog, ← hpos, complete, hframe]
    rfl

/-! ### A walk that does not come to a leaf -/

/-- Where IN ends inside the path of a leaf, the walk takes what IN holds and raises EOS_PAYLOAD at the branch it has come
to, which DEC_NODE then holds (R160). -/
theorem decWalk_truncated {s : State} {T : Tree} {y : Sym} {path more : List Bool} (hholds : Holds s.node s.root T)
    (hmem : (y, path) ∈ T.codewords) (hlen : path.length ≤ 256) (heom : s.eomSeen = false)
    (hs : pendingBits s ++ more = path) (hmore : more ≠ []) :
    ∃ t n, decWalk s = .error { code := .eosPayload, value := n.setWidth 28 } (setDecNode n t) ∧
      nodeOnPath s.node s.root (pendingBits s) = some n ∧ Takes (pendingBits s) s t ∧ AtEnd t ∧
      SameButIn (walkStart s) t := by
  subst hs
  obtain ⟨v, hvisit, hv⟩ :=
    visit_root (s := walkStart s) hholds (ne_byte_of_path hmem (List.append_ne_nil_of_right_ne_nil _ hmore))
  obtain ⟨n, e, hpath, he, hk⟩ := exists_branch_on_path T hholds hmem hmore
  obtain ⟨levels, hlevels⟩ : ∃ levels, (pendingBits s).length + (levels + 1) = Config.maxDepth := by
    have hpos := List.length_pos_iff.mpr hmore
    rw [List.length_append] at hlen
    exact ⟨255 - (pendingBits s).length, by show _ = 256; omega⟩
  obtain ⟨t, hend, hpos, hbuf, hframe, hwalk⟩ := walk_along (pendingBits s) (levels + 1) 0 s.root n v (walkStart s) []
    hpath hvisit (List.append_nil _).symm
  have hbranch : visit n t = .ok (.branch e.left e.right) t := by
    unfold SameButIn at hframe
    rw [visit_entry (by rw [hframe]; exact he), hk]
  have hread := readBit_eos hend
  obtain ⟨hnone, heos⟩ := readBit_none hread
  refine ⟨{ t with inPhase := .eos }, n, ?_, hpath, ⟨by rw [hnone, List.append_nil], hpos, hbuf⟩, ⟨hnone, heos⟩,
    hframe.trans rfl⟩
  rw [decWalk_eq heom hvisit hv, bind_apply, ← hlevels, hwalk, hbranch]
  simp only [walk, bind_apply, hread, update_apply, raise_apply]

/-- Settles O41: the walk stops at the branch that the last bit of IN leads to. -/
theorem decSymEndOfStream : Obligations.DecSymEndOfStream := by
  intro s T y path more hholds hmem hlen heom hs hmore
  obtain ⟨t, n, hwalk, hpath, ⟨-, hpos, -⟩, hend, hframe⟩ := decWalk_truncated hholds hmem hlen heom hs hmore
  refine ⟨_, n, exec_decSym_error hwalk, hpath, ?_⟩
  unfold SameButIn at hframe
  rw [hend.inBuf, hend.2, hpos] at hframe
  simp only [complete, recordError, setDecNode]
  rw [hframe]
  rfl

/-! ### Before the walk -/

/-- After end of message a decode walk is refused (R160). -/
theorem decWalk_eomSeen {s : State} (h : s.eomSeen = true) :
    decWalk s = .error { code := .state, value := 0#28 } s := by
  have hcheck : (if s.eomSeen then raise .state 0#28 else pure () : Act Unit) s =
      .error { code := .state, value := 0#28 } s := by simp [h]
  simp only [decWalk, bind_apply, withState_apply, hcheck]

/-- A byte leaf as the root is refused: it would be decoded without end (R160). -/
theorem decWalk_byteRoot {s : State} {b : Byte} (heom : s.eomSeen = false)
    (hroot : visit s.root (walkStart s) = .ok (.byte b) (walkStart s)) :
    decWalk s = .error { code := .treeInvalid, value := 0x400#28 ||| s.root.setWidth 28 } (walkStart s) := by
  unfold walkStart at hroot ⊢
  have hcheck : (if s.eomSeen then raise .state 0#28 else pure () : Act Unit) s = .ok () s := by simp [heom]
  simp only [decWalk, bind_apply, withState_apply, hcheck, update_apply, pure_apply, hroot, raise_apply]

/-- A stream command needs both cursors aligned (R144, R161). -/
theorem requireAligned_error {s : State} (h : s.inBuf ≠ [] ∨ s.outAcc ≠ []) :
    requireAligned s = .error { code := .state, value := 0#28 } s := by
  simp [requireAligned, inAligned, outAligned, h]

theorem requireAligned_ok {s : State} (hin : s.inBuf = []) (hout : s.outAcc = []) : requireAligned s = .ok () s := by
  simp [requireAligned, inAligned, outAligned, hin, hout]

/-- Settles O42: each command's first check is made on the state it starts in. -/
theorem decodeAndStreamStartChecks : Obligations.DecodeAndStreamStartChecks := by
  refine fun s => ⟨fun heom => exec_decSym_error (decWalk_eomSeen heom), fun v heom hholds => ?_, fun halign => ⟨?_, ?_⟩⟩
  · obtain ⟨e, he, hk, hv⟩ := hholds
    exact exec_decSym_error (decWalk_byteRoot heom (by rw [visit_entry (s := walkStart s) he, hk]))
  · have hbody : encStreamBody s = .error { code := .state, value := 0#28 } s := by
      simp only [encStreamBody, bind_apply, requireAligned_error halign]
    exact runCommand_error hbody
  · have hbody : decStreamBody s = .error { code := .state, value := 0#28 } s := by
      simp only [decStreamBody, bind_apply, requireAligned_error halign]
    exact runCommand_error hbody

end Sys2Proof.Machine
end

section
/-! SUPPORT. The loops of the stream commands end before their bounds (42_decoder.md rule R165). -/

namespace Sys2Proof.Machine

/-! ### DEC_STREAM's loop -/

/-- A walk from a branch takes a bit at least (R160). -/
theorem walk_branch_shrinks {levels d : Nat} {n l r : Idx} {s t : State} {x : Idx × Nat × Visited}
    (h : walk levels d n (.branch l r) s = .ok x t) : (pendingBits t).length < (pendingBits s).length := by
  cases levels with
  | zero => cases h
  | succ levels =>
    rw [walk, bind_apply] at h
    rcases readBit_cases s with ⟨b, rest, u, hs, hread, hu, -, -⟩ | ⟨-, hread⟩ <;> rw [hread] at h
    · dsimp only at h
      rw [bind_apply] at h
      cases hvisit : visit (if b then r else l) u with
      | error e w => rw [hvisit] at h; cases h
      | ok v w =>
        obtain ⟨rfl, -⟩ := visit_ok hvisit
        rw [hvisit] at h
        dsimp only at h
        have hle := (admitsPorts_consumes.walk levels (d + 1) (if b then r else l) v w).length_le
        rw [h, endState_ok, hu] at hle
        rw [hs, List.length_cons]
        exact Nat.lt_succ_of_le hle
    · cases h

/-- A decode walk that ends well has passed its checks: EOM_SEEN was 0, and the root is no byte leaf (R160). -/
theorem decWalk_ok {s t : State} {y : Sym} (h : decWalk s = .ok y t) :
    s.eomSeen = false ∧ ∃ v, visit s.root (walkStart s) = .ok v (walkStart s) ∧ ∀ b, v ≠ .byte b := by
  have heom : s.eomSeen = false := by
    by_contra hseen
    rw [decWalk_eomSeen (Bool.eq_true_of_not_eq_false hseen)] at h
    cases h
  refine ⟨heom, ?_⟩
  cases he : s.node.get s.root.toNat with
  | none => rw [decWalk_root_error heom (.inl ⟨he, rfl⟩)] at h; cases h
  | some e =>
    have hvisit := visit_entry (s := walkStart s) he
    cases hk : e.kind <;> rw [hk] at hvisit
    · exact ⟨_, hvisit, by simp⟩
    · rw [decWalk_byteRoot heom hvisit] at h; cases h
    · exact ⟨_, hvisit, by simp⟩
    · rw [decWalk_root_error heom (.inr ⟨e, he, hk, rfl⟩)] at h; cases h

/-- A decode walk that gives a byte takes a bit at least (R165). -/
theorem decWalk_shrinks {s t : State} {y : Sym} (h : decWalk s = .ok y t) (hy : y ≠ Config.eom) :
    (pendingBits t).length < (pendingBits s).length := by
  obtain ⟨heom, v, hvisit, hv⟩ := decWalk_ok h
  rw [decWalk_eq heom hvisit hv, bind_apply] at h
  cases hwalk : walk Config.maxDepth 0 s.root v (walkStart s) with
  | error e u => rw [hwalk] at h; cases h
  | ok x u =>
    rw [hwalk] at h
    cases h
    have hle := Consumes.length_le ⟨_, arrive_takes x.1 x.2.1 (leafSym x.2.2) u⟩
    cases v with
    | byte b => exact absurd rfl (hv b)
    | eom => cases hwalk; exact absurd rfl hy
    | branch l r => exact Nat.lt_of_le_of_lt hle (walk_branch_shrinks (s := walkStart s) hwalk)

/-- With more rounds than bits pending the loop ends at end of message or with an error (R165). -/
theorem decLoop_ends (n : Nat) : ∀ s t : State, (pendingBits s).length < n → decLoop n s ≠ .ok false t := by
  induction n with
  | zero => exact fun s t h => absurd h (Nat.not_lt_zero _)
  | succ n ih =>
    intro s t hlt h
    rw [decLoop, bind_apply] at h
    cases hwalk : decWalk s with
    | error e u => rw [hwalk] at h; cases h
    | ok y u =>
      rw [hwalk] at h
      dsimp only at h
      split at h
      · cases h
      · have hshrinks := decWalk_shrinks hwalk ‹_›
        have hwrite := Consumes.length_le ⟨[], (writeSeq_sameButOut (byteBits (y.setWidth 8)) u).sameIn.takes⟩
        exact ih (writeByte (y.setWidth 8) u) t (by rw [writeByte]; omega) h

/-! ### ENC_STREAM's loop -/

/-- With more rounds than bytes to come the loop does the same whatever its bound (R144, log 15). -/
theorem encLoop_bound (bytes : List Byte) : ∀ {s : State} {m n : Nat}, pendingBits s = bytesBits bytes →
    bytes.length < m → bytes.length < n → encLoop m s = encLoop n s := by
  induction bytes with
  | nil =>
    intro s m n hs hm hn
    obtain ⟨m, rfl⟩ := Nat.exists_eq_add_one.mpr hm
    obtain ⟨n, rfl⟩ := Nat.exists_eq_add_one.mpr hn
    rw [encLoop_end hs, encLoop_end hs]
  | cons v bytes ih =>
    intro s m n hs hm hn
    obtain ⟨m, rfl⟩ := Nat.exists_eq_add_one.mpr (Nat.zero_lt_of_lt hm)
    obtain ⟨n, rfl⟩ := Nat.exists_eq_add_one.mpr (Nat.zero_lt_of_lt hn)
    obtain ⟨t, htakes, -, hround⟩ := encLoop_byte hs
    have ht : pendingBits t = bytesBits bytes := List.append_cancel_left (htakes.1.symm.trans hs)
    have hframe := encSymBody_changes (symOfByte v) t
    rw [hround, hround, bind_apply, bind_apply]
    cases hsym : encSymBody (symOfByte v) t with
    | error e u => rfl
    | ok x u =>
      rw [hsym, endState_ok] at hframe
      have hu := hframe.sameIn.takes.1
      exact ih (hu.symm.trans ht) (Nat.lt_of_succ_lt_succ hm) (Nat.lt_of_succ_lt_succ hn)

/-- Settles O46: each round of DEC_STREAM's loop takes a bit, and each round of ENC_STREAM's a byte. -/
theorem streamLoopsEnd : Obligations.StreamLoopsEnd := by
  refine ⟨fun s t n hn => decLoop_ends n s t hn, fun s n hin hn => ?_⟩
  obtain ⟨bytes, hs, hlen⟩ : ∃ bytes, pendingBits s = bytesBits bytes ∧ bytes.length ≤ s.inQ.length := by
    unfold pendingBits
    rw [hin]
    cases s.inPhase with
    | eos => exact ⟨[], rfl, Nat.zero_le _⟩
    | _ => exact ⟨s.inQ, rfl, Nat.le_refl _⟩
  exact encLoop_bound bytes hs (by omega) (by omega)

end Sys2Proof.Machine
end

section
/-! SUPPORT. Bits that a description or a compressed stream begins with, and the bounds of a valid tree (00_scope.md rule
R10, 30_encoding.md rules R97 to R102). -/

namespace Sys2Proof.Machine

/-! ### The leaves of a tree -/

theorem mem_codewords_of_codeword {T : Tree} {y : Sym} {cw : List Bool} (h : T.codeword y = some cw) :
    (y, cw) ∈ T.codewords := by
  obtain ⟨e, hfind, rfl⟩ := Option.map_eq_some_iff.mp h
  obtain rfl : e.1 = y := by simpa using List.find?_some hfind
  exact List.mem_of_find?_eq_some hfind

/-- A leaf's path is no longer than the tree is deep (R12). -/
theorem length_le_depth (T : Tree) : ∀ {y : Sym} {path : List Bool}, (y, path) ∈ T.codewords →
    path.length ≤ T.depth := by
  induction T with
  | eom => intro y path h; cases List.mem_singleton.mp h; exact Nat.le_refl 0
  | byte v => intro y path h; cases List.mem_singleton.mp h; exact Nat.le_refl 0
  | branch L R ihL ihR =>
    intro y path h
    obtain ⟨b, path', rfl, h'⟩ := mem_codewords_branch h
    simp only [List.length_cons, Tree.depth]
    cases b with
    | false => have := ihL h'; omega
    | true => have := ihR h'; omega

/-- A tree has a node for each branch and each leaf. -/
theorem size_eq (T : Tree) : T.size = T.branches + T.byteLeaves + T.eomLeaves := by
  induction T with
  | eom => rfl
  | byte v => rfl
  | branch L R ihL ihR => simp only [Tree.size, Tree.branches, Tree.byteLeaves, Tree.eomLeaves]; omega

theorem depth_le_branches (T : Tree) : T.depth ≤ T.branches := by
  induction T with
  | eom => exact Nat.le_refl 0
  | byte v => exact Nat.le_refl 0
  | branch L R ihL ihR => simp only [Tree.depth, Tree.branches]; omega

/-- A valid tree is within both bounds of DES_TREE, by its number of leaves (R10, R121). -/
theorem valid_bounds {T : Tree} (h : T.valid = true) : T.depth ≤ 256 ∧ T.size ≤ 1024 := by
  obtain ⟨heom, hbranches, -, -, -⟩ := (descriptionLength T).2 h
  have hleaves : T.byteLeaves + T.eomLeaves ≤ 257 := leaves_le_nsym ((valid_iff T).mp h).1
  have hdepth := depth_le_branches T
  have hsize := size_eq T
  omega

/-- A valid tree is no byte leaf: it has an end-of-message leaf (R10). -/
theorem valid_ne_byte {T : Tree} (h : T.valid = true) : ∀ v, T ≠ .byte v := by
  rintro v rfl
  simp [Tree.valid, Tree.eomLeaves] at h

/-- A codeword of a valid tree is the path of its leaf, no deeper than MAX_DEPTH (R11, R12). -/
theorem leaf_of_codeword {T : Tree} {y : Sym} {cw : List Bool} (hvalid : T.valid = true) (h : T.codeword y = some cw) :
    (y, cw) ∈ T.codewords ∧ cw.length ≤ 256 := by
  have hmem := mem_codewords_of_codeword h
  exact ⟨hmem, Nat.le_trans (length_le_depth T hmem) (valid_bounds hvalid).1⟩

/-! ### Codewords one after the other -/

theorem symOfByte_ne_eom (v : Byte) : symOfByte v ≠ Config.eom := by
  intro h
  have := congrArg BitVec.toNat h
  rw [symOfByte_toNat, show Config.eom.toNat = 256 from rfl] at this
  omega

@[simp] theorem setWidth_symOfByte_byte (v : Byte) : (symOfByte v).setWidth 8 = v := by
  apply BitVec.eq_of_toNat_eq
  rw [BitVec.toNat_setWidth, symOfByte_toNat, Nat.mod_eq_of_lt v.isLt]

/-- Below a branch every codeword has a bit at least; a tree that is one leaf holds no byte or is a byte leaf (R11). -/
theorem codeword_byte_ne_nil {T : Tree} {v : Byte} {cw : List Bool} (hroot : ∀ b, T ≠ .byte b)
    (h : T.codeword (symOfByte v) = some cw) : cw ≠ [] := by
  have hmem := mem_codewords_of_codeword h
  cases T with
  | eom => exact absurd (congrArg Prod.fst (List.mem_singleton.mp hmem)) (symOfByte_ne_eom v)
  | byte b => exact absurd rfl (hroot b)
  | branch L R =>
    obtain ⟨b, path, rfl, -⟩ := mem_codewords_branch hmem
    exact List.cons_ne_nil b path

/-- Each byte adds a bit at least to the payload (R165). -/
theorem length_le_codewordsOf {T : Tree} (hroot : ∀ b, T ≠ .byte b) (bs : List Byte) : ∀ {payload : List Bool},
    codewordsOf T bs = some payload → bs.length ≤ payload.length := by
  induction bs with
  | nil => intro payload _; exact Nat.zero_le _
  | cons v bs ih =>
    intro payload h
    obtain ⟨cw, rest, hcw, hrest, rfl⟩ := codewordsOf_cons h
    have hpos := List.length_pos_iff.mpr (codeword_byte_ne_nil hroot hcw)
    have hle := ih hrest
    rw [List.length_cons, List.length_append]
    omega

/-- Bytes that all have leaves in a valid tree have a compressed stream (R100). -/
theorem exists_streamBits {T : Tree} {bs : List Byte} (hvalid : T.valid = true)
    (hleaves : ∀ b ∈ bs, (T.codeword (symOfByte b)).isSome = true) : ∃ bits, streamBits T bs = some bits := by
  obtain ⟨last, hlast⟩ := Option.isSome_iff_exists.mp ((isSome_codeword_iff T _).mpr ((valid_iff T).mp hvalid).2)
  cases hcw : codewordsOf T bs with
  | some payload => exact ⟨_, by rw [streamBits, hcw, hlast]⟩
  | none =>
    obtain ⟨good, b, later, payload, rfl, -, hb⟩ := exists_noLeaf hcw
    have hsome := hleaves b (by simp)
    rw [hb] at hsome
    cases hsome

/-! ### Bits that end early -/

/-- Bits that go on to two pieces end inside the first, or hold it whole and go on to the second. -/
theorem split_of_append_eq {bs more p tail : List Bool} (h : bs ++ more = p ++ tail) :
    (∃ r, bs ++ r = p ∧ r ≠ []) ∨ ∃ bs', bs = p ++ bs' ∧ bs' ++ more = tail := by
  rcases List.append_eq_append_iff.mp h with ⟨r, hp, hmore⟩ | ⟨bs', hbs, htail⟩
  · by_cases hr : r = []
    · exact .inr ⟨[], by rw [hp, hr]; simp, by rw [hmore, hr]; rfl⟩
    · exact .inl ⟨r, hp.symm, hr⟩
  · exact .inr ⟨bs', hbs, htail.symm⟩

/-- Which tree is described at the head of a bit sequence is known from the bits (R97). -/
theorem desc_append_inj {T T' : Tree} {rest rest' : List Bool} (h : desc T ++ rest = desc T' ++ rest') :
    T = T' ∧ rest = rest' := by
  have hT := decodeTree_desc T (max T.depth T'.depth) rest (Nat.le_max_left _ _)
  rw [h, decodeTree_desc T' _ rest' (Nat.le_max_right _ _)] at hT
  cases hT
  exact ⟨rfl, rfl⟩

/-- A payload that ends early ends inside the codeword of a byte, or of end of message, behind whole ones. -/
theorem exists_truncated_codeword {T : Tree} {last : List Bool} (hlast : T.codeword Config.eom = some last)
    (bs : List Byte) : ∀ {payload bits more : List Bool}, codewordsOf T bs = some payload →
    bits ++ more = payload ++ last → more ≠ [] →
    ∃ good y cw whole part r, codewordsOf T good = some whole ∧ T.codeword y = some cw ∧ bits = whole ++ part ∧
      part ++ r = cw ∧ r ≠ [] := by
  induction bs with
  | nil =>
    intro payload bits more h hbits hmore
    cases h
    exact ⟨[], Config.eom, last, [], bits, more, rfl, hlast, rfl, hbits, hmore⟩
  | cons v bs ih =>
    intro payload bits more h hbits hmore
    obtain ⟨cw, rest, hcw, hrest, rfl⟩ := codewordsOf_cons h
    rw [List.append_assoc] at hbits
    rcases split_of_append_eq hbits with ⟨r, hpart, hr⟩ | ⟨bits', rfl, hbits'⟩
    · exact ⟨[], symOfByte v, cw, [], bits, r, rfl, hcw, rfl, hpart, hr⟩
    · obtain ⟨good, y, cw', whole, part, r, hgood, hy, rfl, hpart, hr⟩ := ih hrest hbits' hmore
      exact ⟨v :: good, y, cw', cw ++ whole, part, r, by simp [codewordsOf, hcw, hgood], hy, by simp, hpart, hr⟩

/-- Without its last byte a padded bit sequence has lost bits that are no padding (R102). -/
theorem exists_lost_bits {C : List Byte} {bits : List Bool} (h : bytesBits C = bits ++ padding bits.length)
    (hbits : bits ≠ []) : ∃ more, bytesBits C.dropLast ++ more = bits ∧ more ≠ [] := by
  have hpad : (padding bits.length).length < 8 := by rw [padding, List.length_replicate]; omega
  have hC : C ≠ [] := by
    rintro rfl
    exact hbits (List.append_eq_nil_iff.mp h.symm).1
  rw [← List.dropLast_append_getLast hC, bytesBits_append] at h
  rcases split_of_append_eq h with ⟨more, hmore, hne⟩ | ⟨lost, -, hlost⟩
  · exact ⟨more, hmore, hne⟩
  · have hlen := congrArg List.length hlost
    simp only [List.length_append, length_bytesBits, List.length_singleton] at hlen
    omega

end Sys2Proof.Machine
end

section
/-! SUPPORT. DEC_STREAM: the tree it loads, the codewords its loop decodes, and where it stops when IN ends early
(42_decoder.md rules R161 to R164). -/

namespace Sys2Proof.Machine

/-! ### The header -/

/-- The tree that DES_TREE has loaded stands in the store, and the table is invalid (R121). -/
structure Loaded (T : Tree) (s : State) : Prop where
  node : s.node = layout 0 T
  count : s.nodeCount.toNat = T.size
  root : s.root = 0#10
  tbl : s.tbl = []
  tableValid : s.tableValid = false

theorem Loaded.same {T : Tree} {s t : State} (h : Loaded T s) (hs : SameStores s t) : Loaded T t := by
  obtain ⟨hnode, hcount, hroot, htbl, hvalid⟩ := hs
  exact ⟨hnode.trans h.node, hcount ▸ h.count, hroot.trans h.root, htbl.trans h.tbl, hvalid.trans h.tableValid⟩

theorem Loaded.holds {T : Tree} {s : State} (h : Loaded T s) (hvalid : T.valid = true) : Holds s.node s.root T := by
  have hlayout := holds_layout T 0 [] [] (by simp [Memory.Below]) (by have := (valid_bounds hvalid).2; omega)
  rw [h.node, h.root]
  simpa using hlayout

/-- These bits were taken from IN, and these bytes were written to OUT. -/
structure Decodes (bytes : List Byte) (bits : List Bool) (s t : State) : Prop where
  takes : Takes bits s t
  writes : Writes (bytesBits bytes) s t

theorem Decodes.trans {bytes bytes' : List Byte} {bits bits' : List Bool} {s t u : State}
    (h : Decodes bytes bits s t) (h' : Decodes bytes' bits' t u) : Decodes (bytes ++ bytes') (bits ++ bits') s u where
  takes := h.takes.trans h'.takes
  writes := bytesBits_append bytes bytes' ▸ h.writes.trans h'.writes

/-- What is left of IN after some bits were taken. -/
theorem Decodes.pending {bytes : List Byte} {bits rest : List Bool} {s t : State} (h : Decodes bytes bits s t)
    (hs : pendingBits s = bits ++ rest) : pendingBits t = rest :=
  List.append_cancel_left (h.takes.1.symm.trans hs)

/-- DES_TREE's action on the description of a tree within both bounds (R121). -/
theorem desTreeBody_desc {s : State} {T : Tree} {rest : List Bool} (hs : pendingBits s = desc T ++ rest)
    (hdepth : T.depth ≤ 256) (hsize : T.size ≤ 1024) (hout : s.outAcc.length ≤ 7) :
    ∃ t, desTreeBody s = .ok () t ∧ Decodes [] (desc T) s t ∧ Loaded T t ∧ t.eomSeen = false := by
  obtain ⟨u, hdes, -⟩ := desNode_desc T (Config.maxDepth + 1) 0#10 (desStart s) rest hs (Nat.lt_succ_of_le hdepth)
    (by simpa using hsize)
  obtain ⟨t, hexec, hnode, hcount, hroot, -, hrest, hbuf, hpos, hframe⟩ := desTreeLoadsTheTree s T rest hs hdepth hsize
  rw [exec_desTree_ok hdes] at hexec
  cases hexec
  have hbody : desTreeBody s = .ok () u := by
    simp only [desTreeBody, bind_apply, update_apply, withCleanup_apply, hdes]
  obtain ⟨htbl, htv, heom⟩ : u.tbl = [] ∧ u.tableValid = false ∧ u.eomSeen = false := by
    rw [← complete_tbl u, ← complete_tableValid u, ← complete_eomSeen u, hframe]
    exact ⟨rfl, rfl, rfl⟩
  have hwrites : Writes [] s u := by
    have hload : SameButLoad s u := by simpa [hbody] using desTreeBody_changes s
    unfold SameButLoad at hload
    rw [hload]
    exact .none hout rfl rfl rfl
  exact ⟨u, hbody, ⟨⟨hs.trans (hrest ▸ rfl), hpos, hbuf⟩, hwrites⟩, ⟨hnode, hcount, hroot, htbl, htv⟩, heom⟩

/-- DES_TREE's action where IN ends inside a description: EOS_TREE (R121). -/
theorem desTreeBody_truncated {s : State} {T : Tree} {more : List Bool} (hs : pendingBits s ++ more = desc T)
    (hmore : more ≠ []) (hdepth : T.depth ≤ 256) (hsize : T.size ≤ 1024) :
    ∃ e t, desTreeBody s = .error e t ∧ e.code = .eosTree := by
  cases hdes : desNode (Config.maxDepth + 1) 0#10 (desStart s) with
  | ok x u =>
    obtain ⟨T', hbits, -, -⟩ := desNode_ok _ hdes (Nat.zero_le _)
    rw [show pendingBits (desStart s) = pendingBits s from rfl] at hbits
    rw [hbits, List.append_assoc, ← List.append_nil (desc T)] at hs
    exact absurd (List.append_eq_nil_iff.mp (desc_append_inj hs).2).2 hmore
  | error e u =>
    obtain ⟨t, k, hexec, -, -, -, -, hframe⟩ := desTreeTruncated s T more hs hmore hdepth hsize
    obtain ⟨v, ⟨hexec', -, hraised⟩, -, -⟩ := desTree_raises hdes
    rw [hexec] at hexec'
    cases hexec'
    refine ⟨e, desCleanup u, by simp only [desTreeBody, bind_apply, update_apply, withCleanup_apply, hdes], ?_⟩
    have hcode : t.err.code = e.code := by rw [hraised]
    rw [← hcode, hframe]

/-! ### The loop -/

/-- A round of the loop decodes a byte's codeword and writes the byte (R161). -/
theorem decLoop_byte {T : Tree} {s : State} {v : Byte} {cw rest : List Bool} (hvalid : T.valid = true)
    (hloaded : Loaded T s) (heom : s.eomSeen = false) (hout : s.outAcc.length ≤ 7)
    (hcw : T.codeword (symOfByte v) = some cw) (hs : pendingBits s = cw ++ rest) :
    ∃ t, Decodes [v] cw s t ∧ Loaded T t ∧ t.eomSeen = false ∧ ∀ fuel, decLoop (fuel + 1) s = decLoop fuel t := by
  obtain ⟨hmem, hlen⟩ := leaf_of_codeword hvalid hcw
  obtain ⟨u, leaf, drop, hwalk, -, htakes, hdrop, hframe⟩ :=
    decWalk_leaf (hloaded.holds hvalid) hmem (valid_ne_byte hvalid) hlen heom hs
  rw [if_neg (symOfByte_ne_eom v), List.length_eq_zero_iff] at hdrop
  subst hdrop
  rw [List.append_nil] at htakes
  obtain ⟨hacc, hpos, hev, hseen, hstores⟩ : u.outAcc = s.outAcc ∧ u.outBitpos = s.outBitpos ∧ u.outEv = s.outEv ∧
      u.eomSeen = false ∧ SameStores s u := by
    rw [hframe]
    exact ⟨rfl, rfl, rfl, decide_eq_false (symOfByte_ne_eom v), rfl, rfl, rfl, rfl, rfl⟩
  have hread : Decodes [] cw s u := ⟨htakes, .none hout hacc hpos hev⟩
  have hwrites : Writes (bytesBits [v]) u (writeByte v u) := by
    rw [writeByte, bytesBits_cons, bytesBits_nil, List.append_nil]
    exact writeSeq_writes (byteBits v) hread.writes.held
  have hwrite : Decodes [v] [] u (writeByte v u) := ⟨(writeSeq_sameButOut _ u).sameIn.takes, hwrites⟩
  have hout' := writeSeq_sameButOut (byteBits v) u
  refine ⟨writeByte v u, by simpa using hread.trans hwrite, (hloaded.same hstores).same hout'.sameStores, ?_,
    fun fuel => ?_⟩
  · unfold SameButOut at hout'
    rw [writeByte, hout']
    exact hseen
  · simp only [decLoop, bind_apply, hwalk, if_neg (symOfByte_ne_eom v), update_apply, setWidth_symOfByte_byte]

/-- The loop decodes the codewords of bytes, and goes on behind them (R161). -/
theorem decLoop_codewords {T : Tree} (hvalid : T.valid = true) (good : List Byte) : ∀ {s : State} {rest payload : List Bool}, Loaded T s → s.eomSeen = false →
    s.outAcc.length ≤ 7 → pendingBits s = payload ++ rest → codewordsOf T good = some payload →
    ∃ t, Decodes good payload s t ∧ Loaded T t ∧ t.eomSeen = false ∧
      ∀ fuel, decLoop (good.length + fuel) s = decLoop fuel t := by
  induction good with
  | nil =>
    intro s rest payload hloaded heom hout _ hcw
    cases hcw
    exact ⟨s, ⟨SameIn.takes ⟨rfl, rfl, rfl, rfl⟩, .none hout rfl rfl rfl⟩, hloaded, heom, fun fuel => by simp⟩
  | cons v good ih =>
    intro s rest payload hloaded heom hout hs hcw
    obtain ⟨cw, more, hv, hmore, rfl⟩ := codewordsOf_cons hcw
    rw [List.append_assoc] at hs
    obtain ⟨t, hbyte, hloaded', heom', hround⟩ := decLoop_byte hvalid hloaded heom hout hv hs
    obtain ⟨u, hrest, hloaded'', heom'', hloop⟩ := ih hloaded' heom' hbyte.writes.held (hbyte.pending hs) hmore
    refine ⟨u, by simpa using hbyte.trans hrest, hloaded'', heom'', fun fuel => ?_⟩
    rw [List.length_cons, Nat.add_right_comm, hround, hloop]

/-! ### DEC_STREAM -/

/-- DEC_STREAM from its loop on, with `fuel + 1` rounds left (R161). -/
def decStreamRest (fuel : Nat) : Act Unit := do
  let _ ← decLoop (fuel + 1)
  update flush

/-- DEC_STREAM on a description and the codewords of bytes loads the tree, decodes the bytes, and goes on behind them
(R161). -/
theorem decStreamBody_codewords {s : State} {T : Tree} {good : List Byte} {payload rest : List Bool}
    (hin : s.inBuf = []) (hout : s.outAcc = []) (hvalid : T.valid = true)
    (hcw : codewordsOf T good = some payload) (hs : pendingBits s = desc T ++ (payload ++ rest)) :
    ∃ t fuel, Decodes good (desc T ++ payload) s t ∧ Loaded T t ∧ t.eomSeen = false ∧
      decStreamBody s = decStreamRest fuel t := by
  obtain ⟨hdepth, hsize⟩ := valid_bounds hvalid
  obtain ⟨u, hdes, hheader, hloaded, heom⟩ := desTreeBody_desc hs hdepth hsize (by simp [hout])
  have hpending := hheader.pending hs
  obtain ⟨t, hbytes, hloaded', heom', hloop⟩ :=
    decLoop_codewords hvalid good hloaded heom hheader.writes.held hpending hcw
  obtain ⟨fuel, hfuel⟩ : ∃ fuel, (pendingBits u).length + 1 = good.length + (fuel + 1) := by
    have hle := length_le_codewordsOf (valid_ne_byte hvalid) good hcw
    rw [hpending, List.length_append]
    exact ⟨payload.length + rest.length - good.length, by omega⟩
  refine ⟨t, fuel, hheader.trans hbytes, hloaded', heom', ?_⟩
  simp only [decStreamBody, decStreamTail, decStreamRest, bind_apply, requireAligned_ok hin hout, hdes,
    withState_apply, hfuel, hloop]

/-- From an aligned IN the bits left of the last byte are those of its padding (R102). -/
theorem bitsLeft_aligned (n : Nat) : bitsLeft 0 n = (padding n).length := by
  rw [bitsLeft, padding, List.length_replicate]
  split <;> omega

/-- The decode registers after a walk that came to the end-of-message leaf `leaf` by the path `cw` (R160). -/
def EndsAt (leaf : Idx) (cw : List Bool) (s : State) : Prop :=
  s.result = { valid := true, len := BitVec.ofNat 9 cw.length, sym := Config.eom } ∧ s.decNode = leaf ∧
    s.eomSeen = true

/-- DEC_STREAM on a compressed stream decodes its bytes, drops as many bits as the padding has, and flushes (R161,
R167). -/
theorem decStreamBody_stream {s : State} {T : Tree} {bs : List Byte} {bits rest cw : List Bool} (hin : s.inBuf = [])
    (hout : s.outAcc = []) (hvalid : T.valid = true) (hbits : streamBits T bs = some bits)
    (hcw : T.codeword Config.eom = some cw) (hs : pendingBits s = bits ++ rest) :
    ∃ t leaf drop, decStreamBody s = .ok () (flush t) ∧ Decodes bs (bits ++ drop) s t ∧
      drop.length = (padding bits.length).length ∧ Loaded T t ∧ nodeOnPath (layout 0 T) 0#10 cw = some leaf ∧
      EndsAt leaf cw t := by
  obtain ⟨payload, last, hpayload, hlast, hparts⟩ := streamBits_parts hbits
  obtain rfl : last = cw := Option.some.inj (hlast.symm.trans hcw)
  have hs' : pendingBits s = desc T ++ (payload ++ (last ++ rest)) := by rw [hs, hparts]; simp
  obtain ⟨t, fuel, hread, hloaded, heom, hbody⟩ := decStreamBody_codewords hin hout hvalid hpayload hs'
  obtain ⟨hmem, hlen⟩ := leaf_of_codeword hvalid hlast
  obtain ⟨u, leaf, drop, hwalk, hpath, htakes, hdrop, hframe⟩ := decWalk_leaf (rest := rest) (hloaded.holds hvalid)
    hmem (valid_ne_byte hvalid) hlen heom (hread.pending (by rw [hs']; simp))
  obtain ⟨hend, hstores, hwrites⟩ : EndsAt leaf last u ∧ SameStores t u ∧ Writes [] t u := by
    rw [hframe]
    exact ⟨⟨rfl, rfl, rfl⟩, ⟨rfl, rfl, rfl, rfl, rfl⟩, .none hread.writes.held rfl rfl rfl⟩
  have hdecodes : Decodes [] (last ++ drop) t u := ⟨htakes, hwrites⟩
  have hpad : drop.length = (padding bits.length).length := by
    obtain ⟨⟨-, -, hbuf⟩, -⟩ := hread
    rw [hdrop, if_pos rfl, hbuf, hin, bitsLeft_add, ← List.length_append, ← hparts]
    exact bitsLeft_aligned bits.length
  refine ⟨u, leaf, drop, ?_, by simpa [hparts] using hread.trans hdecodes, hpad, hloaded.same hstores, ?_, hend⟩
  · simp only [hbody, decStreamRest, decLoop, bind_apply, hwalk, if_true, pure_apply, update_apply]
  · rw [← hloaded.node, ← hloaded.root]
    exact hpath

/-- Settles O43: the loop decodes the bytes, and the walk that decodes end of message drops the padding. -/
theorem decStreamDecompresses : Obligations.DecStreamDecompresses := by
  intro s T bs bits rest cw hin hout _ _ hvalid hbits hcw hs
  obtain ⟨t, leaf, drop, hbody, ⟨⟨htaken, hinpos, hbuf⟩, hwrites⟩, hpad, ⟨hnode, hcount, hroot, htbl, htv⟩, hpath,
    hresult, hdecNode, hseen⟩ := decStreamBody_stream hin hout hvalid hbits hcw hs
  rw [hs, List.append_assoc, List.append_cancel_left_eq] at htaken
  rw [List.length_append, ← bitsLeft_add, hin, List.length_nil, bitsLeft_aligned, hpad, bitsLeft_self,
    List.length_eq_zero_iff] at hbuf
  have hacc : t.outAcc = [] := by
    obtain ⟨-, hlen, -, -⟩ := hwrites
    rw [hout, length_bytesBits] at hlen
    exact List.length_eq_zero_iff.mp (by simpa using hlen)
  obtain ⟨sent, hsent, hbytes⟩ := hwrites.sent hout hacc
  rw [bytesBits_injective hbytes] at hsent
  obtain ⟨-, -, houtpos, -⟩ := hwrites
  have hframe : SameButStream s (flush t) := by
    simpa [hbody, instrBody] using admits_sameButStream.command (i := .decStream) rfl (by simp) (by simp) s
  refine ⟨_, leaf, runCommand_ok hbody, by simp [hsent], ?_, hpath, hcount, ?_⟩
  · rw [← hpad, htaken, List.drop_left]
    rfl
  · unfold SameButStream at hframe
    simp only [flush_node, flush_root, flush_tbl, flush_tableValid, flush_eomSeen, flush_result, flush_decNode,
      flush_inBuf, flush_inBitpos, flush_outAcc, flush_outBitpos, hnode, hroot, htbl, htv, hseen, hresult, hdecNode,
      hbuf, hinpos, hacc.trans hout.symm, houtpos] at hframe
    rw [List.length_append, hpad, length_bytesBits] at hframe
    rw [complete, hframe]
    rfl

/-- Settles O44: what ENC_STREAM sends is the compressed stream and its padding, which DEC_STREAM drops. -/
theorem streamRoundTrip : Obligations.StreamRoundTrip := by
  intro s T S hholds hvalid hleaves hin hout hs
  obtain ⟨hdepth, hsize⟩ := valid_bounds hvalid
  obtain ⟨bits, hbits⟩ := exists_streamBits hvalid hleaves
  obtain ⟨payload, last, -, hlast, -⟩ := streamBits_parts hbits
  obtain ⟨t, C, hexec, hev, hC, -, -, -, -, -, -, -, -, hframe⟩ :=
    encStreamWritesTheCompressedStream s T S bits hin hout hs hholds hdepth hvalid hbits
  refine ⟨t, C, hexec, by rw [hframe], hev, fun s' hin' hout' hs' => ?_⟩
  obtain ⟨t', leaf, hexec', hev', hpending, -, -, hframe'⟩ := decStreamDecompresses s' T S bits _ last hin' hout' hdepth
    hsize hvalid hbits hlast (hs'.trans hC)
  exact ⟨t', hexec', by rw [hframe'], hev', by rw [hpending, List.drop_length]⟩

/-! ### A stream that ends early -/

/-- Where IN ends inside a compressed stream DEC_STREAM raises EOS_TREE or EOS_PAYLOAD, and has sent nothing but bytes
(R164). -/
theorem decStreamBody_truncated {s : State} {T : Tree} {bs : List Byte} {bits more : List Bool} (hin : s.inBuf = [])
    (hout : s.outAcc = []) (hvalid : T.valid = true) (hbits : streamBits T bs = some bits)
    (hs : pendingBits s ++ more = bits) (hmore : more ≠ []) :
    ∃ e t, decStreamBody s = .error e t ∧ (e.code = .eosTree ∨ e.code = .eosPayload) ∧ SendsBytes s t := by
  obtain ⟨hdepth, hsize⟩ := valid_bounds hvalid
  obtain ⟨payload, last, hpayload, hlast, rfl⟩ := streamBits_parts hbits
  rw [List.append_assoc] at hs
  rcases split_of_append_eq hs with ⟨r, hheader, hr⟩ | ⟨read, hread, hrest⟩
  · obtain ⟨e, t, hdes, he⟩ := desTreeBody_truncated hheader hr hdepth hsize
    have hframe : SameButLoad s t := by simpa [hdes] using desTreeBody_changes s
    unfold SameButLoad at hframe
    refine ⟨e, t, by simp only [decStreamBody, bind_apply, requireAligned_ok hin hout, hdes], .inl he, [], ?_⟩
    rw [hframe]
    simp
  · obtain ⟨good, y, cw, whole, part, r, hgood, hy, rfl, hpart, hr⟩ :=
      exists_truncated_codeword hlast bs hpayload hrest hmore
    obtain ⟨t, fuel, hdecodes, hloaded, heom, hbody⟩ := decStreamBody_codewords hin hout hvalid hgood hread
    have hpending : pendingBits t = part := hdecodes.pending (by rw [hread, List.append_assoc])
    obtain ⟨hmem, hlen⟩ := leaf_of_codeword hvalid hy
    obtain ⟨u, n, hwalk, -, -, -, hframe⟩ :=
      decWalk_truncated (hloaded.holds hvalid) hmem hlen heom (hpending ▸ hpart) hr
    have hraise : decStreamBody s = .error { code := .eosPayload, value := n.setWidth 28 } (setDecNode n u) := by
      simp only [hbody, decStreamRest, decLoop, bind_apply, hwalk]
    unfold SameButIn at hframe
    obtain ⟨-, -, -, hsent⟩ := hdecodes.writes
    refine ⟨_, _, hraise, .inr rfl, frameSendsBytes.trans hsent ⟨[], ?_⟩⟩
    rw [hframe]
    simp [setDecNode, walkStart]

/-- Settles O45: the last byte of the stream holds a bit of its last codeword, and no codeword begins another. -/
theorem truncationIsDetected : Obligations.TruncationIsDetected := by
  intro s t T S C hholds hvalid hleaves hin hout hs hexec hev s' hin' hout' hs'
  obtain ⟨bits, hbits⟩ := exists_streamBits hvalid hleaves
  obtain ⟨payload, last, -, -, hparts⟩ := streamBits_parts hbits
  obtain ⟨u, sent, hexec', hev', hsent, -⟩ :=
    encStreamWritesTheCompressedStream s T S bits hin hout hs hholds (valid_bounds hvalid).1 hvalid hbits
  rw [hexec] at hexec'
  cases hexec'
  have hC : C = sent := by
    rw [hev, List.append_cancel_right_eq, List.append_cancel_left_eq] at hev'
    exact List.map_injective_iff.mpr (fun a b h => OutEvent.byte.inj h) hev'
  have hne : bits ≠ [] := by
    rw [hparts]
    cases T <;> simp [desc]
  obtain ⟨more, hlost, hmore⟩ := exists_lost_bits (hC ▸ hsent) hne
  obtain ⟨e, w, hbody, hcode, hsends⟩ := decStreamBody_truncated hin' hout' hvalid hbits (hs' ▸ hlost) hmore
  exact ⟨_, runCommand_error hbody, rfl, rfl, hcode, hsends⟩

end Sys2Proof.Machine
end

section
/-! SUPPORT. The three control commands (43_control.md rules R180 to R182). -/

namespace Sys2Proof.Machine

/-! ### What each command leaves -/

/-- NOP has an empty body: completion alone is left (R180). -/
theorem exec_nop (s : State) : exec .nop s = .next (complete s) := runCommand_ok rfl

/-- CLR_ERR clears the error record before it completes (R181). -/
theorem exec_clrErr (s : State) : exec .clrErr s = .next (complete (clearError s)) := runCommand_ok rfl

/-- SOFT_RESET resets the core, which is idle then: completion adds nothing (R182). -/
theorem exec_softReset (s : State) : exec .softReset s = .next (resetState s) := by
  have hidle : complete (resetState s) = resetState s := rfl
  rw [← hidle]
  exact runCommand_ok rfl

/-! ### The core after a reset -/

/-- A reset keeps of the state only what is no part of the core: the port queues and their record, the host and the
agenda (R240). -/
theorem resetState_eq_reset (s : State) : resetState s = { State.reset with
    inQ := s.inQ, outEv := s.outEv, portLog := s.portLog, host := s.host, agenda := s.agenda, freeCtr := s.freeCtr } :=
  rfl

/-- After a reset both cursors are aligned and every other field of STATUS is 0 (R240). -/
theorem statusWord_resetState (s : State) : statusWord (resetState s) = 0x30#32 := by
  have hin : inAligned (resetState s) = true := rfl
  have hout : outAligned (resetState s) = true := rfl
  have hbusy : busy (resetState s) = false := rfl
  simp [statusWord, hin, hout, hbusy, ErrRecord.clear]

/-- NODE_DATA reads 0 at an entry the store does not hold (R38). -/
theorem nodeData_invalid {s : State} (h : s.node.get s.nodeAddr.toNat = none) : nodeData s = 0#32 := by
  rw [nodeData, h]

/-! ### The obligations -/

/-- Settles O17: the body is empty. -/
theorem nopOnlyCompletes : Obligations.NopOnlyCompletes := exec_nop

/-- Settles O18: the body clears the record and DROPPED. -/
theorem clrErrClearsTheRecord : Obligations.ClrErrClearsTheRecord := exec_clrErr

/-- Settles O19: the reset sets each field of the core, and the empty node store has no valid entry. -/
theorem softResetGivesTheResetState : Obligations.SoftResetGivesTheResetState := by
  intro s
  refine ⟨resetState s, exec_softReset s, resetState_eq_reset s, statusWord_resetState s, fun k => ?_⟩
  exact nodeData_invalid (s := { resetState s with nodeAddr := k }) (Memory.get_nil k.toNat)

end Sys2Proof.Machine
end

section
/-! SUPPORT. A host write: dropped while BUSY = 1, and to CMD dropped, refused or accepted (60_exceptions.md rules R201
and R202). -/

namespace Sys2Proof.Machine

variable {s : State} {off : Nat} {w : Word}

/-! ### While BUSY = 1 -/

/-- An admitted host write is dropped while BUSY = 1 (R202). -/
theorem accessStep_write_busy (hc : s.cur ≠ none) (hoff : accessAdmitted off 4 = true) :
    accessStep (.write off 4 w) s = .next (drop s) := by
  simp only [accessStep, accessRefusal_admitted hoff]
  rw [busWrite_busy off w (Option.isSome_iff_ne_none.mpr hc)]

/-- Settles O9: each of the three is one write of an admitted offset. -/
theorem writesWhileBusyAreDropped : Obligations.WritesWhileBusyAreDropped := by
  intro s off w rest hc h4 hwin
  have hoff : accessAdmitted off 4 = true := by simp [accessAdmitted, h4, hwin, Config.win]
  refine ⟨fun ha => ?_, fun ha => ?_, fun ha hp => ?_⟩ <;> rw [step_event ha]
  · exact accessStep_write_busy (s := { s with agenda := rest }) hc hoff
  · exact (busStep_inside hwin _ _).trans (accessStep_write_busy (s := { s with agenda := rest }) hc hoff)
  · simp only [eventStep, hostStep, hp]
    exact accessStep_write_busy (s := hostGoto (s.host.next + 1) { s with agenda := rest }) hc hoff

/-! ### A write to CMD -/

/-- With ERR = 1 a word that is not CLR_ERR's or SOFT_RESET's is dropped (R201). -/
theorem cmdWrite_dropped (herr : s.err.set = true) (hpass : ¬passesError w = true) : cmdWrite w s = drop s :=
  if_pos (by simp [herr, hpass])

/-- With ERR = 0 a word that is not well formed is recorded (R201). -/
theorem cmdWrite_illegal (herr : s.err.set = false) (hwf : cmdWellFormed w = false) :
    cmdWrite w s = illegalCommand w s := by
  simp [cmdWrite, herr, hwf]

/-- A well-formed word that passes is accepted (R201). -/
theorem cmdWrite_accepted (hwf : cmdWellFormed w = true) (hpass : s.err.set = false ∨ passesError w = true) :
    cmdWrite w s = accept w s := by
  rcases hpass with h | h <;> simp [cmdWrite, hwf, h]

/-- Settles O8: the branches of `CmdWrite` are those of R201, and an accepted word spells a command, which completes. -/
theorem commandAcceptance : Obligations.CommandAcceptance := by
  intro s w rest ha hidle
  have hwrite (hc : s.cur = none) : step s = .next (cmdWrite w { s with agenda := rest }) := step_write ha hc rfl
  refine ⟨fun hc => ?_, fun hc herr h1 h2 => ?_, fun hc herr hwf => ?_, fun hc hwf hpass => ⟨?_, ?_⟩⟩
  · rw [step_event ha]
    exact accessStep_write_busy (off := 0x04) (s := { s with agenda := rest }) hc rfl
  · have hfails : ¬passesError w = true := fun h => (passesError_iff.mp h).elim h1 h2
    rw [hwrite hc, cmdWrite_dropped (s := { s with agenda := rest }) herr hfails]
    rfl
  · rw [hwrite hc, cmdWrite_illegal (s := { s with agenda := rest }) herr hwf]
    rfl
  · rw [hwrite hc, cmdWrite_accepted (s := { s with agenda := rest }) hwf (hpass.imp_right passesError_iff.mpr)]
    rfl
  · obtain ⟨i, hi⟩ := decodeWord_of_wellFormed hwf
    obtain ⟨op, hop⟩ := opcode_of_decodeWord hi
    obtain ⟨t, ht⟩ := exec_next i { s with agenda := rest, cur := some w, portLog := [] }
    exact ⟨i, hi, coreStep_command rfl (hidle hc) hi, t, ht, exec_command_idle hop ht⟩

end Sys2Proof.Machine
end

section
/-! SUPPORT. How a raise ends a command (60_exceptions.md rules R200, R203 and R208): the codes it may carry, and that
what was sent before it are bytes. -/

namespace Sys2Proof.Machine

variable {α β : Type} {s₀ : State} {op : BitVec 4} {P Q : State → Prop}

/-! ### Actions with their raises -/

/-- From states with `P` the action ends in states with `Q`, or raises a code that the command of `op` may raise (R200),
with bytes alone sent since `s₀`. -/
def Runs (s₀ : State) (op : BitVec 4) (P Q : State → Prop) (x : Act α) : Prop :=
  ∀ s, P s → match x s with
    | .ok _ t => Q t
    | .error e t => SendsBytes s₀ t ∧ op ∈ raisedBy e.code

theorem Runs.bind {R : State → Prop} {x : Act α} {f : α → Act β} (hx : Runs s₀ op P Q x)
    (hf : ∀ a, Runs s₀ op Q R (f a)) : Runs s₀ op P R (x >>= f) := by
  intro s hs
  have h := hx s hs
  rw [bind_apply]
  cases hxs : x s with
  | ok a t => rw [hxs] at h; exact hf a t h
  | error e t => rw [hxs] at h; exact h

theorem Runs.pure (a : α) : Runs s₀ op P P (Pure.pure a : Act α) := fun _ hs => hs

theorem Runs.update {f : State → State} (h : ∀ s, P s → Q (f s)) : Runs s₀ op P Q (Machine.update f) := h

theorem Runs.withState {f : State → Act α} (h : ∀ s, Runs s₀ op P Q (f s)) : Runs s₀ op P Q (Machine.withState f) :=
  fun s hs => h s s hs

theorem Runs.withCleanup {x : Act Unit} {c : State → State} (hx : Runs s₀ op P Q x)
    (hc : ∀ s, SendsBytes s₀ s → SendsBytes s₀ (c s)) : Runs s₀ op P Q (Machine.withCleanup c x) := by
  intro s hs
  have h := hx s hs
  rw [withCleanup_apply]
  cases hxs : x s with
  | ok u t => rw [hxs] at h; exact h
  | error e t => rw [hxs] at h; exact ⟨hc t h.1, h.2⟩

/-- With no claim about the end, only the raises are left. -/
theorem Runs.raises {x : Act α} (hx : Runs s₀ op P Q x) : Runs s₀ op P (fun _ => True) x := by
  intro s hs
  have h := hx s hs
  cases hxs : x s with
  | ok a t => trivial
  | error e t => rw [hxs] at h; exact h

/-- Neither the events on OUT nor TABLE_VALID differ. -/
def Silent (s t : State) : Prop := t.outEv = s.outEv ∧ t.tableValid = s.tableValid

/-- A state equal to one that differs in neither. -/
theorem Silent.of_eq {s t u : State} (h : t = u) (hu : Silent s u) : Silent s t := h ▸ hu

theorem Silent.sendsBytes {s t : State} (h : Silent s t) : SendsBytes s t := ⟨[], by simp [h.1]⟩

/-- A property of states with bytes alone sent since `s₀`, which sending more bytes keeps as long as TABLE_VALID stays.
-/
structure Sending (s₀ : State) (P : State → Prop) : Prop where
  bytes : ∀ {s}, P s → SendsBytes s₀ s
  kept : ∀ {s t}, SendsBytes s t → t.tableValid = s.tableValid → P s → P t

/-- Having sent bytes alone, and having a built table. -/
def SendsWithTable (s₀ s : State) : Prop := SendsBytes s₀ s ∧ s.tableValid = true

theorem sending_sendsBytes (s₀ : State) : Sending s₀ (SendsBytes s₀) :=
  ⟨id, fun h _ hs => frameSendsBytes.trans hs h⟩

theorem sending_sendsWithTable (s₀ : State) : Sending s₀ (SendsWithTable s₀) :=
  ⟨And.left, fun h hvalid hs => ⟨frameSendsBytes.trans hs.1 h, hvalid.trans hs.2⟩⟩

theorem Sending.silent (hP : Sending s₀ P) {s t : State} (hs : P s) (h : Silent s t) : P t :=
  hP.kept h.sendsBytes h.2 hs

/-- `WriteBit` sends bytes alone, and leaves TABLE_VALID. -/
theorem Sending.writeSeq (hP : Sending s₀ P) (bs : List Bool) {s : State} (hs : P s) : P (Machine.writeSeq bs s) := by
  have hframe := writeSeq_sameButOut bs s
  unfold SameButOut at hframe
  exact hP.kept (writeSeq_sendsBytes bs s) (by rw [hframe]) hs

/-! ### The codes by command -/

/-- A command that may report an invalid node may report one of the reserved kind and a path too long (R200). -/
theorem raisedBy_of_nodeUninit (h : op ∈ raisedBy .nodeUninit) :
    op ∈ raisedBy .nodeKind ∧ op ∈ raisedBy .depth := by
  revert op; decide

/-- A command that reads a description may report each of its errors (R200). -/
theorem raisedBy_of_eosTree (h : op ∈ raisedBy .eosTree) :
    op ∈ raisedBy .capacity ∧ op ∈ raisedBy .depth := by
  revert op; decide

/-- A command that decodes may report each error of a walk (R200). -/
theorem raisedBy_of_eosPayload (h : op ∈ raisedBy .eosPayload) :
    op ∈ raisedBy .state ∧ op ∈ raisedBy .treeInvalid ∧ op ∈ raisedBy .nodeUninit := by
  revert op; decide

/-! ### The traversals -/

section

variable (hP : Sending s₀ P)
include hP

theorem Runs.raise {c : ErrCode} (v : BitVec 28) (hc : op ∈ raisedBy c) : Runs s₀ op P Q (Machine.raise c v : Act α) :=
  fun _ hs => ⟨hP.bytes hs, hc⟩

theorem visit_runs (n : Idx) (hop : op ∈ raisedBy .nodeUninit) : Runs s₀ op P P (visit n) := by
  intro s hs
  cases he : s.node.get n.toNat with
  | none => rw [visit_none he]; exact ⟨hP.bytes hs, hop⟩
  | some e =>
    rw [visit_entry he]
    cases e.kind with
    | reserved => exact ⟨hP.bytes hs, (raisedBy_of_nodeUninit hop).1⟩
    | _ => exact hs

theorem serNode_runs (levels : Nat) (hop : op ∈ raisedBy .nodeUninit) : ∀ n p, Runs s₀ op P P (serNode levels n p) := by
  have bit (b : Bool) : Runs s₀ op P P (update (writeBit b)) := Runs.update fun _ => hP.writeSeq [b]
  induction levels with
  | zero => exact fun n p => Runs.raise hP _ (raisedBy_of_nodeUninit hop).2
  | succ levels ih =>
    refine fun n p => Runs.bind (visit_runs hP n hop) fun v => ?_
    cases v with
    | branch l r => exact Runs.bind (bit true) fun _ => Runs.bind (ih l n) fun _ => ih r n
    | byte b => exact Runs.bind (bit false) fun _ => Runs.bind (bit true) fun _ => Runs.update fun _ => hP.writeSeq _
    | eom => exact Runs.bind (bit false) fun _ => bit false

theorem serTreeBody_runs (hop : op ∈ raisedBy .nodeUninit) : Runs s₀ op P P serTreeBody :=
  Runs.withState fun _ => serNode_runs hP _ hop _ _

theorem readBit_runs : Runs s₀ op P P readBit := by
  intro s hs
  have hend := hP.silent hs (.of_eq (readBit_changes s) ⟨rfl, rfl⟩)
  rcases readBit_cases s with ⟨b, rest, t, -, h, -⟩ | ⟨-, h⟩ <;> rw [h] at hend ⊢ <;> exact hend

theorem readBitsFrom_runs (n : Nat) : ∀ acc, Runs s₀ op P P (readBitsFrom n acc) := by
  induction n with
  | zero => exact fun acc => Runs.pure _
  | succ n ih =>
    refine fun acc => Runs.bind (readBit_runs hP) fun r => ?_
    cases r with
    | none => exact Runs.pure _
    | some b => exact ih _

theorem treeBit_runs (i : Idx) (hop : op ∈ raisedBy .eosTree) : Runs s₀ op P P (treeBit i) := by
  refine Runs.bind (readBit_runs hP) fun r => ?_
  cases r with
  | none => exact Runs.raise hP _ hop
  | some b => exact Runs.pure b

theorem readProduction_runs (i : Idx) (hop : op ∈ raisedBy .eosTree) : Runs s₀ op P P (readProduction i) := by
  refine Runs.bind (treeBit_runs hP i hop) fun t => ?_
  cases t with
  | true => exact Runs.pure _
  | false =>
    refine Runs.bind (treeBit_runs hP i hop) fun t2 => ?_
    cases t2 with
    | false => exact Runs.pure _
    | true =>
      refine Runs.bind (readBitsFrom_runs hP 8 0) fun r => ?_
      cases r with
      | none => exact Runs.raise hP _ hop
      | some v => exact Runs.pure _

theorem allocNode_runs (hop : op ∈ raisedBy .eosTree) : Runs s₀ op P P allocNode := by
  intro s hs
  unfold allocNode
  by_cases hfull : s.nodeCount = 1024#11
  · rw [if_pos hfull]; exact ⟨hP.bytes hs, (raisedBy_of_eosTree hop).1⟩
  · rw [if_neg hfull]; exact hP.silent hs ⟨rfl, rfl⟩

theorem desNode_runs (levels : Nat) (hop : op ∈ raisedBy .eosTree) : ∀ p, Runs s₀ op P P (desNode levels p) := by
  induction levels with
  | zero => exact fun p => Runs.raise hP _ (raisedBy_of_eosTree hop).2
  | succ levels ih =>
    refine fun p => Runs.bind (allocNode_runs hP hop) fun i => Runs.bind (readProduction_runs hP i hop) fun prod =>
      Runs.bind (Runs.update fun _ hs => hP.silent hs ⟨rfl, rfl⟩) fun _ => ?_
    cases prod with
    | branch =>
      exact Runs.bind (ih i) fun _ => Runs.bind
        (Runs.update fun s hs => hP.silent hs (.of_eq (setRight_sameButDes i s) ⟨rfl, rfl⟩)) fun _ => ih i
    | leafByte v => exact Runs.pure _
    | leafEom => exact Runs.pure _

theorem tblLeaf_runs (sym : Sym) (path : List Bool) (hop : op ∈ raisedBy .treeInvalid) :
    Runs s₀ op P P (tblLeaf sym path) := by
  intro s hs
  unfold tblLeaf
  cases s.tbl.get sym.toNat with
  | some cw => exact ⟨hP.bytes hs, hop⟩
  | none => exact hP.silent hs ⟨rfl, rfl⟩

theorem tblNode_runs (levels : Nat) (hnode : op ∈ raisedBy .nodeUninit) (hop : op ∈ raisedBy .treeInvalid) :
    ∀ n p path, Runs s₀ op P P (tblNode levels n p path) := by
  induction levels with
  | zero => exact fun n p path => Runs.raise hP _ (raisedBy_of_nodeUninit hnode).2
  | succ levels ih =>
    refine fun n p path => Runs.bind (visit_runs hP n hnode) fun v => ?_
    cases v with
    | branch l r => exact Runs.bind (ih l n _) fun _ => ih r n _
    | byte b => exact tblLeaf_runs hP _ _ hop
    | eom => exact tblLeaf_runs hP _ _ hop

theorem tblCheckEom_runs (hop : op ∈ raisedBy .treeInvalid) : Runs s₀ op P P tblCheckEom := by
  intro s hs
  unfold tblCheckEom
  cases s.tbl.get Config.eom.toNat with
  | some cw => exact hs
  | none => exact ⟨hP.bytes hs, hop⟩

theorem requireAligned_runs (hop : op ∈ raisedBy .state) : Runs s₀ op P P requireAligned := by
  refine Runs.withState fun s => ?_
  split
  · exact Runs.raise hP _ hop
  · exact Runs.pure _

/-! ### The encoder and the decoder -/

/-- ENC_SYM raises NO_TABLE only without a table (R141). -/
theorem encSymBody_runs (sym : Sym) (hlookup : op ∈ raisedBy .lookup)
    (htable : ∀ s, P s → s.tableValid = false → op ∈ raisedBy .noTable) : Runs s₀ op P P (encSymBody sym) := by
  intro s hs
  cases hvalid : s.tableValid with
  | false => rw [encSymBody_noTable hvalid]; exact ⟨hP.bytes hs, htable s hs hvalid⟩
  | true =>
    cases hcw : s.tbl.get sym.toNat with
    | none => rw [encSymBody_lookup hvalid hcw]; exact ⟨hP.bytes hs, hlookup⟩
    | some cw => rw [encSymBody_codeword hvalid hcw]; exact hP.writeSeq cw hs

theorem encLoop_runs (fuel : Nat) (hlookup : op ∈ raisedBy .lookup)
    (htable : ∀ s, P s → s.tableValid = false → op ∈ raisedBy .noTable) : Runs s₀ op P P (encLoop fuel) := by
  induction fuel with
  | zero => exact Runs.pure _
  | succ fuel ih =>
    refine Runs.bind (readBit_runs hP) fun b0 => ?_
    cases b0 with
    | none => exact Runs.pure _
    | some b0 =>
      refine Runs.bind (readBitsFrom_runs hP 7 0) fun r => ?_
      cases r with
      | none => exact Runs.pure _
      | some r => exact Runs.bind (encSymBody_runs hP _ hlookup htable) fun _ => ih

theorem walk_runs (levels : Nat) (hop : op ∈ raisedBy .eosPayload) : ∀ d n v, Runs s₀ op P P (walk levels d n v) := by
  obtain ⟨-, -, hnode⟩ := raisedBy_of_eosPayload hop
  have stop (n : Idx) {c : ErrCode} (hc : op ∈ raisedBy c) :
      Runs s₀ op P P (do update (setDecNode n); raise c (n.setWidth 28) : Act (Idx × Nat × Visited)) :=
    Runs.bind (Runs.update fun _ hs => hP.silent hs ⟨rfl, rfl⟩) fun _ => Runs.raise hP _ hc
  induction levels with
  | zero =>
    intro d n v
    cases v with
    | branch l r => exact stop n (raisedBy_of_nodeUninit hnode).2
    | _ => exact Runs.pure _
  | succ levels ih =>
    intro d n v
    cases v with
    | branch l r =>
      refine Runs.bind (readBit_runs hP) fun b => ?_
      cases b with
      | none => exact stop n hop
      | some b => exact Runs.bind (visit_runs hP _ hnode) fun v' => ih _ _ _
    | _ => exact Runs.pure _

theorem decWalk_runs (hop : op ∈ raisedBy .eosPayload) : Runs s₀ op P P decWalk := by
  obtain ⟨hstate, hinvalid, hnode⟩ := raisedBy_of_eosPayload hop
  refine Runs.bind (Q := P) (Runs.withState fun s => ?_) fun _ =>
    Runs.bind (Q := P) (Runs.update fun _ hs => hP.silent hs ⟨rfl, rfl⟩) fun _ =>
      Runs.bind (Runs.withState fun s => Runs.pure s.root) fun root =>
        Runs.bind (visit_runs hP root hnode) fun v => ?_
  · split
    · exact Runs.raise hP _ hstate
    · exact Runs.pure _
  · have leave (n : Idx) (d : Nat) (sym : Sym) : Runs s₀ op P P (do update (arrive n d sym); pure sym : Act Sym) :=
      Runs.bind (Runs.update fun s hs => hP.silent hs (.of_eq (arrive_sameButDec n d sym s) ⟨rfl, rfl⟩)) fun _ =>
        Runs.pure sym
    cases v with
    | byte b => exact Runs.raise hP _ hinvalid
    | _ =>
      refine Runs.bind (walk_runs hP _ hop _ _ _) fun ⟨n, d, leaf⟩ => ?_
      cases leaf <;> exact leave n d _

theorem decLoop_runs (fuel : Nat) (hop : op ∈ raisedBy .eosPayload) : Runs s₀ op P P (decLoop fuel) := by
  induction fuel with
  | zero => exact Runs.pure _
  | succ fuel ih =>
    refine Runs.bind (decWalk_runs hP hop) fun sym => ?_
    split
    · exact Runs.pure _
    · exact Runs.bind (Runs.update fun _ => hP.writeSeq _) fun _ => ih

end

/-! ### The commands -/

/-- BUILD_TABLE raises what its walk raises, and ends with a table (R140). -/
theorem buildTableBody_runs (hnode : op ∈ raisedBy .nodeUninit) (hop : op ∈ raisedBy .treeInvalid) :
    Runs s₀ op (SendsBytes s₀) (SendsWithTable s₀) buildTableBody := by
  have hP := sending_sendsBytes s₀
  have hinvalidate : ∀ s, SendsBytes s₀ s → SendsBytes s₀ (invalidateTable s) := fun _ hs => hs
  exact Runs.bind (Runs.update hinvalidate) fun _ =>
    Runs.bind (Runs.withCleanup (Runs.bind (Runs.withState fun _ => tblNode_runs hP _ hnode hop _ _ _) fun _ =>
      tblCheckEom_runs hP hop) hinvalidate) fun _ => Runs.update fun _ hs => ⟨hs, rfl⟩

theorem desTreeBody_runs (hop : op ∈ raisedBy .eosTree) : Runs s₀ op (SendsBytes s₀) (SendsBytes s₀) desTreeBody :=
  Runs.bind (Runs.update fun _ hs => hs) fun _ =>
    Runs.withCleanup (desNode_runs (sending_sendsBytes s₀) _ hop _) fun _ hs => hs

/-- ENC_STREAM never raises NO_TABLE: the table that it built stays valid (R144). -/
theorem encStreamBody_runs : Runs s₀ 0xA#4 (SendsBytes s₀) (fun _ => True) encStreamBody := by
  have hP := sending_sendsBytes s₀
  have hT := sending_sendsWithTable s₀
  have htable : ∀ s, SendsWithTable s₀ s → s.tableValid = false → 0xA#4 ∈ raisedBy .noTable := fun s hs hinvalid =>
    absurd (hs.2.symm.trans hinvalid) (by decide)
  exact Runs.bind (requireAligned_runs hP (by decide)) fun _ =>
    Runs.bind (buildTableBody_runs (by decide) (by decide)) fun _ =>
    Runs.bind (serTreeBody_runs hT (by decide)) fun _ =>
    Runs.bind (Runs.withState fun _ => encLoop_runs hT _ (by decide) htable) fun _ =>
    Runs.bind (encSymBody_runs hT _ (by decide) htable) fun _ => Runs.update fun _ _ => trivial

theorem decStreamBody_runs : Runs s₀ 0xB#4 (SendsBytes s₀) (fun _ => True) decStreamBody := by
  have hP := sending_sendsBytes s₀
  exact Runs.bind (requireAligned_runs hP (by decide)) fun _ =>
    Runs.bind (desTreeBody_runs (by decide)) fun _ =>
    Runs.bind (Runs.withState fun _ => decLoop_runs hP _ (by decide)) fun _ => Runs.update fun _ _ => trivial

/-- Every command but ENC_EOM raises only what R200 lets it raise, from any state. -/
theorem command_runs {i : Instr} (hi : opcode i = some op) (heom : i ≠ .encEom) :
    Runs s₀ op (SendsBytes s₀) (fun _ => True) (instrBody i) := by
  have hP := sending_sendsBytes s₀
  cases i <;> cases hi
  case nop => exact (Runs.pure ()).raises
  case clrErr => exact Runs.update fun _ _ => trivial
  case softReset => exact Runs.update fun _ _ => trivial
  case serTree => exact (serTreeBody_runs hP (by decide)).raises
  case desTree => exact (desTreeBody_runs (by decide)).raises
  case buildTable => exact (buildTableBody_runs (by decide) (by decide)).raises
  case encSym arg => exact (encSymBody_runs hP _ (by decide) fun _ _ _ => by decide).raises
  case encEom => exact absurd rfl heom
  case encPad => exact Runs.update fun _ _ => trivial
  case decSym => exact (Runs.bind (decWalk_runs hP (by decide)) fun _ => Runs.pure ()).raises
  case encStream => exact encStreamBody_runs
  case decStream => exact decStreamBody_runs

/-- Where ENC_EOM raises it has done nothing, and with the stores in form it lacks a table: a built one has the
end-of-message entry (R142). -/
theorem encEom_error {s t : State} {e : Err} (h : encSymBody Config.eom s = .error e t) :
    t = s ∧ (StoreInv s → e.code = .noTable) := by
  cases hvalid : s.tableValid with
  | false => rw [encSymBody_noTable hvalid] at h; cases h; exact ⟨rfl, fun _ => rfl⟩
  | true =>
    cases hcw : s.tbl.get Config.eom.toNat with
    | some cw => rw [encSymBody_codeword hvalid hcw] at h; cases h
    | none =>
      rw [encSymBody_lookup hvalid hcw] at h
      cases h
      refine ⟨rfl, fun ⟨_, _, _, _, _, hentry⟩ => ?_⟩
      have hsome : (s.tbl.get Config.eom.toNat).isSome = true := hentry hvalid
      rw [hcw] at hsome
      cases hsome

/-- What a command's raise means: bytes alone were sent, and the code is one that R200 lets the command raise. -/
theorem command_error {i : Instr} {s t : State} {e : Err} (hi : opcode i = some op)
    (h : instrBody i s = .error e t) : SendsBytes s t ∧ (StoreInv s → op ∈ raisedBy e.code) := by
  by_cases heom : i = .encEom
  · subst heom
    cases hi
    obtain ⟨rfl, hcode⟩ := encEom_error h
    exact ⟨frameSendsBytes.refl t, fun hs => by rw [hcode hs]; decide⟩
  · have hend := command_runs (s₀ := s) hi heom s (frameSendsBytes.refl s)
    rw [h] at hend
    exact ⟨hend.1, fun _ => hend.2⟩

/-- A command that leaves ERR = 1 where it was 0 has raised (R203). -/
theorem raised_of_err_set {i : Instr} {s t : State} (hi : opcode i = some op) (h : exec i s = .next t)
    (hclear : s.err.set = false) (hset : t.err.set = true) :
    ∃ e u, instrBody i s = .error e u ∧ t = complete (recordError op e u) := by
  rw [exec_command hi] at h
  cases h
  cases hend : instrBody i s with
  | error e u => exact ⟨e, u, rfl, rfl⟩
  | ok _ u =>
    have hu : u.err.set = false := by
      by_cases hclr : i = .clrErr
      · subst hclr; cases hend; rfl
      by_cases hreset : i = .softReset
      · subst hreset; cases hend; rfl
      obtain ⟨⟨-, herr⟩, -⟩ := admits_sameControl.command hi hclr hreset s
      rw [hend, endState_ok] at herr
      rw [herr, hclear]
    rw [hend, settle_ok, complete_err, hu] at hset
    cases hset

/-- No production sends anything (R122 to R124). -/
theorem exec_production_outEv {i : Instr} {s t : State} (hi : opcode i = none) (h : exec i s = .next t) :
    t.outEv = s.outEv := by
  have hframe := admitsTdes_sameButTdes.production (.inl ⟨i, hi, rfl⟩) s
  unfold SameButTdes at hframe
  rw [exec_production_endState hi h, hframe]

/-- Settles O49: a command's Flush is its last action, which cannot raise, and a production does not use OUT. -/
theorem aRaiseSendsNoFlush : Obligations.ARaiseSendsNoFlush := by
  intro i s t h hclear hset
  cases hi : opcode i with
  | none => exact ⟨[], by simp [exec_production_outEv hi h]⟩
  | some op =>
    obtain ⟨e, u, hraise, rfl⟩ := raised_of_err_set hi h hclear hset
    exact (command_error hi hraise).1

/-- Settles O50: completion records the command's OP with what its body raised. -/
theorem errorsAreThoseOfTheCommand : Obligations.ErrorsAreThoseOfTheCommand := by
  intro i s t op hi hs h hclear hset
  obtain ⟨e, u, hraise, rfl⟩ := raised_of_err_set hi h hclear hset
  exact ⟨rfl, (command_error hi hraise).2 hs⟩

end Sys2Proof.Machine
end

section
/-! SUPPORT. Hardware reset and the reset state (70_reset_and_hazards.md rules R240 and R241). -/

namespace Sys2Proof.Machine

/-! ### The port events of an aborted command -/

/-- The environment after a sequence of port events: the bytes taken are gone from IN, and what was sent stands on OUT
(R62). -/
theorem foldl_replay (log : List PortEvent) (s : State) : log.foldl (fun t e => replay e t) s =
    { s with inQ := s.inQ.drop (takenOf log).length, outEv := s.outEv ++ outsOf log } := by
  induction log generalizing s with
  | nil => simp [takenOf, outsOf]
  | cons e log ih =>
    rw [List.foldl_cons, ih]
    cases e <;> simp [replay, takenOf, outsOf]

/-- The port events of the running command are the record that its core step makes from an empty one. -/
theorem commandEvents_next {s u : State} (h : coreStep { s with portLog := [] } = .next u) :
    commandEvents s = u.portLog := by
  rw [commandEvents, h]

theorem commandEvents_fault {s : State} {r : Fault} (h : coreStep { s with portLog := [] } = .fault r) :
    commandEvents s = [] := by
  rw [commandEvents, h]

/-- An idle core makes no port event (R241). -/
theorem commandEvents_idle {s : State} (hc : s.cur = none) : commandEvents s = [] :=
  commandEvents_next (u := { s with portLog := [] }) (coreStep_idle hc)

/-- Hardware reset gives the reset state, with the first port events of the command it aborts made (R240, R241). -/
theorem hardReset_eq_reset {k : Nat} {s : State} {made : List PortEvent} (hmade : made = (commandEvents s).take k) :
    hardReset k s = { State.reset with
      inQ := s.inQ.drop (takenOf made).length, outEv := s.outEv ++ outsOf made, portLog := made, host := s.host,
      agenda := s.agenda, freeCtr := s.freeCtr } := by
  subst hmade
  rw [hardReset, foldl_replay, resetState_eq_reset]

/-! ### The obligations -/

/-- Settles O21: replaying the port events made touches the environment alone, and the reset the core alone. -/
theorem hardwareReset : Obligations.HardwareReset := by
  intro s k rest ha
  refine ⟨hardReset k { s with agenda := rest }, (commandEvents { s with agenda := rest }).take k, step_event ha,
    fun u hu => ?next, fun r hr => ?fault, hardReset_eq_reset rfl, fun hc => ?idle⟩
  case next => rw [commandEvents_next hu]
  case fault => rw [commandEvents_fault hr, List.take_nil]
  case idle => rw [commandEvents_idle (s := { s with agenda := rest }) hc, List.take_nil]

/-- Settles O20: STATUS is that after any reset, and each other register reads a field that is 0 at reset. -/
theorem resetStateRegisters : Obligations.ResetStateRegisters := by
  refine ⟨rfl, statusWord_resetState State.reset, ?registers, rfl, rfl, rfl⟩
  case registers => decide

/-- Settles O59: at reset the core is idle without an error, no bit is in hand, both stores are empty and no table is
valid. -/
theorem resetMeetsTheInvariants : Obligations.ResetMeetsTheInvariants :=
  ⟨.reset rfl rfl rfl rfl rfl, .invalidated rfl (Nat.zero_le _) rfl rfl, ⟨fun _ => rfl, fun hset => nomatch hset⟩,
    .idle rfl rfl, .invalid rfl⟩

end Sys2Proof.Machine
end
